-- ==== Sys2Proof/Word.lean ====
section
/-!
DEFINITION. The plain words the model is written in: bytes, the two floating-point formats and their bit patterns, the two code
widths, pin levels, the provider's answers, and the raw words that arrive at the inward ports.
-/

namespace Sys2Proof

/-- One byte of a frame (00_scope.md R8). -/
abbrev Byte := BitVec 8

/-- A code on the ports: unsigned, `CODE_W` = 32 bits (00_scope.md R6, 10_state.md R19). -/
abbrev Code := BitVec 32

/-- `FMT`, the floating-point format of a block (00_scope.md R6, 40_quantizer.md R70). -/
inductive Fmt where
  | binary32
  | binary64
deriving DecidableEq, Repr, Inhabited

/-- The bit pattern of a float of one of the two formats (30_encoding.md R52): the contents of `CFG.VREF` and a float operand. -/
inductive FpBits where
  | b32 (bits : BitVec 32)
  | b64 (bits : BitVec 64)
deriving DecidableEq, Repr, Inhabited

/-- The format a bit pattern belongs to. -/
def FpBits.fmt : FpBits → Fmt
  | .b32 _ => .binary32
  | .b64 _ => .binary64

/-- A value of a format (00_scope.md R8, 40_quantizer.md R70): `fin x` is a finite number other than zero. -/
inductive Fp where
  | nan
  | inf (neg : Bool)
  | zero (neg : Bool)
  | fin (x : ℚ)
deriving DecidableEq, Repr, Inhabited

/-- The code-width variant (10_state.md R12). -/
inductive Width where
  | w16
  | w20
deriving DecidableEq, Repr, Inhabited

/-- A physical level of a pin: `high` is 1, `low` is 0 (00_scope.md R8). -/
inductive Level where
  | low
  | high
deriving DecidableEq, Repr, Inhabited

/-- The two output pins (20_memory.md R32). -/
inductive Pin where
  | csN
  | ldacN
deriving DecidableEq, Repr, Inhabited

/-- What `Transfer` answers (20_memory.md R31). -/
inductive Answer where
  | ok
  | fail
deriving DecidableEq, Repr, Inhabited

/-- A raw word at an inward port: its length in whole bytes and its bits read as one number, bit 0 least significant.
No byte order arises (91_not_in_source.md N20). -/
structure PortWord where
  len : Nat
  val : Nat
deriving DecidableEq, Repr, Inhabited

end Sys2Proof
end

