-- ==== Sys2Proof/Machine/Float.lean ====
section
/-!
DEFINITION. The floating-point arithmetic of the Quantizer (40_quantizer.md R70 to R76): IEEE 754 values, rounding to nearest with
ties to even, addition, multiplication, division, comparison, and the conversion to an unsigned integer. Every operation
computes the exact rational result and rounds it once (log 14).
-/

namespace Sys2Proof

/-- Precision `p`, with the hidden bit (40_quantizer.md R70). -/
def Fmt.precision : Fmt → ℤ
  | .binary32 => 24
  | .binary64 => 53

/-- `emin` (40_quantizer.md R70). -/
def Fmt.emin : Fmt → ℤ
  | .binary32 => -126
  | .binary64 => -1022

/-- `emax` (40_quantizer.md R70). -/
def Fmt.emax : Fmt → ℤ
  | .binary32 => 127
  | .binary64 => 1023

/-- `2 ^ k` as a rational number. -/
def pow2 : ℤ → ℚ
  | .ofNat n => ((2 ^ n : ℕ) : ℚ)
  | .negSucc n => mkRat 1 (2 ^ (n + 1))

/-- The integer `e` with `2 ^ e ≤ x < 2 ^ (e + 1)`, for `x > 0`. -/
def floorLog2 (x : ℚ) : ℤ :=
  if x.den ≤ x.num.toNat then (Nat.log2 (x.num.toNat / x.den) : ℤ)
  else -((Nat.log2 ((x.den - 1) / x.num.toNat) : ℤ) + 1)

/-- The integer nearest to `q ≥ 0`; of two equally near, the even one (40_quantizer.md R71). -/
def roundHalfEven (q : ℚ) : ℕ :=
  let n := q.num.toNat
  let low := n / q.den
  let twice := 2 * (n % q.den)
  if twice < q.den then low
  else if q.den < twice then low + 1
  else if low % 2 = 0 then low
  else low + 1

/-- The exponent of the last significand bit of the numbers near `a > 0`: `e - p + 1`, with `e` not below `emin` (gradual
underflow; 40_quantizer.md R70, R71). -/
def Fmt.ulpExp (f : Fmt) (a : ℚ) : ℤ := max (floorLog2 a) f.emin - f.precision + 1

/-- Half an ulp above the largest finite number, `(2 - 2^-p) · 2^emax` (40_quantizer.md R71). -/
def Fmt.overflowBound (f : Fmt) : ℚ := (2 - pow2 (-f.precision)) * pow2 f.emax

/-- The multiple of the last place of `a > 0` nearest to it, ties to even. -/
def Fmt.roundMag (f : Fmt) (a : ℚ) : ℚ := (roundHalfEven (a / pow2 (f.ulpExp a)) : ℚ) * pow2 (f.ulpExp a)

/-- `round(x)` of an exact real other than zero (40_quantizer.md R71): infinity from the overflow bound on, a zero with the sign
of `x` when `x` rounds to zero. An exact zero is `+0`; the operations give its sign themselves. -/
def Fp.round (f : Fmt) (x : ℚ) : Fp :=
  if x = 0 then .zero false
  else if f.overflowBound ≤ |x| then .inf (decide (x < 0))
  else if f.roundMag |x| = 0 then .zero (decide (x < 0))
  else if x < 0 then .fin (-f.roundMag |x|)
  else .fin (f.roundMag |x|)

/-- `isNaN`. -/
def Fp.isNan : Fp → Bool
  | .nan => true
  | _ => false

/-- The opposite value. -/
def Fp.neg : Fp → Fp
  | .nan => .nan
  | .inf s => .inf (!s)
  | .zero s => .zero (!s)
  | .fin x => .fin (-x)

/-- `fadd` (40_quantizer.md R72). -/
def Fp.add (f : Fmt) : Fp → Fp → Fp
  | .nan, _ => .nan
  | _, .nan => .nan
  | .inf s, .inf t => if s = t then .inf s else .nan
  | .inf s, _ => .inf s
  | _, .inf t => .inf t
  | .zero s, .zero t => .zero (s && t)
  | .zero _, .fin y => .round f y
  | .fin x, .zero _ => .round f x
  | .fin x, .fin y => .round f (x + y)

/-- `fmul` (40_quantizer.md R72). -/
def Fp.mul (f : Fmt) : Fp → Fp → Fp
  | .nan, _ => .nan
  | _, .nan => .nan
  | .inf s, .inf t => .inf (s ^^ t)
  | .inf _, .zero _ => .nan
  | .zero _, .inf _ => .nan
  | .inf s, .fin y => .inf (s ^^ decide (y < 0))
  | .fin x, .inf t => .inf (decide (x < 0) ^^ t)
  | .zero s, .zero t => .zero (s ^^ t)
  | .zero s, .fin y => .zero (s ^^ decide (y < 0))
  | .fin x, .zero t => .zero (decide (x < 0) ^^ t)
  | .fin x, .fin y => .round f (x * y)

/-- `fdiv` (40_quantizer.md R72). -/
def Fp.div (f : Fmt) : Fp → Fp → Fp
  | .nan, _ => .nan
  | _, .nan => .nan
  | .inf _, .inf _ => .nan
  | .inf s, .zero t => .inf (s ^^ t)
  | .inf s, .fin y => .inf (s ^^ decide (y < 0))
  | .zero s, .inf t => .zero (s ^^ t)
  | .fin x, .inf t => .zero (decide (x < 0) ^^ t)
  | .zero _, .zero _ => .nan
  | .zero s, .fin y => .zero (s ^^ decide (y < 0))
  | .fin x, .zero t => .inf (decide (x < 0) ^^ t)
  | .fin x, .fin y => .round f (x / y)

/-- `toF(n)` (40_quantizer.md R74). -/
def Fp.ofNat (f : Fmt) (n : ℕ) : Fp := .round f (n : ℚ)

/-- The ordered comparison `a < b` (40_quantizer.md R75): false with a NaN, the two zeros equal. -/
def Fp.lt : Fp → Fp → Bool
  | .nan, _ => false
  | _, .nan => false
  | .inf s, .inf t => s && !t
  | .inf s, _ => s
  | _, .inf t => !t
  | .zero _, .zero _ => false
  | .zero _, .fin y => decide (0 < y)
  | .fin x, .zero _ => decide (x < 0)
  | .fin x, .fin y => decide (x < y)

/-- The ordered comparison `a ≤ b`: false with a NaN, the two zeros equal (40_quantizer.md R75). -/
def Fp.le (a b : Fp) : Bool := !a.isNan && !b.isNan && !b.lt a

/-- The value whose IEEE 754 fields are the sign, the biased exponent and the trailing significand (30_encoding.md R52;
layout from general knowledge, 93_implementation_defined.md GK3): exponent field all ones for the infinities and NaNs, zero
for the zeros and the subnormal numbers. -/
def Fp.ofFields (f : Fmt) (neg : Bool) (expo frac : ℕ) : Fp :=
  let sign : ℚ := if neg then -1 else 1
  if (expo : ℤ) = 2 * f.emax + 1 then (if frac = 0 then .inf neg else .nan)
  else if expo = 0 then
    (if frac = 0 then .zero neg else .fin (sign * (frac * pow2 (f.emin - f.precision + 1))))
  else .fin (sign * (((2 ^ (f.precision - 1).toNat + frac : ℕ) : ℚ) * pow2 (expo - f.emax - f.precision + 1)))

/-- The value a bit pattern stands for (30_encoding.md R52). -/
def FpBits.value : FpBits → Fp
  | .b32 b => .ofFields .binary32 (b.getLsbD 31) (b.extractLsb' 23 8).toNat (b.extractLsb' 0 23).toNat
  | .b64 b => .ofFields .binary64 (b.getLsbD 63) (b.extractLsb' 52 11).toNat (b.extractLsb' 0 52).toNat

end Sys2Proof
end

