-- ==== Sys2Proof/Config.lean ====
section
/-!
DEFINITION. The implementation parameters of 00_scope.md R6 and the free values: what the spec leaves open is a constant with no
body, which no proof can see through.
-/

namespace Sys2Proof

/-- `NAN_POLICY`, what the Quantizer does with a NaN voltage (40_quantizer.md R83). -/
inductive NanPolicy where
  | fault
  | satZero
  | satMax
  | draw
deriving DecidableEq, Repr, Inhabited

namespace Config

/-- `NAN_POLICY = fault`, the spec's value (00_scope.md R6, 92_eei_decisions.md D7; log 12). -/
def nanPolicy : NanPolicy := .fault

/-- `LATCH_ON_FAIL = false`, the spec's value (00_scope.md R6, 92_eei_decisions.md D18; log 13). -/
def latchOnFail : Bool := false

/-- `T_LDPW_MIN`, in nanoseconds (00_scope.md R6, 92_eei_decisions.md D21). No statement uses the number (log 11). -/
def tLdpwMin : Nat := 20

/-- `T_XFER_TIMEOUT`, `OPEN` (92_eei_decisions.md D20): a constant of the machine with no known value (log 18). -/
opaque tXferTimeout : Nat

/-- The answer of a transfer that `answers` does not script, from the timeout, the frame and the number of the draw
(20_memory.md R31, 93_implementation_defined.md U12; log 9). -/
opaque freeAnswer : Nat → List Byte → Nat → Answer

/-- How long beyond the minimum a hold lasts that `holds` does not script (20_memory.md R33, U13; log 10). -/
opaque freeHold : Nat → Nat

/-- The level of a pin that nothing has driven since reset (10_state.md R28, U4; log 7). -/
opaque freeLevel : Nat → Level

/-- `CFG.VREF` after reset in a binary32 block (10_state.md R28, U3; log 7). -/
opaque freeVref32 : Nat → BitVec 32

/-- `CFG.VREF` after reset in a binary64 block (10_state.md R28, U3; log 7). -/
opaque freeVref64 : Nat → BitVec 64

/-- `CFG.WIDTH` after reset (10_state.md R28, U3; log 7). -/
opaque freeWidth : Nat → Width

/-- What an undefined `DEV_SHIFT` holds (20_memory.md R40, U5, U6; log 5). -/
opaque freeFrame : Nat → List Byte

/-- What an undefined `DEV_OUT` holds (20_memory.md R40, U5, U7; log 5). -/
opaque freeOut : Nat → BitVec 20

/-- The code for a NaN under `NAN_POLICY = draw`, before it is brought into `[0, MAXCODE]` (40_quantizer.md R83; log 12). -/
opaque freeNanCode : Nat → Nat

/-- `ftou` outside its domain, to which "the spec gives … no meaning" (40_quantizer.md R76; log 19). -/
opaque freeFtou : Fp → Nat

end Config

end Sys2Proof
end

