-- ==== Sys2Proof/Syntax.lean ====
section
/-!
DEFINITION. The instructions: one constructor per row of spec/opcode_table.json, the four commands in each of the two
command-word formats (30_encoding.md R51) and the two frames (30_encoding.md R56, R57).
-/

namespace Sys2Proof

/-- One constructor per row of the opcode table. `x` is the ignored bit of a command other than INIT, `hi` the ignored
`arg[63:32]` of a binary64 SENDCODE (30_encoding.md R60), `pad` the four padding bits of `FRAME24` (R58). -/
inductive Instr where
  /-- `INIT` in a binary32 block (41_transport.md R100). -/
  | init32 (w : Width) (vref : BitVec 32)
  /-- `INIT` in a binary64 block (41_transport.md R100). -/
  | init64 (w : Width) (vref : BitVec 64)
  /-- `VTOC` in a binary32 block (40_quantizer.md R85). -/
  | vtoc32 (x : BitVec 1) (voltage : BitVec 32)
  /-- `VTOC` in a binary64 block (40_quantizer.md R85). -/
  | vtoc64 (x : BitVec 1) (voltage : BitVec 64)
  /-- `SENDCODE` in a binary32 block (41_transport.md R108). -/
  | sendcode32 (x : BitVec 1) (code : Code)
  /-- `SENDCODE` in a binary64 block (41_transport.md R108). -/
  | sendcode64 (x : BitVec 1) (hi : BitVec 32) (code : Code)
  /-- `SETVOLTAGE` in a binary32 block (41_transport.md R117). -/
  | setvoltage32 (x : BitVec 1) (voltage : BitVec 32)
  /-- `SETVOLTAGE` in a binary64 block (41_transport.md R117). -/
  | setvoltage64 (x : BitVec 1) (voltage : BitVec 64)
  /-- `FRAME24`, the frame of a 20-bit code (30_encoding.md R56), as the device takes it (20_memory.md R40; log 4). -/
  | frame24 (data : BitVec 20) (pad : BitVec 4)
  /-- `FRAME16`, the frame of a 16-bit code (30_encoding.md R57), as the device takes it (20_memory.md R40; log 4). -/
  | frame16 (data : BitVec 16)
deriving DecidableEq, Repr, Inhabited

end Sys2Proof
end

