-- ==== Sys2Proof/WellFormed.lean ====
section
/-!
DEFINITION. Well-formed instructions: the written form of 30_encoding.md R63 and the emitted form of R58, in which every ignored
or padding bit is 0. A word with such a bit set is legal too and means the same (30_encoding.md R58, R60); it is only not the
form the spec writes (log 20).
-/

namespace Sys2Proof

/-- The ignored and padding bits are 0. -/
def Instr.wf : Instr → Bool
  | .init32 _ _ => true
  | .init64 _ _ => true
  | .vtoc32 x _ => x = 0#1
  | .vtoc64 x _ => x = 0#1
  | .sendcode32 x _ => x = 0#1
  | .sendcode64 x hi _ => x = 0#1 ∧ hi = 0#32
  | .setvoltage32 x _ => x = 0#1
  | .setvoltage64 x _ => x = 0#1
  | .frame24 _ pad => pad = 0#4
  | .frame16 _ => true

/-- The instruction is written in the spec's own form. -/
abbrev Instr.WellFormed (i : Instr) : Prop := i.wf = true

end Sys2Proof
end

