-- ==== Sys2Proof/Decode.lean ====
section
/-!
DEFINITION. From the raw words of the inward ports to instructions and back. A decoder of the command word is total, since all
four `op` values are assigned (30_encoding.md R51, R60), and so is a decoder of frames (R61); what can be refused is a raw word
that is no word of the block: a length no format has (R62), or a bit above the format's width (log 3).
-/

namespace Sys2Proof

/-- Why a raw word is no word of the block. -/
inductive DecodeError where
  /-- No word of the block has this length (30_encoding.md R62). -/
  | noSuchLength
  /-- A bit at or above the format's width is set: the port has no such wire (30_encoding.md R51, R56, R57). -/
  | strayBits
deriving DecidableEq, Repr, Inhabited

/-- The width selector bit: 0 = `W16`, 1 = `W20` (10_state.md R12). -/
def Width.ofBit (b : BitVec 1) : Width := if b = 0#1 then .w16 else .w20

/-- The bit that selects a width (10_state.md R12). -/
def Width.toBit : Width → BitVec 1
  | .w16 => 0#1
  | .w20 => 1#1

/-- A 35-bit command word: `op = [34:33]`, `w = [32]`, `arg = [31:0]` (30_encoding.md R51). -/
def decodeCmd35 (b : BitVec 35) : Instr :=
  let op := b.extractLsb' 33 2
  let w := b.extractLsb' 32 1
  let arg := b.extractLsb' 0 32
  if op = 0b00#2 then .init32 (Width.ofBit w) arg
  else if op = 0b01#2 then .vtoc32 w arg
  else if op = 0b10#2 then .sendcode32 w arg
  else .setvoltage32 w arg

/-- A 67-bit command word: `op = [66:65]`, `w = [64]`, `arg = [63:0]` (30_encoding.md R51). -/
def decodeCmd67 (b : BitVec 67) : Instr :=
  let op := b.extractLsb' 65 2
  let w := b.extractLsb' 64 1
  let arg := b.extractLsb' 0 64
  if op = 0b00#2 then .init64 (Width.ofBit w) arg
  else if op = 0b01#2 then .vtoc64 w arg
  else if op = 0b10#2 then .sendcode64 w (arg.extractLsb' 32 32) (arg.extractLsb' 0 32)
  else .setvoltage64 w arg

/-- `FRAME24`: data `[23:4]`, padding `[3:0]` (30_encoding.md R56). -/
def decodeFrame24 (b : BitVec 24) : Instr := .frame24 (b.extractLsb' 4 20) (b.extractLsb' 0 4)

/-- `FRAME16`: data `[15:0]` (30_encoding.md R57). -/
def decodeFrame16 (b : BitVec 16) : Instr := .frame16 b

/-- The decoder: total on every raw word, refusing by name. -/
def decode (p : PortWord) : Except DecodeError Instr :=
  match p.len with
  | 2 => if p.val < 2 ^ 16 then .ok (decodeFrame16 (BitVec.ofNat 16 p.val)) else .error .strayBits
  | 3 => if p.val < 2 ^ 24 then .ok (decodeFrame24 (BitVec.ofNat 24 p.val)) else .error .strayBits
  | 5 => if p.val < 2 ^ 35 then .ok (decodeCmd35 (BitVec.ofNat 35 p.val)) else .error .strayBits
  | 9 => if p.val < 2 ^ 67 then .ok (decodeCmd67 (BitVec.ofNat 67 p.val)) else .error .strayBits
  | _ => .error .noSuchLength

/-- The raw word of a 35-bit command word. -/
def cmd35 (op : BitVec 2) (w : BitVec 1) (arg : BitVec 32) : PortWord := ⟨5, (op ++ w ++ arg).toNat⟩

/-- The raw word of a 67-bit command word. -/
def cmd67 (op : BitVec 2) (w : BitVec 1) (arg : BitVec 64) : PortWord := ⟨9, (op ++ w ++ arg).toNat⟩

/-- The encoder, from the same tables (30_encoding.md R51, R56, R57). -/
def encode : Instr → PortWord
  | .init32 w vref => cmd35 0b00#2 w.toBit vref
  | .init64 w vref => cmd67 0b00#2 w.toBit vref
  | .vtoc32 x v => cmd35 0b01#2 x v
  | .vtoc64 x v => cmd67 0b01#2 x v
  | .sendcode32 x c => cmd35 0b10#2 x c
  | .sendcode64 x hi c => cmd67 0b10#2 x (hi ++ c)
  | .setvoltage32 x v => cmd35 0b11#2 x v
  | .setvoltage64 x v => cmd67 0b11#2 x v
  | .frame24 d pad => ⟨3, (d ++ pad).toNat⟩
  | .frame16 d => ⟨2, d.toNat⟩

/-- The raw word of `nbits` bits, in whole bytes. -/
def tableWord (nbits w : Nat) : PortWord := ⟨(nbits + 7) / 8, w⟩

/-- The instruction the decoder reads from an opcode-table word of `nbits` bits. -/
def decodeTableWord (nbits w : Nat) : Option Instr := (decode (tableWord nbits w)).toOption

end Sys2Proof
end

