-- ==== Sys2Proof/Machine/State.lean ====
section
/-!
DEFINITION. The state of the block and of what it is wired to, as plain data: the tuple of 10_state.md R10, the DAC device as a
sink (20_memory.md R40), the inputs that wait at the ports, and the record of what the block has done (20_memory.md R34).
-/

namespace Sys2Proof.Machine

/-- The event alphabet (20_memory.md R34). A duration is in nanoseconds (log 10). -/
inductive Event where
  | pin (p : Pin) (l : Level)
  | xfer (bytes : List Byte) (a : Answer)
  | delay (d : Nat)
deriving DecidableEq, Repr, Inhabited

/-- The result codes (60_exceptions.md R130). -/
inductive Res where
  | success
  | transferFailure
  | invalidConfiguration
  | notReady
  | nanOperand
deriving DecidableEq, Repr, Inhabited

/-- A response `Result(r, code)` (10_state.md R20). -/
structure Response where
  res : Res
  code : Code
deriving DecidableEq, Repr, Inhabited

/-- What the transfer provider will do with one request: answer (20_memory.md R31), or never answer, which its contract
excludes (93_implementation_defined.md U11; log 9). -/
inductive ProviderMove where
  | answers (a : Answer)
  | silent
deriving DecidableEq, Repr, Inhabited

/-- What waits at the block's inward side: a raw word, a reset request (70_reset_and_hazards.md R150; log 8), or a raw word whose
command a reset cuts off after that many of its events (R151, 93_implementation_defined.md U18; log 8). -/
inductive Input where
  | word (p : PortWord)
  | reset
  | cut (p : PortWord) (events : Nat)
deriving DecidableEq, Repr, Inhabited

/-- What the device has seen of `CS_N`: the first sub-trace of 20_memory.md R40 (log 5). -/
inductive CsPhase where
  /-- No event has shown the level yet. -/
  | unknown
  /-- `CS_N` is high. -/
  | high
  /-- `CS_N` has fallen, nothing since. -/
  | fallen
  /-- `CS_N` has fallen and one frame has arrived, nothing else since. -/
  | framed (bytes : List Byte)
  /-- `CS_N` is low and no frame can complete any more. -/
  | spent
deriving DecidableEq, Repr, Inhabited

/-- What the device has seen of `LDAC_N`: the second sub-trace of 20_memory.md R40 (log 5). -/
inductive LatchPhase where
  /-- No event has shown the level yet. -/
  | unknown
  /-- `LDAC_N` is high. -/
  | high
  /-- `LDAC_N` has fallen, nothing since. -/
  | fallen
  /-- `LDAC_N` has fallen and the hold time has passed, nothing else since. -/
  | held
  /-- `LDAC_N` is low in a pulse that violated the order. -/
  | spent
deriving DecidableEq, Repr, Inhabited

/-- A register of the device: whether 20_memory.md R40 gives it a value, and what it holds (a free value when it does not). -/
structure DevReg (α : Type) where
  defined : Bool
  value : α
deriving DecidableEq, Repr, Inhabited

/-- The DAC device as a sink (20_memory.md R40, 92_eei_decisions.md D26). -/
structure Device where
  /-- The device's place in the sub-trace of a frame. -/
  cs : CsPhase
  /-- The device's place in the sub-trace of a latch pulse. -/
  latch : LatchPhase
  /-- A whole frame has arrived since the order was last violated (93_implementation_defined.md U7; log 5). -/
  fresh : Bool
  /-- `DEV_SHIFT`. -/
  shift : DevReg (List Byte)
  /-- `DEV_OUT`. -/
  out : DevReg (BitVec 20)
deriving DecidableEq, Repr, Inhabited

/-- The machine. -/
structure State where
  /-- `CFG.VREF` (10_state.md R11). Its width is the block's `FMT` (log 2). -/
  cfgVref : FpBits
  /-- `CFG.WIDTH` (10_state.md R12). -/
  cfgWidth : Width
  /-- `STATUS.READY` (10_state.md R15). -/
  ready : Bool
  /-- `STATUS.BUSY` (10_state.md R16). -/
  busy : Bool
  /-- `SEQ` (10_state.md R18): the values 0 to 6. -/
  seq : Fin 7
  /-- `CS_N` (10_state.md R21). -/
  csN : Level
  /-- `LDAC_N` (10_state.md R21). -/
  ldacN : Level
  /-- The DAC device (20_memory.md R40). -/
  dev : Device
  /-- What waits at the inward ports, first to be accepted first (60_exceptions.md R142; log 17). -/
  inputs : List Input
  /-- What the transfer provider will do with the coming requests (20_memory.md R31; log 9). -/
  answers : List ProviderMove
  /-- By how much the coming holds exceed the minimum (20_memory.md R33; log 10). -/
  holds : List Nat
  /-- The events so far, in order (20_memory.md R34; log 16). -/
  trace : List Event
  /-- The responses so far, in order (70_reset_and_hazards.md R165; log 16). -/
  responses : List Response
  /-- The number of the next free value (log 7). -/
  draws : Nat
  /-- How many events the trace had when a reset last cut a command off (70_reset_and_hazards.md R151; log 16). -/
  cutAt : Nat
deriving DecidableEq, Repr, Inhabited

/-- Why the machine stops. -/
inductive Fault where
  /-- Raised by the commands that transfer when the provider never answers: the block hangs with `CS_N = 0`, `SEQ = 1`
  (93_implementation_defined.md U11, 70_reset_and_hazards.md R157). Safe: the machine stops where the spec has a stuck state. -/
  | transferNeverAnswers
deriving DecidableEq, Repr

/-- Why a word has no meaning. -/
inductive Refusal where
  /-- Raised by exec for an instruction whose meaning is not written; no arm does. Safe. -/
  | notModelled (mnemonic : String)
  /-- Raised by every command word of the format the block does not have: a command word has one length for a given `FMT`
  (30_encoding.md R51, R62). Safe: such a word cannot be presented to the block (log 2). -/
  | foreignFormat
  /-- Raised by the step for a raw word that is no word of the block (30_encoding.md R62; log 3). Safe. -/
  | noWord (e : DecodeError)
deriving DecidableEq, Repr

/-- The machine right after reset (10_state.md R28, 70_reset_and_hazards.md R150): not ready, not busy, sequence position 0; the
configuration, the pin levels and the device are unspecified, so each holds a free value (log 7). The block is a binary32
block, the spec's value of `FMT` (00_scope.md R6; log 2). -/
def State.reset : State where
  cfgVref := .b32 (Config.freeVref32 0)
  cfgWidth := Config.freeWidth 0
  ready := false
  busy := false
  seq := 0
  csN := Config.freeLevel 0
  ldacN := Config.freeLevel 1
  dev :=
    { cs := .unknown
      latch := .unknown
      fresh := false
      shift := { defined := false, value := Config.freeFrame 0 }
      out := { defined := false, value := Config.freeOut 0 } }
  inputs := []
  answers := []
  holds := []
  trace := []
  responses := []
  draws := 2
  cutAt := 0

end Sys2Proof.Machine
end

