-- ==== Sys2Proof/Machine/Operands.lean ====
section
/-!
DEFINITION. What the configuration and the operands stand for: the derived constants of a width (10_state.md R13), the format of
the block, the code operand as a number and as it goes out in a response.
-/

namespace Sys2Proof

/-- `WIDTH` (10_state.md R13). -/
def Width.bits : Width → ℕ
  | .w16 => 16
  | .w20 => 20

/-- `MAXCODE = 2^WIDTH - 1` (10_state.md R13). -/
def Width.maxCode (w : Width) : ℕ := 2 ^ w.bits - 1

/-- `NBYTES` (10_state.md R13). -/
def Width.nbytes : Width → ℕ
  | .w16 => 2
  | .w20 => 3

namespace Machine

/-- `FMT` of the block: the width of its `CFG.VREF` register (10_state.md R10; log 2). -/
def State.fmt (s : State) : Fmt := s.cfgVref.fmt

/-- `ConfigValid(vref, w)`: finite and greater than zero (41_transport.md R101). Both widths are legal. -/
def configValid (vref : FpBits) : Bool :=
  match vref.value with
  | .fin x => decide (0 < x)
  | _ => false

/-- `zext_32` of a code (00_scope.md R8). -/
def zextCode (c : ℕ) : Code := BitVec.ofNat 32 c

end Machine

end Sys2Proof
end

