-- ==== Sys2Proof/Machine/Packer.lean ====
section
/-!
DEFINITION. The byte-packer and its inverse: a code to the bytes of a frame, most significant byte first (41_transport.md R104,
R105; 30_encoding.md R56, R57, R65).
-/

namespace Sys2Proof.Machine

/-- The bytes of a 24-bit frame, the most significant first (20_memory.md R35). -/
def bytes24 (f : BitVec 24) : List Byte := [f.extractLsb' 16 8, f.extractLsb' 8 8, f.extractLsb' 0 8]

/-- The bytes of a 16-bit frame, the most significant first (20_memory.md R35). -/
def bytes16 (f : BitVec 16) : List Byte := [f.extractLsb' 8 8, f.extractLsb' 0 8]

/-- `Pack(w, code)` (41_transport.md R104): `W20` shifts the code left by 4 and keeps 24 bits, `W16` keeps 16 bits. -/
def pack (w : Width) (code : Code) : List Byte :=
  match w with
  | .w20 => bytes24 ((code <<< 4).extractLsb' 0 24)
  | .w16 => bytes16 (code.extractLsb' 0 16)

/-- `Unpack(W20, [b0, b1, b2])` (30_encoding.md R65): the padding bits are ignored (R58). -/
def unpackW20 (b0 b1 b2 : Byte) : BitVec 20 := (b0 ++ b1 ++ b2).extractLsb' 4 20

/-- `Unpack(W16, [b0, b1])` (30_encoding.md R65). -/
def unpackW16 (b0 b1 : Byte) : BitVec 16 := b0 ++ b1

/-- `Unpack` of the bytes a device holds: the number of bytes tells the variant (log 6). -/
def unpack : List Byte → Option (BitVec 20)
  | [b0, b1, b2] => some (unpackW20 b0 b1 b2)
  | [b0, b1] => some ((unpackW16 b0 b1).setWidth 20)
  | _ => none

end Sys2Proof.Machine
end

