-- ==== Sys2Proof/Machine/Ops.lean ====
section
/-!
DEFINITION. The named operations on the state: the device's reaction to one event (20_memory.md R40), the primitives `SetLevel`,
`Transfer` and `Delay` (R31 to R33), accepting a command, ending it with its response (60_exceptions.md R134, R142), and reset.
-/

namespace Sys2Proof.Machine

/-- A register of the device that 20_memory.md R40 makes undefined: it holds a free value. -/
def DevReg.lost {α : Type} (a : α) : DevReg α := { defined := false, value := a }

/-- A register of the device that holds a known value. -/
def DevReg.known {α : Type} (a : α) : DevReg α := { defined := true, value := a }

/-- The device of which nothing is known (70_reset_and_hazards.md R151, R154, 93_implementation_defined.md U5, U18). -/
def Device.unknown (n : ℕ) : Device where
  cs := .unknown
  latch := .unknown
  fresh := false
  shift := .lost (Config.freeFrame n)
  out := .lost (Config.freeOut n)

/-- A frame that is interrupted cannot complete. -/
def CsPhase.interrupted : CsPhase → CsPhase
  | .unknown => .unknown
  | .high => .high
  | .fallen => .spent
  | .framed _ => .spent
  | .spent => .spent

/-- A latch pulse that is interrupted cannot complete. -/
def LatchPhase.interrupted : LatchPhase → LatchPhase
  | .unknown => .unknown
  | .high => .high
  | .fallen => .spent
  | .held => .spent
  | .spent => .spent

/-- `LDAC_N` is known to be low. -/
def LatchPhase.isLow : LatchPhase → Bool
  | .unknown => false
  | .high => false
  | .fallen => true
  | .held => true
  | .spent => true

/-- "On any other interleaving of these events: DEV_OUT <- undefined" (20_memory.md R40), "and it stays undefined until a complete
good handshake" (93_implementation_defined.md U7), so a new frame has to come first. `DEV_SHIFT` is not touched. -/
def Device.violated (n : ℕ) (d : Device) : Device :=
  { d with cs := d.cs.interrupted, latch := d.latch.interrupted, fresh := false, out := .lost (Config.freeOut n) }

/-- `CS_N` falls: a frame begins; the order is violated where the latch is low (20_memory.md R40, "with CS_N = 1 throughout"). A write
of the level the line already has changes nothing (R41). -/
def Device.onCsLow (n : ℕ) (d : Device) : Device :=
  match d.cs with
  | .unknown | .high => { (if d.latch.isLow then d.violated n else d) with cs := .fallen }
  | .fallen | .framed _ | .spent => d

/-- `CS_N` rises: `DEV_SHIFT <- bytes` at the end of a whole frame (20_memory.md R40). -/
def Device.onCsHigh (n : ℕ) (d : Device) : Device :=
  match d.cs with
  | .high => d
  | .unknown | .spent => { d with cs := .high }
  | .fallen => { d.violated n with cs := .high }
  | .framed bytes => { d with cs := .high, fresh := true, shift := .known bytes }

/-- `LDAC_N` falls: a latch pulse begins, in order where `CS_N` is high (20_memory.md R40, 70_reset_and_hazards.md R155). -/
def Device.onLdacLow (n : ℕ) (d : Device) : Device :=
  match d.latch with
  | .unknown | .high => if d.cs = .high then { d with latch := .fallen } else { d.violated n with latch := .spent }
  | .fallen | .held | .spent => d

/-- What a latch pulse commits: `DEV_OUT <- Unpack(DEV_SHIFT)` (20_memory.md R40), undefined when the frame is. -/
def DevReg.commit (n : ℕ) (shift : DevReg (List Byte)) : DevReg (BitVec 20) :=
  if shift.defined then
    match unpack shift.value with
    | some c => .known c
    | none => .lost (Config.freeOut n)
  else .lost (Config.freeOut n)

/-- `LDAC_N` rises: a pulse that was held commits the frame, unless none has come since a violation
(93_implementation_defined.md U7); any other rise violates the order. -/
def Device.onLdacHigh (n : ℕ) (d : Device) : Device :=
  match d.latch with
  | .high => d
  | .held => { d with latch := .high, out := if d.fresh then .commit n d.shift else .lost (Config.freeOut n) }
  | .unknown | .fallen | .spent => { d.violated n with latch := .high }

/-- A transfer: one in a chip-select low period is a frame, any other violates the order; after one that failed `DEV_SHIFT` is
undefined (20_memory.md R40, 93_implementation_defined.md U6). -/
def Device.onXfer (n : ℕ) (d : Device) (bytes : List Byte) (a : Answer) : Device :=
  match a with
  | .ok => if d.cs = .fallen then { d with cs := .framed bytes } else d.violated n
  | .fail => { (if d.cs = .fallen then { d with cs := .spent } else d.violated n) with shift := .lost (Config.freeFrame n) }

/-- Time passes: in a latch pulse the hold, once and for the minimum (20_memory.md R40, 70_reset_and_hazards.md R156). -/
def Device.onDelay (n : ℕ) (d : Device) (t : ℕ) : Device :=
  if d.latch = .fallen ∧ Config.tLdpwMin ≤ t then { d with latch := .held } else d.violated n

/-- The device takes the next event (20_memory.md R40); `n` numbers the free values. -/
def Device.observe (n : ℕ) (d : Device) (e : Event) : Device :=
  match e with
  | .pin .csN .low => d.onCsLow n
  | .pin .csN .high => d.onCsHigh n
  | .pin .ldacN .low => d.onLdacLow n
  | .pin .ldacN .high => d.onLdacHigh n
  | .xfer bytes a => d.onXfer n bytes a
  | .delay t => d.onDelay n t

/-- The device takes one whole frame, framed by one chip-select low period (20_memory.md R39, R40): the sub-trace
`Pin(CS_N, 0), Xfer(bytes, ok), Pin(CS_N, 1)`. -/
def Device.receive (n : ℕ) (d : Device) (bytes : List Byte) : Device :=
  ((d.observe n (.pin .csN .low)).observe n (.xfer bytes .ok)).observe n (.pin .csN .high)

/-- Appends an event to the trace (20_memory.md R34); the device sees it at once (R44). -/
def State.emit (s : State) (e : Event) : State :=
  { s with
    trace := s.trace ++ [e]
    dev := s.dev.observe s.draws e
    draws := s.draws + 1 }

/-- The level of a pin changes, with no event yet. -/
def State.drive (s : State) (p : Pin) (l : Level) : State :=
  match p with
  | .csN => { s with csN := l }
  | .ldacN => { s with ldacN := l }

/-- `SetLevel(pin, level)`: infallible, immediate, an event also when the level does not change (20_memory.md R32). -/
def State.setLevel (s : State) (p : Pin) (l : Level) : State := (s.drive p l).emit (.pin p l)

/-- What the provider will do with a request for these bytes under `T_XFER_TIMEOUT` (20_memory.md R31): the next scripted
answer, or a free one (log 9). -/
def State.providerMove (s : State) (bytes : List Byte) : ProviderMove :=
  match s.answers with
  | [] => .answers (Config.freeAnswer Config.tXferTimeout bytes s.draws)
  | m :: _ => m

/-- `Transfer(bytes, timeout)` once the provider has answered `a` (20_memory.md R31). -/
def State.transfer (s : State) (bytes : List Byte) (a : Answer) : State :=
  { s with answers := s.answers.tail }.emit (.xfer bytes a)

/-- The request of a `Transfer` that is never answered is gone with the reset that ends it (93_implementation_defined.md U11). -/
def State.dropRequest (s : State) : State := { s with answers := s.answers.tail }

/-- The duration of the next hold: any duration not below `T_LDPW_MIN` (20_memory.md R33, 93_implementation_defined.md U13). -/
def State.holdTime (s : State) : ℕ :=
  Config.tLdpwMin +
    match s.holds with
    | [] => Config.freeHold s.draws
    | h :: _ => h

/-- `Delay(T_LDPW_MIN)` (20_memory.md R33). -/
def State.delay (s : State) : State := { s with holds := s.holds.tail }.emit (.delay s.holdTime)

/-- The position of the handshake (10_state.md R18). -/
def State.setSeq (s : State) (k : Fin 7) : State := { s with seq := k }

/-- A command is accepted: `STATUS.BUSY` is 1 until its response (10_state.md R16). -/
def State.accept (s : State) : State := { s with busy := true }

/-- `return Result(r, code)`: the command ends with its one response, at a command boundary (10_state.md R16, R18, R20). Every
error ends so too: it transfers control nowhere and saves nothing (60_exceptions.md R134). -/
def State.respond (s : State) (r : Res) (code : Code) : State :=
  { s with
    busy := false
    seq := 0
    responses := s.responses ++ [{ res := r, code := code }] }

/-- One free value is used up. -/
def State.draw (s : State) : State := { s with draws := s.draws + 1 }

/-- `STATUS.READY <- b` (10_state.md R15). -/
def State.setReady (s : State) (b : Bool) : State := { s with ready := b }

/-- `CFG.VREF <- vref`, `CFG.WIDTH <- w` (41_transport.md R100). -/
def State.setCfg (s : State) (vref : FpBits) (w : Width) : State := { s with cfgVref := vref, cfgWidth := w }

/-- A command word of format `f` at the command port: the block has the port of its own `FMT` only (30_encoding.md R51; log 2).
The command is accepted and runs. -/
def State.onPort (s : State) (f : Fmt) (body : State → Host.Outcome State Fault Refusal) : Host.Outcome State Fault Refusal :=
  if s.fmt = f then body s.accept else .refused .foreignFormat

/-- A value of the block's format that nothing has written. -/
def Fmt.freeVref (f : Fmt) (n : ℕ) : FpBits :=
  match f with
  | .binary32 => .b32 (Config.freeVref32 n)
  | .binary64 => .b64 (Config.freeVref64 n)

/-- Reset (70_reset_and_hazards.md R150, R151): the block to the state of 10_state.md R28 with no event. The pins are unknown
again, so nothing can be claimed of the device (R154, 93_implementation_defined.md U18; log 8). A reset of a busy block cuts its
command off, which the history notes (log 16). -/
def State.applyReset (s : State) : State :=
  { s with
    cfgVref := Fmt.freeVref s.fmt s.draws
    cfgWidth := Config.freeWidth s.draws
    ready := false
    busy := false
    seq := 0
    csN := Config.freeLevel s.draws
    ldacN := Config.freeLevel (s.draws + 1)
    dev := Device.unknown s.draws
    draws := s.draws + 2
    cutAt := if s.busy then s.trace.length else s.cutAt }

end Sys2Proof.Machine
end

