-- ==== Sys2Proof/Machine/Frames.lean ====
section
/-!
DEFINITION. The frame rows: a frame as the DAC device takes it (20_memory.md R39, R40; 30_encoding.md R56, R57, R65). The block's
own frames reach the device through the handshake (Transport.lean); these rows are the frame by itself (log 4).
-/

namespace Sys2Proof.Machine

/-- The device takes one frame under its own chip-select low period; the block's registers and its trace are untouched. -/
def State.deviceReceives (s : State) (bytes : List Byte) : State :=
  { s with dev := s.dev.receive s.draws bytes, draws := s.draws + 1 }

/-- `FRAME24` at the device (30_encoding.md R56): three bytes, the padding as it came (R58). -/
def execFrame24 (data : BitVec 20) (pad : BitVec 4) (s : State) : Host.Outcome State Fault Refusal :=
  .next (s.deviceReceives (bytes24 (data ++ pad)))

/-- `FRAME16` at the device (30_encoding.md R57): two bytes. -/
def execFrame16 (data : BitVec 16) (s : State) : Host.Outcome State Fault Refusal :=
  .next (s.deviceReceives (bytes16 data))

end Sys2Proof.Machine
end

