-- ==== Sys2Proof/Machine/Flags.lean ====
section
/-!
DEFINITION. The numbering of the results and the response word (60_exceptions.md R130, 30_encoding.md R53), and the outcome of a
transfer. The block has no arithmetic flag, no saturation flag and no floating-point flag (10_state.md R17, 40_quantizer.md R73):
a result code is the whole report (60_exceptions.md R130).
-/

namespace Sys2Proof.Machine

/-- `res[2:0]` (60_exceptions.md R130). -/
def Res.number : Res → BitVec 3
  | .success => 0#3
  | .transferFailure => 1#3
  | .invalidConfiguration => 2#3
  | .notReady => 3#3
  | .nanOperand => 4#3

/-- The response word `res[2:0] ++ code[31:0]` (30_encoding.md R53). -/
def Response.word (r : Response) : BitVec 35 := r.res.number ++ r.code

/-- The result of a command whose transfer was answered (60_exceptions.md R132). -/
def Answer.result : Answer → Res
  | .ok => .success
  | .fail => .transferFailure

end Sys2Proof.Machine
end

