-- ==== Sys2Proof/Machine/Quantizer.lean ====
section
/-!
DEFINITION. The Quantizer: the pure function `Quantize` (40_quantizer.md R80), the NaN policy (R83), the ideal quantizer (R77), and
the command VTOC (R85).
-/

namespace Sys2Proof.Machine

/-- Step 1a, `half = fdiv(vref, toF(2))` (40_quantizer.md R80). -/
def quantHalf (f : Fmt) (vref : Fp) : Fp := Fp.div f vref (Fp.ofNat f 2)

/-- Step 1b, `shifted = fadd(v, half)`. -/
def quantShifted (f : Fmt) (vref v : Fp) : Fp := Fp.add f v (quantHalf f vref)

/-- Step 2a, `prod = fmul(shifted, toF(M))`. -/
def quantProd (f : Fmt) (vref : Fp) (w : Width) (v : Fp) : Fp := Fp.mul f (quantShifted f vref v) (Fp.ofNat f w.maxCode)

/-- Step 2b, `raw = fdiv(prod, vref)`. -/
def quantRaw (f : Fmt) (vref : Fp) (w : Width) (v : Fp) : Fp := Fp.div f (quantProd f vref w v) vref

/-- Step 3, the clamp on the floating-point value (40_quantizer.md R80, R81). -/
def quantClamp (f : Fmt) (w : Width) (raw : Fp) : Fp :=
  if raw.lt (Fp.ofNat f 0) then Fp.ofNat f 0
  else if (Fp.ofNat f w.maxCode).lt raw then Fp.ofNat f w.maxCode
  else raw

/-- `ftou(x)` for `-0 ≤ x ≤ MAXCODE`: the fractional part is discarded (40_quantizer.md R76). Outside that domain the spec gives
it no meaning, and it is a free value (log 19). -/
def ftou (w : Width) (x : Fp) : ℕ :=
  match x with
  | .zero _ => 0
  | .fin q => if 0 ≤ q ∧ q ≤ w.maxCode then q.floor.toNat else Config.freeFtou (.fin q)
  | y => Config.freeFtou y

/-- `Quantize(fmt, vref, w, v)` of a voltage that is not NaN (40_quantizer.md R80). -/
def quantize (f : Fmt) (vref : Fp) (w : Width) (v : Fp) : ℕ := ftou w (quantClamp f w (quantRaw f vref w v))

/-- The ideal quantizer over an ordered field, the reals among them (40_quantizer.md R77). -/
def quantizeReal {K : Type} [Field K] [LinearOrder K] [FloorRing K] (vref : K) (w : Width) (v : K) : ℤ :=
  ⌊min (w.maxCode : K) (max 0 ((v + vref / 2) * (w.maxCode : K) / vref))⌋

/-- What a NaN voltage quantizes to under a policy (40_quantizer.md R83): no code under `fault`; `n` numbers the draw. -/
def nanCode (p : NanPolicy) (w : Width) (n : ℕ) : Option ℕ :=
  match p with
  | .fault => none
  | .satZero => some 0
  | .satMax => some w.maxCode
  | .draw => some (Config.freeNanCode n % (w.maxCode + 1))

/-- A voltage under the block's configuration and a NaN policy: its code, or none (40_quantizer.md R83, R85). -/
def State.codeOf (s : State) (p : NanPolicy) (v : FpBits) : Option ℕ :=
  if v.value.isNan then nanCode p s.cfgWidth s.draws
  else some (quantize s.fmt s.cfgVref.value s.cfgWidth v.value)

/-- The state after a conversion: a NaN that a policy turned into a code has used up a draw (40_quantizer.md R83, "chosen freely
at each call"; log 12). -/
def State.converted (s : State) (v : FpBits) : State := if v.value.isNan then s.draw else s

/-- The head of VTOC and SETVOLTAGE: `NotReady`, then `NaNOperand`, else the code (60_exceptions.md R138). -/
def State.conversion (s : State) (v : FpBits) : Except Res Code :=
  if s.ready then
    match s.codeOf Config.nanPolicy v with
    | none => .error .nanOperand
    | some c => .ok (zextCode c)
  else .error .notReady

/-- The body of VTOC (40_quantizer.md R85): no event, no state written. -/
def vtocBody (v : FpBits) (s : State) : Host.Outcome State Fault Refusal :=
  match s.conversion v with
  | .error r => .next (s.respond r 0)
  | .ok c => .next ((s.converted v).respond .success c)

/-- `VTOC voltage` in a binary32 block (40_quantizer.md R85); the bit `x` is ignored (30_encoding.md R60). -/
def execVtoc32 (_x : BitVec 1) (voltage : BitVec 32) (s : State) : Host.Outcome State Fault Refusal :=
  s.onPort .binary32 (vtocBody (.b32 voltage))

/-- `VTOC voltage` in a binary64 block (40_quantizer.md R85); the bit `x` is ignored (30_encoding.md R60). -/
def execVtoc64 (_x : BitVec 1) (voltage : BitVec 64) (s : State) : Host.Outcome State Fault Refusal :=
  s.onPort .binary64 (vtocBody (.b64 voltage))

end Sys2Proof.Machine
end

