-- ==== Sys2Proof/Machine/Transport.lean ====
section
/-!
DEFINITION. The Transport Driver: INIT (41_transport.md R100), the six-step handshake and SENDCODE (R108 to R116), SETVOLTAGE (R117).
-/

namespace Sys2Proof.Machine

/-- The body of INIT (41_transport.md R100): validation first; a failed INIT writes no pin (log 15). -/
def initBody (w : Width) (vref : FpBits) (s : State) : Host.Outcome State Fault Refusal :=
  if configValid vref then
    .next (((((s.setCfg vref w).setLevel .csN .high).setLevel .ldacN .high).setReady true).respond .success 0)
  else .next ((s.setReady false).respond .invalidConfiguration 0)

/-- `INIT vref, w` in a binary32 block (41_transport.md R100). -/
def execInit32 (w : Width) (vref : BitVec 32) (s : State) : Host.Outcome State Fault Refusal :=
  s.onPort .binary32 (initBody w (.b32 vref))

/-- `INIT vref, w` in a binary64 block (41_transport.md R100). -/
def execInit64 (w : Width) (vref : BitVec 64) (s : State) : Host.Outcome State Fault Refusal :=
  s.onPort .binary64 (initBody w (.b64 vref))

/-- Step 1: assert chip-select (41_transport.md R108). -/
def hsStep1 (s : State) : State := (s.setLevel .csN .low).setSeq 1

/-- Step 2: the transfer, answered `a` (41_transport.md R110). -/
def hsStep2 (bytes : List Byte) (a : Answer) (s : State) : State := (s.transfer bytes a).setSeq 2

/-- Step 3: deassert chip-select, whatever the answer (41_transport.md R109). -/
def hsStep3 (s : State) : State := (s.setLevel .csN .high).setSeq 3

/-- Step 4: assert latch (41_transport.md R111). -/
def hsStep4 (s : State) : State := (s.setLevel .ldacN .low).setSeq 4

/-- Step 5: hold at least the minimum pulse width (41_transport.md R111). -/
def hsStep5 (s : State) : State := s.delay.setSeq 5

/-- Step 6: deassert latch (41_transport.md R111). -/
def hsStep6 (s : State) : State := (s.setLevel .ldacN .high).setSeq 6

/-- The failure path's restoration of the latch line (41_transport.md R112): `SEQ` stays 3 until the response. -/
def hsRestore (s : State) : State := s.setLevel .ldacN .high

/-- Steps 4 to 6, the latch pulse (41_transport.md R111). -/
def latchPulse (s : State) : State := hsStep6 (hsStep5 (hsStep4 s))

/-- What follows step 3: the latch pulse, or on a failed transfer the restoration, unless `LATCH_ON_FAIL`
(41_transport.md R112). -/
def afterFrame (a : Answer) (s : State) : State :=
  match a with
  | .ok => latchPulse s
  | .fail => if Config.latchOnFail then latchPulse s else hsRestore s

/-- The body of SENDCODE from `Pack` onwards, in a ready block (41_transport.md R108): a provider that never answers leaves the
block stuck after step 1 (93_implementation_defined.md U11); `code` is the code of the response. -/
def sendFrame (bytes : List Byte) (code : Code) (s : State) : Host.Outcome State Fault Refusal :=
  match (hsStep1 s).providerMove bytes with
  | .silent => .fault .transferNeverAnswers
  | .answers a => .next ((afterFrame a (hsStep3 (hsStep2 bytes a (hsStep1 s)))).respond (Answer.result a) code)

/-- The body of SENDCODE (41_transport.md R108, R116). -/
def sendcodeBody (code : Code) (s : State) : Host.Outcome State Fault Refusal :=
  if s.ready then sendFrame (pack s.cfgWidth code) 0 s else .next (s.respond .notReady 0)

/-- `SENDCODE code` in a binary32 block (41_transport.md R108); the bit `x` is ignored (30_encoding.md R60). -/
def execSendcode32 (_x : BitVec 1) (code : Code) (s : State) : Host.Outcome State Fault Refusal :=
  s.onPort .binary32 (sendcodeBody code)

/-- `SENDCODE code` in a binary64 block (41_transport.md R108); `x` and `arg[63:32]` are ignored (30_encoding.md R60). -/
def execSendcode64 (_x : BitVec 1) (_hi : BitVec 32) (code : Code) (s : State) : Host.Outcome State Fault Refusal :=
  s.onPort .binary64 (sendcodeBody code)

/-- The body of SETVOLTAGE (41_transport.md R117): the conversion, then the body of SENDCODE; the response carries the code. -/
def setvoltageBody (v : FpBits) (s : State) : Host.Outcome State Fault Refusal :=
  match s.conversion v with
  | .error r => .next (s.respond r 0)
  | .ok c => sendFrame (pack s.cfgWidth c) c (s.converted v)

/-- `SETVOLTAGE voltage` in a binary32 block (41_transport.md R117); the bit `x` is ignored (30_encoding.md R60). -/
def execSetvoltage32 (_x : BitVec 1) (voltage : BitVec 32) (s : State) : Host.Outcome State Fault Refusal :=
  s.onPort .binary32 (setvoltageBody (.b32 voltage))

/-- `SETVOLTAGE voltage` in a binary64 block (41_transport.md R117); the bit `x` is ignored (30_encoding.md R60). -/
def execSetvoltage64 (_x : BitVec 1) (voltage : BitVec 64) (s : State) : Host.Outcome State Fault Refusal :=
  s.onPort .binary64 (setvoltageBody (.b64 voltage))

end Sys2Proof.Machine
end

