-- ==== Sys2Proof/Machine/Dispatch.lean ====
section
/-!
DEFINITION. One arm per instruction.
-/

namespace Sys2Proof.Machine

def exec (i : Instr) (s : State) : Host.Outcome State Fault Refusal :=
  match i with
  | .init32 w vref => Sys2Proof.Machine.execInit32 w vref s
  | .init64 w vref => Sys2Proof.Machine.execInit64 w vref s
  | .vtoc32 x voltage => Sys2Proof.Machine.execVtoc32 x voltage s
  | .vtoc64 x voltage => Sys2Proof.Machine.execVtoc64 x voltage s
  | .sendcode32 x code => Sys2Proof.Machine.execSendcode32 x code s
  | .sendcode64 x hi code => Sys2Proof.Machine.execSendcode64 x hi code s
  | .setvoltage32 x voltage => Sys2Proof.Machine.execSetvoltage32 x voltage s
  | .setvoltage64 x voltage => Sys2Proof.Machine.execSetvoltage64 x voltage s
  | .frame24 data pad => Sys2Proof.Machine.execFrame24 data pad s
  | .frame16 data => Sys2Proof.Machine.execFrame16 data s

end Sys2Proof.Machine
end

