-- ==== Sys2Proof/Machine/Cut.lean ====
section
/-!
DEFINITION. A reset in the middle of a command (70_reset_and_hazards.md R151, 93_implementation_defined.md U18): the states a
running command passes through, one per event, and the reset of the one in which it is cut off (log 8).
-/

namespace Sys2Proof.Machine

/-- A running command after `k` of its events: `s` is its state before the first, and one state follows for each event. A command
with fewer events is in its last state, its response not yet given. -/
def momentAt (s : State) : List State → ℕ → State
  | [], _ => s
  | _ :: _, 0 => s
  | m :: later, k + 1 => momentAt m later k

/-- The states after the events of the latch pulse (41_transport.md R111). -/
def latchMoments (s : State) : List State := [hsStep4 s, hsStep5 (hsStep4 s), hsStep6 (hsStep5 (hsStep4 s))]

/-- The states after the events that follow step 3 (41_transport.md R111, R112). -/
def afterFrameMoments (a : Answer) (s : State) : List State :=
  match a with
  | .ok => latchMoments s
  | .fail => if Config.latchOnFail then latchMoments s else [hsRestore s]

/-- The states after the events of a handshake (41_transport.md R108); a transfer that is never answered ends in the one after step
1, where a reset alone frees the block (93_implementation_defined.md U11). -/
def sendMoments (bytes : List Byte) (s : State) : List State :=
  match (hsStep1 s).providerMove bytes with
  | .silent => [(hsStep1 s).dropRequest]
  | .answers a =>
      [hsStep1 s, hsStep2 bytes a (hsStep1 s), hsStep3 (hsStep2 bytes a (hsStep1 s))]
        ++ afterFrameMoments a (hsStep3 (hsStep2 bytes a (hsStep1 s)))

/-- INIT after `k` of its events (41_transport.md R100). -/
def initMoment (w : Width) (vref : FpBits) (k : ℕ) (s : State) : State :=
  if configValid vref then
    momentAt (s.setCfg vref w)
      [(s.setCfg vref w).setLevel .csN .high, ((s.setCfg vref w).setLevel .csN .high).setLevel .ldacN .high] k
  else s.setReady false

/-- SENDCODE after `k` of its events (41_transport.md R108, R116). -/
def sendcodeMoment (code : Code) (k : ℕ) (s : State) : State :=
  if s.ready then momentAt s (sendMoments (pack s.cfgWidth code) s) k else s

/-- VTOC has no events (40_quantizer.md R85). -/
def vtocMoment (v : FpBits) (s : State) : State :=
  match s.conversion v with
  | .error _ => s
  | .ok _ => s.converted v

/-- SETVOLTAGE after `k` of its events (41_transport.md R117). -/
def setvoltageMoment (v : FpBits) (k : ℕ) (s : State) : State :=
  match s.conversion v with
  | .error _ => s
  | .ok c => momentAt (s.converted v) (sendMoments (pack s.cfgWidth c) (s.converted v)) k

/-- The accepted command of the port of format `f` is cut off by a reset in the moment `m`. -/
def State.cutOnPort (s : State) (f : Fmt) (m : State → State) : Host.Outcome State Fault Refusal :=
  s.onPort f fun running => .next (m running).applyReset

/-- An instruction that a reset cuts off after `k` of its events (70_reset_and_hazards.md R151). The device has a frame row's frame,
if any, before the reset. -/
def execCut (k : ℕ) (i : Instr) (s : State) : Host.Outcome State Fault Refusal :=
  match i with
  | .init32 w vref => s.cutOnPort .binary32 (initMoment w (.b32 vref) k)
  | .init64 w vref => s.cutOnPort .binary64 (initMoment w (.b64 vref) k)
  | .vtoc32 _ voltage => s.cutOnPort .binary32 (vtocMoment (.b32 voltage))
  | .vtoc64 _ voltage => s.cutOnPort .binary64 (vtocMoment (.b64 voltage))
  | .sendcode32 _ code => s.cutOnPort .binary32 (sendcodeMoment code k)
  | .sendcode64 _ _ code => s.cutOnPort .binary64 (sendcodeMoment code k)
  | .setvoltage32 _ voltage => s.cutOnPort .binary32 (setvoltageMoment (.b32 voltage) k)
  | .setvoltage64 _ voltage => s.cutOnPort .binary64 (setvoltageMoment (.b64 voltage) k)
  | .frame24 data pad => .next (s.deviceReceives (bytes24 (data ++ pad))).applyReset
  | .frame16 data => .next (s.deviceReceives (bytes16 data)).applyReset

end Sys2Proof.Machine
end

