-- ==== Sys2Proof/Machine/Accept.lean ====
section
/-!
DEFINITION. What the machine does with what waits at its inward side: the command port accepts one word at a time while
`STATUS.BUSY = 0` (60_exceptions.md R142), a frame reaches the device, a reset resets, also in the middle of a command
(70_reset_and_hazards.md R150, R151).
-/

namespace Sys2Proof

/-- A frame on the serial bus, which is no word of the command port (30_encoding.md R56, R57). -/
def PortWord.isFrame (p : PortWord) : Bool := p.len = 2 || p.len = 3

/-- The same bit pattern in a register of the format `f`: unchanged where it is of that format already, else widened with zeros
or cut (log 17). -/
def FpBits.inFmt (f : Fmt) (b : FpBits) : FpBits :=
  match f, b with
  | .binary32, .b32 x => .b32 x
  | .binary32, .b64 x => .b32 (x.setWidth 32)
  | .binary64, .b32 x => .b64 (x.setWidth 64)
  | .binary64, .b64 x => .b64 x

namespace Machine

/-- The word is decoded and `run` says what its instruction does, or it is no word of the block. -/
def onWord (p : PortWord) (run : Instr → State → Host.Outcome State Fault Refusal) (s : State) : Host.Outcome State Fault Refusal :=
  match decode p with
  | .ok i => run i s
  | .error e => .refused (.noWord e)

/-- The word is a command at a port that accepts none, since one is running (60_exceptions.md R142). -/
def State.keepsWaiting (s : State) (p : PortWord) : Bool := s.busy && !p.isFrame

/-- One step: the first input is taken. With no input the block waits; a command presented while the block is busy waits
(60_exceptions.md R142; log 17), also for a reset that was to cut it off: the reset comes first, and the word waits on (log 8). -/
def takeInput (s : State) : Host.Outcome State Fault Refusal :=
  match s.inputs with
  | [] => .next s
  | .reset :: rest => .next { s with inputs := rest }.applyReset
  | .word p :: rest => if s.keepsWaiting p then .next s else onWord p exec { s with inputs := rest }
  | .cut p k :: rest =>
      if s.keepsWaiting p then .next { s with inputs := .word p :: rest }.applyReset
      else onWord p (execCut k) { s with inputs := rest }

/-- The state in which a command word of format `f` is accepted next: the block has the port of that format and is not busy. -/
def State.openPort (s : State) (f : Fmt) : State := { s with cfgVref := s.cfgVref.inFmt f, busy := false }

/-- The state in which a word of this length is taken next: a command word needs its port open, a frame needs nothing. -/
def State.readyFor (s : State) (p : PortWord) : State :=
  match p.len with
  | 5 => s.openPort .binary32
  | 9 => s.openPort .binary64
  | _ => s

/-- The word waits in front of all others. -/
def State.present (s : State) (p : PortWord) : State := { s with inputs := .word p :: s.inputs }

end Machine

end Sys2Proof
end

