-- ==== Sys2Proof/Machine/Step.lean ====
section
/-!
DEFINITION. One step of the machine, and a word placed where the next step takes it (log 17).
-/

namespace Sys2Proof.Machine

/-- One step: the block takes what waits first at its inward side (log 1, log 17). -/
def step (s : State) : Host.Outcome State Fault Refusal := takeInput s

/-- The state with an opcode-table word of `nbits` bits waiting, so that the next step takes and runs exactly it. A command word
of the other `FMT` needs a block of that `FMT`, and a block that is not busy (log 2, log 17). -/
def State.withFetchWord (s : State) (nbits w : ℕ) : State := (s.readyFor (tableWord nbits w)).present (tableWord nbits w)

end Sys2Proof.Machine
end

