-- ==== Sys2Proof/Safety.lean ====
section
/-!
DEFINITION. What counts as safe: the invariants of a command boundary (10_state.md R22, R29), the device in step with the block
(20_memory.md R40), and the order of the events in a trace (41_transport.md R113, R114; 70_reset_and_hazards.md R155, R156, R160).
-/

namespace Sys2Proof

/-- The magnitude `a` is the number of `f` with significand `m` and exponent `e` (40_quantizer.md R70), in the one form that has
the leading bit set or the least exponent; `m = 0` is zero. -/
structure Fmt.Represents (f : Fmt) (m : ℕ) (e : ℤ) (a : ℚ) : Prop where
  fits : m < 2 ^ f.precision.toNat
  lower : f.emin ≤ e
  upper : e ≤ f.emax
  value : a = m * pow2 (e - f.precision + 1)
  normal : 2 ^ (f.precision.toNat - 1) ≤ m ∨ e = f.emin

/-- The magnitude lies where rounding has the relative error of a normal number: zero, or neither below the least normal number
nor from the overflow bound on (40_quantizer.md R92, "no overflow or underflow"). -/
def Fmt.NormalRange (f : Fmt) (x : ℚ) : Prop := x = 0 ∨ (pow2 f.emin ≤ |x| ∧ |x| < f.overflowBound)

namespace Machine

/-- `HalfExact(fmt, vref)` (40_quantizer.md R89). -/
def HalfExact (f : Fmt) (vref : Fp) : Prop := Fp.add f (quantHalf f vref) (quantHalf f vref) = vref

/-- `TopExact(fmt, vref, w)` (40_quantizer.md R89). -/
def TopExact (f : Fmt) (vref : Fp) (w : Width) : Prop :=
  Fp.le (Fp.ofNat f w.maxCode) (Fp.div f (Fp.mul f vref (Fp.ofNat f w.maxCode)) vref) = true

/-- The invariants of a command boundary, (1) and (2) of 10_state.md R29; (3) holds by construction (R13). -/
structure State.Boundary (s : State) : Prop where
  notBusy : s.busy = false
  seqZero : s.seq = 0
  validCfg : s.ready = true → configValid s.cfgVref = true
  csIdle : s.ready = true → s.csN = .high
  ldacIdle : s.ready = true → s.ldacN = .high

/-- The device has seen both lines high: no frame and no latch pulse is open (20_memory.md R40). -/
abbrev Device.AtRest (d : Device) : Prop := d.cs = .high ∧ d.latch = .high

/-- A latch pulse that can still commit began with `CS_N` high, which has stayed so (20_memory.md R40, "with CS_N = 1 throughout"). -/
abbrev Device.PulseInOrder (d : Device) : Prop := d.latch = .fallen ∨ d.latch = .held → d.cs = .high

/-- The device stands between two handshakes while the block is ready (20_memory.md R40). -/
def State.InStep (s : State) : Prop := s.ready = true → s.dev.AtRest

/-- Where a trace stands in the handshake (41_transport.md R108, R112). -/
inductive Mon where
  /-- Between handshakes. -/
  | quiet
  /-- After `Pin(CS_N, 0)`. -/
  | selected
  /-- After the one `Xfer`. -/
  | sent (a : Answer)
  /-- After `Pin(CS_N, 1)` of a successful transfer. -/
  | raised
  /-- After `Pin(LDAC_N, 0)`. -/
  | latched
  /-- After the `Delay`. -/
  | timed
deriving DecidableEq, Repr

/-- The next event at this place, or none where the order is violated: a latch pulse only right after `Pin(CS_N, 1)`, one frame
in one chip-select period, a hold of at least the minimum (41_transport.md R113, R114). -/
def Mon.next (m : Mon) (e : Event) : Option Mon :=
  match m, e with
  | .quiet, .pin _ .high => some .quiet
  | .quiet, .pin .csN .low => some .selected
  | .selected, .xfer _ a => some (.sent a)
  | .sent .ok, .pin .csN .high => some .raised
  | .sent .fail, .pin .csN .high => some .quiet
  | .raised, .pin .ldacN .low => some .latched
  | .latched, .delay d => if Config.tLdpwMin ≤ d then some .timed else none
  | .timed, .pin .ldacN .high => some .quiet
  | _, _ => none

/-- A trace from a place on, or none where the order is violated. -/
def monitor : Mon → List Event → Option Mon
  | m, [] => some m
  | m, e :: es => (m.next e).bind fun m' => monitor m' es

/-- The trace is ordered and no handshake is open, from the last reset that cut a command off on: such a reset leaves the events of
an open handshake behind (70_reset_and_hazards.md R151). Without one that is the whole trace. -/
structure State.TraceOrdered (s : State) : Prop where
  cutInTrace : s.cutAt ≤ s.trace.length
  orderedSince : monitor .quiet (s.trace.drop s.cutAt) = some .quiet

/-- A safe state: everything the spec promises of a command boundary. -/
structure State.Safe (s : State) : Prop where
  boundary : s.Boundary
  inStep : s.InStep
  ordered : s.TraceOrdered

/-- The events of a successful handshake that sends `bytes` and holds the latch for `d` (41_transport.md R108). -/
def goodHandshake (bytes : List Byte) (d : ℕ) : List Event :=
  [.pin .csN .low, .xfer bytes .ok, .pin .csN .high, .pin .ldacN .low, .delay d, .pin .ldacN .high]

/-- The events of a handshake whose transfer failed (41_transport.md R112). -/
def failedHandshake (bytes : List Byte) : List Event :=
  [.pin .csN .low, .xfer bytes .fail, .pin .csN .high, .pin .ldacN .high]

/-- The device after a list of events, each with the number of its free values. -/
def Device.watch (d : Device) : List (ℕ × Event) → Device
  | [] => d
  | (n, e) :: rest => (d.observe n e).watch rest

/-- What a reset leaves, whenever it comes, `t` being the state after it: the block of 10_state.md R28, no response, and a device of
which nothing is known (70_reset_and_hazards.md R150, R151, 93_implementation_defined.md U18). -/
structure State.ResetTo (s t : State) : Prop where
  notReady : t.ready = false
  notBusy : t.busy = false
  seqZero : t.seq = 0
  sameFmt : t.fmt = s.fmt
  noResponse : t.responses = s.responses
  shiftUndefined : t.dev.shift.defined = false
  outUndefined : t.dev.out.defined = false

/-- The state at the next command boundary when the command only answered `r` and `code` (60_exceptions.md R134). -/
def State.answered (s : State) (r : Res) (code : Code) : State :=
  { s with busy := false, seq := 0, responses := s.responses ++ [{ res := r, code := code }] }

/-- The code of a voltage that is not NaN, as the response carries it (40_quantizer.md R85). -/
def State.codeFor (s : State) (v : FpBits) : Code := zextCode (quantize s.fmt s.cfgVref.value s.cfgWidth v.value)

/-- What the provider will do with the frame of the next handshake (20_memory.md R31). -/
def State.provider (s : State) (bytes : List Byte) : ProviderMove := (hsStep1 s).providerMove bytes

end Machine

/-- `INIT` in the form of the operand's format. -/
def Instr.initOf (w : Width) : FpBits → Instr
  | .b32 v => .init32 w v
  | .b64 v => .init64 w v

/-- `VTOC` in the form of the operand's format. -/
def Instr.vtocOf (x : BitVec 1) : FpBits → Instr
  | .b32 v => .vtoc32 x v
  | .b64 v => .vtoc64 x v

/-- `SENDCODE` in the form of a format. -/
def Instr.sendcodeOf (f : Fmt) (x : BitVec 1) (hi : BitVec 32) (c : Code) : Instr :=
  match f with
  | .binary32 => .sendcode32 x c
  | .binary64 => .sendcode64 x hi c

/-- `SETVOLTAGE` in the form of the operand's format. -/
def Instr.setvoltageOf (x : BitVec 1) : FpBits → Instr
  | .b32 v => .setvoltage32 x v
  | .b64 v => .setvoltage64 x v

/-- A command, not a frame (30_encoding.md R50). -/
def Instr.isCommand : Instr → Bool
  | .frame24 _ _ => false
  | .frame16 _ => false
  | .init32 _ _ => true
  | .init64 _ _ => true
  | .vtoc32 _ _ => true
  | .vtoc64 _ _ => true
  | .sendcode32 _ _ => true
  | .sendcode64 _ _ _ => true
  | .setvoltage32 _ _ => true
  | .setvoltage64 _ _ => true

/-- `INIT`, the one command that writes the configuration (41_transport.md R120). -/
def Instr.isInit : Instr → Bool
  | .init32 _ _ => true
  | .init64 _ _ => true
  | .frame24 _ _ => false
  | .frame16 _ => false
  | .vtoc32 _ _ => false
  | .vtoc64 _ _ => false
  | .sendcode32 _ _ => false
  | .sendcode64 _ _ _ => false
  | .setvoltage32 _ _ => false
  | .setvoltage64 _ _ => false

end Sys2Proof
end

