-- ==== Sys2Proof/Certificates/Slice0/Obligations.lean ====
section
/-!
DEFINITION. The statements for the provers, from the numbered rules of spec/.
-/

open Sys2Proof Sys2Proof.Machine

/-! ### Encodings -/

/-- Tier 3. Decoding the word of any instruction of any family gives the instruction back, at every operand value, ignored and
padding bits included (30_encoding.md R51, R56, R57, R60). -/
def Obligations.DecodeOfEncodeIsTheInstruction : Prop :=
  ∀ i : Instr, decode (encode i) = .ok i

/-- Tier 2. A word that decodes is the encoding of what it decodes to: the decoder drops no bit (30_encoding.md R51, R56, R57 for the
layouts). That is so by the model's choices, and no rule: `Instr` keeps the ignored and padding bits, so that two words of one meaning
are two terms (log 20; they run alike, IgnoredBitsChangeNothing), and a word with stray bits is refused (log 3). -/
def Obligations.EncodeOfDecodeIsTheWord : Prop :=
  ∀ (p : PortWord) (i : Instr), decode p = .ok i → encode i = p

/-- Tier 2. The decoder is total on the words of a format, and refuses every other raw word by name (30_encoding.md R60 to R62;
the refusal of stray bits is the model's, log 3). -/
def Obligations.ExactlyTheWordsOfAFormatDecode : Prop :=
  ∀ p : PortWord,
    ((∃ i, decode p = .ok i) ↔
      (p.len = 2 ∧ p.val < 2 ^ 16) ∨ (p.len = 3 ∧ p.val < 2 ^ 24) ∨ (p.len = 5 ∧ p.val < 2 ^ 35) ∨ (p.len = 9 ∧ p.val < 2 ^ 67))
    ∧ (decode p = .error .noSuchLength ↔ p.len ≠ 2 ∧ p.len ≠ 3 ∧ p.len ≠ 5 ∧ p.len ≠ 9)

/-- Tier 1. Words that the spec writes out (95_test_vectors.md 2.8, 2.5; 30_encoding.md R51, R56, R57) decode to the commands and
frames they stand for. -/
def Obligations.WordsOfTheSpecDecode : Prop :=
  decodeTableWord 35 0x14083126F = some (.init32 .w20 0x4083126F#32)
  ∧ decodeTableWord 35 0x040A00000 = some (.init32 .w16 0x40A00000#32)
  ∧ decodeTableWord 35 0x33F800000 = some (.vtoc32 1#1 0x3F800000#32)
  ∧ decodeTableWord 35 0x40001ABCD = some (.sendcode32 0#1 0x1ABCD#32)
  ∧ decodeTableWord 35 0x6BF800000 = some (.setvoltage32 0#1 0xBF800000#32)
  ∧ decodeTableWord 24 0x123450 = some (.frame24 0x12345#20 0#4)
  ∧ decodeTableWord 16 0xABCD = some (.frame16 0xABCD#16)

/-- Tier 1. The ignored bits of a command have no effect (30_encoding.md R60). -/
def Obligations.IgnoredBitsChangeNothing : Prop :=
  ∀ (s : State) (x x' : BitVec 1) (hi hi' : BitVec 32) (f : Fmt) (c : Code) (v : FpBits),
    exec (.vtocOf x v) s = exec (.vtocOf x' v) s
    ∧ exec (.sendcodeOf f x hi c) s = exec (.sendcodeOf f x' hi' c) s
    ∧ exec (.setvoltageOf x v) s = exec (.setvoltageOf x' v) s

/-- Tier 1. The fields of the response word, the numbers of the results, and that 5, 6 and 7 are never produced
(30_encoding.md R53, 60_exceptions.md R130). -/
def Obligations.ResponseWordHasTheResultAndTheCode : Prop :=
  (∀ r : Response, r.word.extractLsb' 32 3 = r.res.number ∧ r.word.extractLsb' 0 32 = r.code ∧ r.res.number.toNat < 5)
  ∧ Res.number .success = 0#3 ∧ Res.number .transferFailure = 1#3 ∧ Res.number .invalidConfiguration = 2#3
  ∧ Res.number .notReady = 3#3 ∧ Res.number .nanOperand = 4#3

/-! ### Floating-point arithmetic -/

/-- Tier 2. `round(x)` of an exact `x ≠ 0` (40_quantizer.md R71): an infinity with the sign of `x` exactly from half an ulp above
the largest finite number on; below it, a member `y` of the format (with the sign of `x`, also when it is zero) such that no
member is nearer to `x`, and whose significand is even when another member is equally near. -/
def Obligations.RoundIsNearestTiesToEven : Prop :=
  ∀ (f : Fmt) (x : ℚ), x ≠ 0 →
    (f.overflowBound ≤ |x| → Fp.round f x = .inf (decide (x < 0)))
    ∧ (|x| < f.overflowBound →
        ∃ (y : ℚ) (m : ℕ) (e : ℤ),
          (Fp.round f x = .fin y ∧ 0 < x * y ∨ Fp.round f x = .zero (decide (x < 0)) ∧ y = 0)
          ∧ f.Represents m e |y|
          ∧ ∀ (z : ℚ) (m' : ℕ) (e' : ℤ), f.Represents m' e' |z| →
              |x - y| ≤ |x - z| ∧ (|x - y| = |x - z| → z ≠ y → m % 2 = 0))

/-- Tier 2. The bit patterns of a format stand for exactly its value set: every finite value is a member, every member has a
pattern, and so have the zeros, the infinities and the NaNs (40_quantizer.md R70, 30_encoding.md R52). -/
def Obligations.BitPatternsAreTheFormat : Prop :=
  (∀ (b : FpBits) (x : ℚ), b.value = .fin x → x ≠ 0 ∧ ∃ m e, b.fmt.Represents m e |x|)
  ∧ (∀ (f : Fmt) (x : ℚ) (m : ℕ) (e : ℤ), x ≠ 0 → f.Represents m e |x| → ∃ b : FpBits, b.fmt = f ∧ b.value = .fin x)
  ∧ (∀ (f : Fmt) (neg : Bool), (∃ b : FpBits, b.fmt = f ∧ b.value = .zero neg) ∧ (∃ b : FpBits, b.fmt = f ∧ b.value = .inf neg))
  ∧ (∀ f : Fmt, ∃ b : FpBits, b.fmt = f ∧ b.value = .nan)

/-- Tier 1. `toF` of the integers the Quantizer uses is exact in both formats, with the binary32 patterns of the rule
(40_quantizer.md R74). -/
def Obligations.IntegerConstantsAreExact : Prop :=
  (∀ f : Fmt, Fp.ofNat f 65535 = .fin 65535 ∧ Fp.ofNat f 1048575 = .fin 1048575 ∧ Fp.ofNat f 2 = .fin 2)
  ∧ (∀ (f : Fmt) (n : ℕ), Fp.ofNat f n = Fp.round f n)
  ∧ (FpBits.b32 0x477FFF00#32).value = .fin 65535 ∧ (FpBits.b32 0x497FFFF0#32).value = .fin 1048575

/-- Tier 1. The ordered comparison (40_quantizer.md R75): false with a NaN, the zeros equal, the infinities outside every finite
number and either zero, an infinity below another only where it is `-∞` and the other `+∞`. -/
def Obligations.ComparisonIsOrdered : Prop :=
  (∀ a : Fp, Fp.lt .nan a = false ∧ Fp.lt a .nan = false)
  ∧ (∀ s t : Bool, Fp.lt (.zero s) (.zero t) = false)
  ∧ (∀ x : ℚ, Fp.lt (.inf true) (.fin x) = true ∧ Fp.lt (.fin x) (.inf false) = true ∧ Fp.lt (.fin x) (.inf true) = false
      ∧ Fp.lt (.inf false) (.fin x) = false)
  ∧ (∀ s : Bool, Fp.lt (.inf true) (.zero s) = true ∧ Fp.lt (.zero s) (.inf false) = true ∧ Fp.lt (.zero s) (.inf true) = false
      ∧ Fp.lt (.inf false) (.zero s) = false)
  ∧ (Fp.lt (.inf true) (.inf false) = true ∧ Fp.lt (.inf true) (.inf true) = false ∧ Fp.lt (.inf false) (.inf false) = false
      ∧ Fp.lt (.inf false) (.inf true) = false)
  ∧ (∀ x y : ℚ, Fp.lt (.fin x) (.fin y) = decide (x < y))
  ∧ (∀ (x : ℚ) (s : Bool), Fp.lt (.fin x) (.zero s) = decide (x < 0) ∧ Fp.lt (.zero s) (.fin x) = decide (0 < x))

/-- Tier 1. The three operations (40_quantizer.md R72): the cases of its table, and the rounded exact result for finite operands.
A finite operand is `.fin x` (other than zero, in a format) or `.zero s`. -/
def Obligations.OperationsFollowTheTable : Prop :=
  ∀ (f : Fmt) (a : Fp) (s t : Bool) (x y : ℚ),
    (Fp.add f .nan a = .nan ∧ Fp.add f a .nan = .nan ∧ Fp.mul f .nan a = .nan ∧ Fp.mul f a .nan = .nan
      ∧ Fp.div f .nan a = .nan ∧ Fp.div f a .nan = .nan)
    ∧ (Fp.add f (.inf s) (.fin x) = .inf s ∧ Fp.add f (.fin x) (.inf s) = .inf s ∧ Fp.add f (.inf s) (.zero t) = .inf s
      ∧ Fp.add f (.zero t) (.inf s) = .inf s ∧ Fp.add f (.inf s) (.inf s) = .inf s ∧ Fp.add f (.inf s) (.inf (!s)) = .nan)
    ∧ (x + y = 0 → Fp.add f (.fin x) (.fin y) = .zero false)
    ∧ (Fp.add f (.zero s) (.zero t) = .zero (s && t) ∧ Fp.add f (.zero s) (.fin x) = .round f x
      ∧ Fp.add f (.fin x) (.zero s) = .round f x)
    ∧ (Fp.add f (.fin x) (.fin y) = .round f (x + y) ∧ Fp.mul f (.fin x) (.fin y) = .round f (x * y)
      ∧ Fp.div f (.fin x) (.fin y) = .round f (x / y))
    ∧ (Fp.mul f (.inf s) (.fin x) = .inf (s ^^ decide (x < 0)) ∧ Fp.mul f (.fin x) (.inf s) = .inf (decide (x < 0) ^^ s)
      ∧ Fp.mul f (.inf s) (.inf t) = .inf (s ^^ t) ∧ Fp.mul f (.inf s) (.zero t) = .nan ∧ Fp.mul f (.zero t) (.inf s) = .nan
      ∧ Fp.mul f (.zero s) (.fin x) = .zero (s ^^ decide (x < 0)) ∧ Fp.mul f (.fin x) (.zero s) = .zero (decide (x < 0) ^^ s)
      ∧ Fp.mul f (.zero s) (.zero t) = .zero (s ^^ t))
    ∧ (Fp.div f (.inf s) (.fin x) = .inf (s ^^ decide (x < 0)) ∧ Fp.div f (.inf s) (.inf t) = .nan
      ∧ Fp.div f (.zero s) (.zero t) = .nan ∧ Fp.div f (.fin x) (.inf s) = .zero (decide (x < 0) ^^ s)
      ∧ Fp.div f (.zero s) (.inf t) = .zero (s ^^ t) ∧ Fp.div f (.zero s) (.fin x) = .zero (s ^^ decide (x < 0))
      ∧ Fp.div f (.fin x) (.zero s) = .inf (decide (x < 0) ^^ s))

/-! ### The Quantizer -/

/-- Tier 2. The range law (40_quantizer.md R87): for every format, finite `vref > 0`, width and voltage that is not NaN, the code
is at most `2^w - 1` (and at least 0, being a natural number). -/
def Obligations.QuantizeStaysInRange : Prop :=
  ∀ (vref v : FpBits) (w : Width), v.fmt = vref.fmt → configValid vref = true → v.value.isNan = false →
    quantize vref.fmt vref.value w v.value ≤ 2 ^ w.bits - 1

/-- Tier 2. The lower boundary law (40_quantizer.md R88): code 0 at `-half`, and at every voltage not above it, `-∞` included. -/
def Obligations.QuantizeIsZeroFromMinusHalfDown : Prop :=
  ∀ (vref : FpBits) (w : Width), configValid vref = true →
    quantize vref.fmt vref.value w (quantHalf vref.fmt vref.value).neg = 0
    ∧ ∀ v : FpBits, v.fmt = vref.fmt → Fp.le v.value (quantHalf vref.fmt vref.value).neg = true →
        quantize vref.fmt vref.value w v.value = 0

/-- Tier 2. The upper boundary law (40_quantizer.md R89): under `HalfExact` and `TopExact` every voltage from `half` on gives
`MAXCODE`; under `HalfExact` without `TopExact` the code at `half` is `MAXCODE - 1`. -/
def Obligations.QuantizeAtPlusHalf : Prop :=
  ∀ (vref : FpBits) (w : Width), configValid vref = true → HalfExact vref.fmt vref.value →
    (TopExact vref.fmt vref.value w →
      ∀ v : FpBits, v.fmt = vref.fmt → Fp.le (quantHalf vref.fmt vref.value) v.value = true →
        quantize vref.fmt vref.value w v.value = w.maxCode)
    ∧ (¬ TopExact vref.fmt vref.value w →
        quantize vref.fmt vref.value w (quantHalf vref.fmt vref.value) = w.maxCode - 1)

/-- Tier 2. Where `HalfExact` holds, in both formats (40_quantizer.md R89): for every `vref ≥ 2^(emin + 1)`, and below it exactly for
the patterns whose last bit is 0. -/
def Obligations.HalfIsExactUnlessTheLastBitIsLost : Prop :=
  (∀ b : BitVec 32, configValid (.b32 b) = true →
    (HalfExact .binary32 (FpBits.b32 b).value ↔ 0x01000000 ≤ b.toNat ∨ b.toNat % 2 = 0))
  ∧ (∀ b : BitVec 64, configValid (.b64 b) = true →
    (HalfExact .binary64 (FpBits.b64 b).value ↔ 0x0020000000000000 ≤ b.toNat ∨ b.toNat % 2 = 0))

/-- Tier 2. Monotonicity (40_quantizer.md R90): same format, `vref` and width, voltages in order. -/
def Obligations.QuantizeIsMonotone : Prop :=
  ∀ (vref v1 v2 : FpBits) (w : Width), v1.fmt = vref.fmt → v2.fmt = vref.fmt → configValid vref = true →
    Fp.le v1.value v2.value = true →
    quantize vref.fmt vref.value w v1.value ≤ quantize vref.fmt vref.value w v2.value

/-- Tier 2. Infinite and huge voltages (40_quantizer.md R82): `+∞` gives `+∞` at every step and the code `MAXCODE`, `-∞` gives
`-∞` and 0; an overflow of `shifted` or `prod` gives the same codes; `half` is finite and not below zero, no intermediate is NaN
unless the voltage is, and there is always a code of the width. -/
def Obligations.InfiniteVoltagesSaturate : Prop :=
  ∀ (vref v : FpBits) (w : Width), v.fmt = vref.fmt → configValid vref = true → v.value.isNan = false →
    let half := quantHalf vref.fmt vref.value
    let shifted := quantShifted vref.fmt vref.value v.value
    let prod := quantProd vref.fmt vref.value w v.value
    let raw := quantRaw vref.fmt vref.value w v.value
    let code := quantize vref.fmt vref.value w v.value
    code ≤ w.maxCode
    ∧ Fp.le (.zero false) half = true ∧ half ≠ .inf false
    ∧ shifted.isNan = false ∧ prod.isNan = false ∧ raw.isNan = false
    ∧ (∀ neg, v.value = .inf neg → shifted = .inf neg ∧ prod = .inf neg ∧ raw = .inf neg)
    ∧ (v.value = .inf false ∨ shifted = .inf false ∨ prod = .inf false → code = w.maxCode)
    ∧ (v.value = .inf true ∨ shifted = .inf true ∨ prod = .inf true → code = 0)

/-- Tier 2. The laws of the ideal quantizer over the reals (40_quantizer.md R91). -/
def Obligations.IdealQuantizerLaws : Prop :=
  ∀ (vref : ℝ) (w : Width), 0 < vref →
    quantizeReal vref w (-(vref / 2)) = 0
    ∧ quantizeReal vref w (vref / 2) = w.maxCode
    ∧ quantizeReal vref w 0 = 2 ^ (w.bits - 1) - 1
    ∧ (∀ v : ℝ, vref / 2 ≤ v → quantizeReal vref w v = w.maxCode)
    ∧ (∀ v : ℝ, v ≤ -(vref / 2) → quantizeReal vref w v = 0)
    ∧ (∀ v1 v2 : ℝ, v1 ≤ v2 → quantizeReal vref w v1 ≤ quantizeReal vref w v2)

/-- Tier 2. The distance from the ideal (40_quantizer.md R92): with no overflow or underflow in the four operations, the block's
code and the ideal one at the same values differ by at most 1. `q` is the voltage as a number: 0 for either zero. -/
def Obligations.QuantizeIsNearTheIdeal : Prop :=
  ∀ (vref v : FpBits) (w : Width) (r q h p : ℚ), v.fmt = vref.fmt →
    vref.value = .fin r → 0 < r → (v.value = .fin q ∨ (∃ neg, v.value = .zero neg) ∧ q = 0) →
    vref.fmt.NormalRange (r / 2) → quantHalf vref.fmt vref.value = .fin h →
    vref.fmt.NormalRange (q + h) →
    (quantShifted vref.fmt vref.value v.value = .fin p ∨ (∃ neg, quantShifted vref.fmt vref.value v.value = .zero neg) ∧ p = 0) →
    vref.fmt.NormalRange (p * w.maxCode) →
    (∀ g : ℚ, quantProd vref.fmt vref.value w v.value = .fin g → vref.fmt.NormalRange (g / r)) →
    |(quantize vref.fmt vref.value w v.value : ℤ) - quantizeReal r w q| ≤ 1

/-! ### The packer -/

/-- Tier 2. The round trip of packing (41_transport.md R107, 30_encoding.md R65): for every 32-bit code, unpacking the frame gives
the code modulo `2^w`; a code within the width is recovered exactly. -/
def Obligations.UnpackOfPackIsTheCode : Prop :=
  ∀ (w : Width) (c : Code),
    unpack (pack w c) = some (BitVec.ofNat 20 (c.toNat % 2 ^ w.bits))
    ∧ (c.toNat ≤ w.maxCode → (unpack (pack w c)).map BitVec.toNat = some c.toNat)

/-- Tier 2. The packer truncates (41_transport.md R104, R105): the frame is that of the code modulo `2^w`, of `NBYTES` bytes. -/
def Obligations.PackTruncatesToTheWidth : Prop :=
  ∀ (w : Width) (c : Code),
    pack w c = pack w (BitVec.ofNat 32 (c.toNat % 2 ^ w.bits)) ∧ (pack w c).length = w.nbytes

/-- Tier 2. The bytes of the frames, most significant first, with zeros in the padding (30_encoding.md R56, R57, R58). -/
def Obligations.FrameBytesAreTheSlicesOfTheCode : Prop :=
  ∀ c : Code,
    pack .w20 c = [c.extractLsb' 12 8, c.extractLsb' 4 8, c.extractLsb' 0 4 ++ 0#4]
    ∧ pack .w16 c = [c.extractLsb' 8 8, c.extractLsb' 0 8]

/-! ### The commands -/

/-- Tier 2. VTOC in both forms, in every state of its format (40_quantizer.md R85): `NotReady` in a block that is not ready, else
`NaNOperand` for a NaN, else `Success` with the code; nothing else changes, no event. -/
def Obligations.VtocAnswersTheCode : Prop :=
  ∀ (s : State) (x : BitVec 1) (v : FpBits), v.fmt = s.fmt →
    exec (.vtocOf x v) s = .next
      (if s.ready = false then s.answered .notReady 0
       else if v.value.isNan = true then s.answered .nanOperand 0
       else s.answered .success (s.codeFor v))

/-- Tier 1. Purity of VTOC (40_quantizer.md R85): blocks with the same configuration and READY give the same response. -/
def Obligations.VtocDependsOnTheConfigurationOnly : Prop :=
  ∀ (s s' : State) (x : BitVec 1) (v : FpBits), v.fmt = s.fmt → s'.cfgVref = s.cfgVref → s'.cfgWidth = s.cfgWidth →
    s'.ready = s.ready →
    ∃ r : Response, exec (.vtocOf x v) s = .next (s.answered r.res r.code) ∧ exec (.vtocOf x v) s' = .next (s'.answered r.res r.code)

/-- Tier 2. INIT in both forms, in every state of its format (41_transport.md R100): a valid configuration is loaded, both lines
are idled, chip-select first, and the block is ready; an invalid one only clears READY. A device in step, both lines high already,
keeps `DEV_SHIFT` and `DEV_OUT` (20_memory.md R41). -/
def Obligations.InitLoadsTheConfiguration : Prop :=
  ∀ (s : State) (w : Width) (v : FpBits), v.fmt = s.fmt →
    (configValid v = true →
      ∃ t, exec (.initOf w v) s = .next t
        ∧ t = { s with
            cfgVref := v, cfgWidth := w, ready := true, busy := false, seq := 0, csN := .high, ldacN := .high, dev := t.dev
            trace := s.trace ++ [.pin .csN .high, .pin .ldacN .high]
            responses := s.responses ++ [{ res := .success, code := 0 }]
            draws := s.draws + 2 }
        ∧ (s.dev.AtRest → t.dev = s.dev))
    ∧ (configValid v = false →
        exec (.initOf w v) s = .next ({ s with ready := false }.answered .invalidConfiguration 0))

/-- Tier 2. `ConfigValid` on the bit patterns (41_transport.md R101): exactly the patterns of the positive finite numbers. -/
def Obligations.ConfigValidIsPositiveAndFinite : Prop :=
  (∀ b : BitVec 32, configValid (.b32 b) = true ↔ 0 < b.toNat ∧ b.toNat < 0x7F800000)
  ∧ (∀ b : BitVec 64, configValid (.b64 b) = true ↔ 0 < b.toNat ∧ b.toNat < 0x7FF0000000000000)

/-- Tier 2. SENDCODE in both forms, in every state (41_transport.md R108, R112, R116): not ready, it only answers `NotReady`; when
the provider answers `ok`, the six events with the packed code and a hold of at least the minimum, and `Success`; when it answers
`fail`, the four events, no latch pulse, and `TransferFailure`. Both lines end idle and nothing else of the block changes. -/
def Obligations.SendcodeRunsTheHandshake : Prop :=
  ∀ (s : State) (x : BitVec 1) (hi : BitVec 32) (c : Code),
    (s.ready = false → exec (.sendcodeOf s.fmt x hi c) s = .next (s.answered .notReady 0))
    ∧ (s.ready = true → s.provider (pack s.cfgWidth c) = .answers .ok →
        ∃ t d, exec (.sendcodeOf s.fmt x hi c) s = .next t ∧ Config.tLdpwMin ≤ d
          ∧ t = { s with
              busy := false, seq := 0, csN := .high, ldacN := .high, dev := t.dev, answers := s.answers.tail, holds := s.holds.tail
              trace := s.trace ++ goodHandshake (pack s.cfgWidth c) d
              responses := s.responses ++ [{ res := .success, code := 0 }]
              draws := s.draws + 6 })
    ∧ (s.ready = true → s.provider (pack s.cfgWidth c) = .answers .fail →
        ∃ t, exec (.sendcodeOf s.fmt x hi c) s = .next t
          ∧ t = { s with
              busy := false, seq := 0, csN := .high, ldacN := .high, dev := t.dev, answers := s.answers.tail
              trace := s.trace ++ failedHandshake (pack s.cfgWidth c)
              responses := s.responses ++ [{ res := .transferFailure, code := 0 }]
              draws := s.draws + 4 })

/-- Tier 2. The trace law (41_transport.md R114): over all answers and hold times, the traces of one SENDCODE from a ready state
are exactly the six-element list for each duration from the minimum on, and the four-element list. -/
def Obligations.TracesOfSendcodeAreExactlyTwoShapes : Prop :=
  ∀ (s : State) (x : BitVec 1) (hi : BitVec 32) (c : Code) (es : List Event), s.ready = true →
    ((∃ answers holds t, exec (.sendcodeOf s.fmt x hi c) { s with answers := answers, holds := holds } = .next t
        ∧ t.trace = s.trace ++ es) ↔
      es = failedHandshake (pack s.cfgWidth c)
      ∨ ∃ d, Config.tLdpwMin ≤ d ∧ es = goodHandshake (pack s.cfgWidth c) d)

/-- Tier 2. SETVOLTAGE in both forms in a ready block, for a voltage that is not NaN (41_transport.md R117): the handshake with
the packed code, and the response carries the code under `Success` and under `TransferFailure`. -/
def Obligations.SetvoltageSendsTheCode : Prop :=
  ∀ (s : State) (x : BitVec 1) (v : FpBits), v.fmt = s.fmt → s.ready = true → v.value.isNan = false →
    (s.provider (pack s.cfgWidth (s.codeFor v)) = .answers .ok →
      ∃ t d, exec (.setvoltageOf x v) s = .next t ∧ Config.tLdpwMin ≤ d
        ∧ t = { s with
            busy := false, seq := 0, csN := .high, ldacN := .high, dev := t.dev, answers := s.answers.tail, holds := s.holds.tail
            trace := s.trace ++ goodHandshake (pack s.cfgWidth (s.codeFor v)) d
            responses := s.responses ++ [{ res := .success, code := s.codeFor v }]
            draws := s.draws + 6 })
    ∧ (s.provider (pack s.cfgWidth (s.codeFor v)) = .answers .fail →
        ∃ t, exec (.setvoltageOf x v) s = .next t
          ∧ t = { s with
              busy := false, seq := 0, csN := .high, ldacN := .high, dev := t.dev, answers := s.answers.tail
              trace := s.trace ++ failedHandshake (pack s.cfgWidth (s.codeFor v))
              responses := s.responses ++ [{ res := .transferFailure, code := s.codeFor v }]
              draws := s.draws + 4 })

/-- Tier 2. The law of SETVOLTAGE (41_transport.md R117, 30_encoding.md R64): from a ready state, VTOC and then SENDCODE of the
code it returned leave the same state and the same trace as SETVOLTAGE, all but the responses; and the code fits the width. -/
def Obligations.SetvoltageIsVtocThenSendcode : Prop :=
  ∀ (s : State) (x : BitVec 1) (hi : BitVec 32) (v : FpBits), v.fmt = s.fmt → s.ready = true → configValid s.cfgVref = true →
    v.value.isNan = false →
    ∃ t, exec (.vtocOf x v) s = .next t
      ∧ t.responses = s.responses ++ [{ res := .success, code := s.codeFor v }]
      ∧ (s.codeFor v).toNat ≤ s.cfgWidth.maxCode
      ∧ (∀ u, exec (.setvoltageOf x v) s = .next u →
          ∃ u', exec (.sendcodeOf s.fmt x hi (s.codeFor v)) t = .next u' ∧ u' = { u with responses := u'.responses })
      ∧ (∀ u', exec (.sendcodeOf s.fmt x hi (s.codeFor v)) t = .next u' → ∃ u, exec (.setvoltageOf x v) s = .next u)

/-- Tier 2. Before a successful INIT the other six commands answer `NotReady`, append no event and change no state
(41_transport.md R116, 60_exceptions.md R136). -/
def Obligations.NotReadyBlocksOnlyAnswer : Prop :=
  ∀ (s : State) (x : BitVec 1) (hi : BitVec 32) (c : Code) (v : FpBits), s.ready = false → v.fmt = s.fmt →
    exec (.vtocOf x v) s = .next (s.answered .notReady 0)
    ∧ exec (.sendcodeOf s.fmt x hi c) s = .next (s.answered .notReady 0)
    ∧ exec (.setvoltageOf x v) s = .next (s.answered .notReady 0)

/-- Tier 2. The order of the errors (60_exceptions.md R138): `NotReady`, then `NaNOperand`, then `TransferFailure`, whatever the
later conditions are; INIT reports `InvalidConfiguration` only. -/
def Obligations.FirstErrorIsReported : Prop :=
  ∀ (s : State) (x : BitVec 1) (hi : BitVec 32) (c : Code) (w : Width) (v : FpBits), v.fmt = s.fmt →
    (s.ready = false →
      exec (.vtocOf x v) s = .next (s.answered .notReady 0) ∧ exec (.setvoltageOf x v) s = .next (s.answered .notReady 0)
      ∧ exec (.sendcodeOf s.fmt x hi c) s = .next (s.answered .notReady 0))
    ∧ (s.ready = true → v.value.isNan = true →
        exec (.vtocOf x v) s = .next (s.answered .nanOperand 0) ∧ exec (.setvoltageOf x v) s = .next (s.answered .nanOperand 0))
    ∧ (s.ready = true → v.value.isNan = false → s.provider (pack s.cfgWidth (s.codeFor v)) = .answers .fail →
        ∃ t, exec (.setvoltageOf x v) s = .next t
          ∧ t.responses = s.responses ++ [{ res := .transferFailure, code := s.codeFor v }])
    ∧ (s.ready = true → s.provider (pack s.cfgWidth c) = .answers .fail →
        ∃ t, exec (.sendcodeOf s.fmt x hi c) s = .next t ∧ t.responses = s.responses ++ [{ res := .transferFailure, code := 0 }])
    ∧ (∀ t, exec (.initOf w v) s = .next t →
        t.responses = s.responses ++ [{ res := .success, code := 0 }]
        ∨ t.responses = s.responses ++ [{ res := .invalidConfiguration, code := 0 }])

/-- Tier 2. Every command that completes gives exactly one response, of the results 60_exceptions.md R130 lists for it, with code
0 but for a VTOC that succeeds and a SETVOLTAGE that sent (10_state.md R20). -/
def Obligations.EveryCommandAnswersOnce : Prop :=
  ∀ (i : Instr) (s t : State), i.isCommand = true → exec i s = .next t →
    ∃ r : Response, t.responses = s.responses ++ [r]
      ∧ (r.res = .invalidConfiguration ∨ r.res = .notReady ∨ r.res = .nanOperand → r.code = 0)
      ∧ (∀ w v, i = .initOf w v → (r.res = .success ∨ r.res = .invalidConfiguration) ∧ r.code = 0)
      ∧ (∀ x v, i = .vtocOf x v → r.res = .success ∨ r.res = .notReady ∨ r.res = .nanOperand)
      ∧ (∀ f x hi c, i = .sendcodeOf f x hi c →
          (r.res = .success ∨ r.res = .transferFailure ∨ r.res = .notReady) ∧ r.code = 0)
      ∧ (∀ x v, i = .setvoltageOf x v →
          r.res = .success ∨ r.res = .transferFailure ∨ r.res = .notReady ∨ r.res = .nanOperand)

/-- Tier 2. A failed INIT locks the block until a valid one (60_exceptions.md R135, 41_transport.md R103): the old configuration
stays stored, nothing is driven, every other command answers `NotReady`, and a later valid INIT makes the block ready. -/
def Obligations.FailedInitLocksUntilAValidOne : Prop :=
  ∀ (s : State) (w : Width) (v : FpBits), v.fmt = s.fmt → configValid v = false →
    ∃ t, exec (.initOf w v) s = .next t ∧ t.ready = false ∧ t.cfgVref = s.cfgVref ∧ t.cfgWidth = s.cfgWidth
      ∧ t.trace = s.trace ∧ t.csN = s.csN ∧ t.ldacN = s.ldacN ∧ t.dev = s.dev
      ∧ (∀ (x : BitVec 1) (hi : BitVec 32) (c : Code) (v' : FpBits), v'.fmt = s.fmt →
          exec (.vtocOf x v') t = .next (t.answered .notReady 0)
          ∧ exec (.sendcodeOf s.fmt x hi c) t = .next (t.answered .notReady 0)
          ∧ exec (.setvoltageOf x v') t = .next (t.answered .notReady 0))
      ∧ (∀ (w' : Width) (v' : FpBits), v'.fmt = s.fmt → configValid v' = true →
          ∃ u, exec (.initOf w' v') t = .next u ∧ u.ready = true ∧ u.cfgVref = v' ∧ u.cfgWidth = w')

/-- Tier 2. A new configuration is used by every later command (20_memory.md R48, 30_encoding.md R55): after a valid INIT the frame
has the new width's format and the code is that of the new configuration. -/
def Obligations.NewConfigurationIsUsedNext : Prop :=
  ∀ (s : State) (w : Width) (v : FpBits), v.fmt = s.fmt → configValid v = true →
    ∃ t, exec (.initOf w v) s = .next t
      ∧ (∀ (x : BitVec 1) (hi : BitVec 32) (c : Code), t.provider (pack w c) = .answers .ok →
          ∃ u d, exec (.sendcodeOf s.fmt x hi c) t = .next u ∧ u.trace = t.trace ++ goodHandshake (pack w c) d)
      ∧ (∀ (x : BitVec 1) (v' : FpBits), v'.fmt = s.fmt → v'.value.isNan = false →
          exec (.vtocOf x v') t = .next (t.answered .success (zextCode (quantize s.fmt v.value w v'.value))))

/-- Tier 2. A retry after a failed transfer pulses the latch once in all (60_exceptions.md R141, 70_reset_and_hazards.md R159). -/
def Obligations.RetryPulsesTheLatchOnce : Prop :=
  ∀ (s : State) (x : BitVec 1) (hi : BitVec 32) (c : Code), s.ready = true → s.provider (pack s.cfgWidth c) = .answers .fail →
    ∃ t, exec (.sendcodeOf s.fmt x hi c) s = .next t
      ∧ (t.provider (pack s.cfgWidth c) = .answers .ok →
          ∃ u es, exec (.sendcodeOf s.fmt x hi c) t = .next u ∧ u.trace = s.trace ++ es
            ∧ es.count (.pin .ldacN .low) = 1)

/-- Tier 1. A provider that never answers, which its contract excludes, leaves the block stuck: SENDCODE and SETVOLTAGE stop
(93_implementation_defined.md U11; the named fault is the model's, log 9). -/
def Obligations.SilentProviderStopsTheBlock : Prop :=
  ∀ (s : State) (x : BitVec 1) (hi : BitVec 32) (c : Code) (v : FpBits), s.ready = true →
    (s.provider (pack s.cfgWidth c) = .silent → exec (.sendcodeOf s.fmt x hi c) s = .fault .transferNeverAnswers)
    ∧ (v.fmt = s.fmt → v.value.isNan = false → s.provider (pack s.cfgWidth (s.codeFor v)) = .silent →
        exec (.setvoltageOf x v) s = .fault .transferNeverAnswers)

/-- Tier 1. A command word of the format the block does not have is no command of it (30_encoding.md R51, R62; the named refusal
is the model's, log 2). -/
def Obligations.ForeignFormatIsRefused : Prop :=
  ∀ (s : State) (x : BitVec 1) (hi : BitVec 32) (c : Code) (w : Width) (v : FpBits) (f : Fmt), v.fmt ≠ s.fmt → f ≠ s.fmt →
    exec (.initOf w v) s = .refused .foreignFormat ∧ exec (.vtocOf x v) s = .refused .foreignFormat
    ∧ exec (.sendcodeOf f x hi c) s = .refused .foreignFormat ∧ exec (.setvoltageOf x v) s = .refused .foreignFormat

/-- Tier 2. Only INIT writes the configuration and READY (10_state.md R14): every other instruction leaves them, whatever its
result. -/
def Obligations.OnlyInitWritesTheConfiguration : Prop :=
  ∀ (i : Instr) (s t : State), i.isInit = false → exec i s = .next t →
    t.cfgVref = s.cfgVref ∧ t.cfgWidth = s.cfgWidth ∧ t.ready = s.ready

/-- Tier 2. After any command from a ready boundary state both lines are high (10_state.md R22). -/
def Obligations.LinesAreIdleAfterEveryCommand : Prop :=
  ∀ (i : Instr) (s t : State), s.Boundary → s.ready = true → i.isCommand = true → exec i s = .next t →
    t.csN = .high ∧ t.ldacN = .high

/-! ### The sequencer and the device -/

/-- Tier 2. The positions of the handshake with the pins of 10_state.md R18's table, along the successful and the failure path, and
that SENDCODE runs through exactly these positions (`a` the provider's answer). -/
def Obligations.SequencePositionsAndPins : Prop :=
  ∀ (s : State) (bytes : List Byte) (x : BitVec 1) (hi : BitVec 32) (c : Code), s.ldacN = .high →
    (let s1 := hsStep1 s
     let s2 := fun a => hsStep2 bytes a s1
     let s3 := fun a => hsStep3 (s2 a)
     let s4 := hsStep4 (s3 .ok)
     let s5 := hsStep5 s4
     let s6 := hsStep6 s5
     (s1.seq, s1.csN, s1.ldacN) = (1, .low, .high)
     ∧ (∀ a, ((s2 a).seq, (s2 a).csN, (s2 a).ldacN) = (2, .low, .high))
     ∧ (∀ a, ((s3 a).seq, (s3 a).csN, (s3 a).ldacN) = (3, .high, .high))
     ∧ (s4.seq, s4.csN, s4.ldacN) = (4, .high, .low)
     ∧ (s5.seq, s5.csN, s5.ldacN) = (5, .high, .low)
     ∧ (s6.seq, s6.csN, s6.ldacN) = (6, .high, .high)
     ∧ ((hsRestore (s3 .fail)).seq, (hsRestore (s3 .fail)).csN, (hsRestore (s3 .fail)).ldacN) = (3, .high, .high))
    ∧ (s.ready = true → s.provider (pack s.cfgWidth c) = .answers .ok →
        exec (.sendcodeOf s.fmt x hi c) s = .next
          ((hsStep6 (hsStep5 (hsStep4 (hsStep3 (hsStep2 (pack s.cfgWidth c) .ok (hsStep1 s.accept)))))).respond .success 0))
    ∧ (s.ready = true → s.provider (pack s.cfgWidth c) = .answers .fail →
        exec (.sendcodeOf s.fmt x hi c) s = .next
          ((hsRestore (hsStep3 (hsStep2 (pack s.cfgWidth c) .fail (hsStep1 s.accept)))).respond .transferFailure 0))

/-- Tier 2. What the device holds after a successful SENDCODE or SETVOLTAGE that began with the device in step (20_memory.md R40):
the frame in `DEV_SHIFT`, the code modulo `2^w` in `DEV_OUT`. -/
def Obligations.HandshakeCommitsTheCode : Prop :=
  ∀ (s : State) (x : BitVec 1) (hi : BitVec 32) (c : Code) (v : FpBits), s.ready = true → s.dev.AtRest →
    (s.provider (pack s.cfgWidth c) = .answers .ok →
      ∃ t, exec (.sendcodeOf s.fmt x hi c) s = .next t
        ∧ t.dev = { cs := .high, latch := .high, fresh := true, shift := .known (pack s.cfgWidth c)
                    out := .known (BitVec.ofNat 20 (c.toNat % 2 ^ s.cfgWidth.bits)) })
    ∧ (v.fmt = s.fmt → v.value.isNan = false → configValid s.cfgVref = true →
        s.provider (pack s.cfgWidth (s.codeFor v)) = .answers .ok →
        ∃ t, exec (.setvoltageOf x v) s = .next t
          ∧ t.dev = { cs := .high, latch := .high, fresh := true, shift := .known (pack s.cfgWidth (s.codeFor v))
                      out := .known (BitVec.ofNat 20 (quantize s.fmt s.cfgVref.value s.cfgWidth v.value)) })

/-- Tier 2. After a failed transfer of SENDCODE or SETVOLTAGE that began with the device in step the frame the device holds is undefined and its committed code is as before
(20_memory.md R40, 93_implementation_defined.md U6). -/
def Obligations.FailedTransferKeepsTheCommittedCode : Prop :=
  ∀ (s : State) (x : BitVec 1) (hi : BitVec 32) (c : Code) (v : FpBits), s.ready = true → s.dev.AtRest →
    (s.provider (pack s.cfgWidth c) = .answers .fail →
      ∃ t, exec (.sendcodeOf s.fmt x hi c) s = .next t
        ∧ t.dev.AtRest ∧ t.dev.shift.defined = false ∧ t.dev.out = s.dev.out)
    ∧ (v.fmt = s.fmt → v.value.isNan = false → s.provider (pack s.cfgWidth (s.codeFor v)) = .answers .fail →
        ∃ t, exec (.setvoltageOf x v) s = .next t
          ∧ t.dev.AtRest ∧ t.dev.shift.defined = false ∧ t.dev.out = s.dev.out)

/-- Tier 2. The two frame rows (30_encoding.md R56, R57, R58, R65; 20_memory.md R40; that a frame alone is what the device takes
is the model's, log 4): in every state the device alone changes; a device that is not selected, also one of which nothing is known,
takes the bytes into `DEV_SHIFT`, whose data bits unpack to the frame's data whatever the padding is; `DEV_OUT` stays, but where the
latch line is low during the frame it is undefined. That the rule's first line holds from a line not seen yet, and the places of the
device, are the model's reading (log 5). -/
def Obligations.FramesReachTheDevice : Prop :=
  (∀ (s : State) (data : BitVec 20) (pad : BitVec 4),
    ∃ t, exec (.frame24 data pad) s = .next t ∧ t = { s with dev := t.dev, draws := s.draws + 1 }
      ∧ (s.dev.cs = .high ∨ s.dev.cs = .unknown →
          t.dev.cs = .high ∧ t.dev.shift = .known [data.extractLsb' 12 8, data.extractLsb' 4 8, data.extractLsb' 0 4 ++ pad]
          ∧ (s.dev.latch = .high ∨ s.dev.latch = .unknown → t.dev.latch = s.dev.latch ∧ t.dev.out = s.dev.out)
          ∧ (s.dev.latch = .fallen ∨ s.dev.latch = .held ∨ s.dev.latch = .spent → t.dev.out.defined = false))
      ∧ unpack [data.extractLsb' 12 8, data.extractLsb' 4 8, data.extractLsb' 0 4 ++ pad] = some data)
  ∧ (∀ (s : State) (data : BitVec 16),
      ∃ t, exec (.frame16 data) s = .next t ∧ t = { s with dev := t.dev, draws := s.draws + 1 }
        ∧ (s.dev.cs = .high ∨ s.dev.cs = .unknown →
            t.dev.cs = .high ∧ t.dev.shift = .known [data.extractLsb' 8 8, data.extractLsb' 0 8]
            ∧ (s.dev.latch = .high ∨ s.dev.latch = .unknown → t.dev.latch = s.dev.latch ∧ t.dev.out = s.dev.out)
            ∧ (s.dev.latch = .fallen ∨ s.dev.latch = .held ∨ s.dev.latch = .spent → t.dev.out.defined = false))
        ∧ unpack [data.extractLsb' 8 8, data.extractLsb' 0 8] = some (data.setWidth 20))

/-- Tier 2. Whatever events reach the device, in whatever order, a code it shows is one that a transfer delivered and that the latch
pulse after it committed: after that transfer, with no other transfer between, chip-select rises, the latch falls, a hold of at least
the minimum passes, and the latch rises (20_memory.md R40, 93_implementation_defined.md U7, U8; log 5). The device has shown no code, and has
no frame, or none since a violation, to begin with, and no pulse that is out of order (DeviceKeepsPulsesInOrder). -/
def Obligations.DeviceShowsOnlyDeliveredCodes : Prop :=
  ∀ (d : Device) (es : List (ℕ × Event)),
    d.PulseInOrder → d.out.defined = false → (d.fresh = false ∨ d.shift.defined = false) → (∀ bytes, d.cs ≠ .framed bytes) →
    (d.watch es).out.defined = true →
    ∃ (before pulse after : List Event) (bytes : List Byte) (t : ℕ),
      es.map Prod.snd = before ++ .xfer bytes .ok :: pulse ++ after
      ∧ unpack bytes = some (d.watch es).out.value
      ∧ (∀ other a, .xfer other a ∉ pulse)
      ∧ Config.tLdpwMin ≤ t
      ∧ List.Sublist [.pin .csN .high, .pin .ldacN .low, .delay t, .pin .ldacN .high] pulse

/-- Tier 1. A latch pulse that begins while chip-select is low, a chip-select that falls while the latch is low, a good transfer that is
not the one of its chip-select period, a period without a transfer, a latch that rises without its hold, and a time that is no hold
leave the committed code undefined and the frame as it was (20_memory.md R40, R45; 93_implementation_defined.md U7; which event belongs
to which sub-trace is the model's reading, log 5). -/
def Obligations.ViolatedOrderLosesTheCode : Prop :=
  ∀ (d : Device) (n : ℕ),
    ((d.cs = .fallen ∨ (∃ bytes, d.cs = .framed bytes) ∨ d.cs = .spent) → (d.latch = .high ∨ d.latch = .unknown) →
      (d.observe n (.pin .ldacN .low)).out.defined = false ∧ (d.observe n (.pin .ldacN .low)).shift = d.shift)
    ∧ ((d.latch = .fallen ∨ d.latch = .held ∨ d.latch = .spent) → (d.cs = .high ∨ d.cs = .unknown) →
        (d.observe n (.pin .csN .low)).out.defined = false ∧ (d.observe n (.pin .csN .low)).shift = d.shift)
    ∧ (∀ bytes, d.cs ≠ .fallen →
        (d.observe n (.xfer bytes .ok)).out.defined = false ∧ (d.observe n (.xfer bytes .ok)).shift = d.shift)
    ∧ (d.cs = .fallen →
        (d.observe n (.pin .csN .high)).out.defined = false ∧ (d.observe n (.pin .csN .high)).shift = d.shift)
    ∧ (d.latch = .fallen ∨ d.latch = .spent →
        (d.observe n (.pin .ldacN .high)).out.defined = false ∧ (d.observe n (.pin .ldacN .high)).shift = d.shift)
    ∧ (∀ t, d.latch ≠ .fallen ∨ t < Config.tLdpwMin →
        (d.observe n (.delay t)).out.defined = false ∧ (d.observe n (.delay t)).shift = d.shift)

/-! ### The machine -/

/-- Tier 3. The invariants of a command boundary (10_state.md R29) are kept by every step from every state that has them. -/
def Obligations.StepKeepsTheBoundary : Prop :=
  ∀ s t : State, s.Boundary → step s = .next t →
    t.Boundary
    ∧ ((t.cfgWidth = .w16 ∧ t.cfgWidth.maxCode = 65535 ∧ t.cfgWidth.nbytes = 2)
        ∨ (t.cfgWidth = .w20 ∧ t.cfgWidth.maxCode = 1048575 ∧ t.cfgWidth.nbytes = 3))

/-- Tier 3. Every step keeps a safe state safe: the boundary, the device in step, and the order of the trace since the last reset that
cut a command off (41_transport.md R113, 70_reset_and_hazards.md R155, R160). The device in step is one of 20_memory.md R40 that has seen
both lines high, the model's place between its two sub-traces (log 5); that reset's place in the trace is the
model's history (log 16). -/
def Obligations.StepKeepsSafe : Prop :=
  ∀ s t : State, s.Safe → step s = .next t → t.Safe

/-- Tier 1. The state after reset is safe, and is not ready (10_state.md R28, R29). -/
def Obligations.ResetIsSafe : Prop :=
  State.reset.Safe ∧ State.reset.ready = false ∧ State.reset.busy = false ∧ State.reset.seq = 0 ∧ State.reset.trace = []

/-- Tier 2. What the order of a trace means (41_transport.md R113): every latch pulse begins right after chip-select has risen and
lasts at least the minimum before the latch rises, with nothing between; every chip-select low period holds one transfer only. -/
def Obligations.OrderedTracesPulseAfterChipSelect : Prop :=
  ∀ (es pre post : List Event) (m : Mon), monitor .quiet es = some m →
    (es = pre ++ .pin .ldacN .low :: post →
      (∃ pre', pre = pre' ++ [.pin .csN .high])
      ∧ (post = [] ∨ ∃ d, Config.tLdpwMin ≤ d ∧ (post = [.delay d] ∨ ∃ rest, post = .delay d :: .pin .ldacN .high :: rest)))
    ∧ (es = pre ++ .pin .csN .low :: post →
        post = [] ∨ ∃ bytes a, post = [.xfer bytes a] ∨ ∃ rest, post = .xfer bytes a :: .pin .csN .high :: rest)

/-- Tier 1. A step runs the decoded instruction: a command word at a port that is not busy, or a frame at any time, is taken from
the inputs and executed. -/
def Obligations.StepRunsTheWordPresented : Prop :=
  ∀ (s : State) (p : PortWord) (rest : List Input) (i : Instr),
    s.inputs = .word p :: rest → decode p = .ok i → (s.busy = false ∨ i.isCommand = false) →
    step s = exec i { s with inputs := rest }

/-- Tier 2. While a command runs the port accepts no command: the word is neither refused nor lost (60_exceptions.md R142). That the
step of a busy machine changes nothing is the model's (log 17), and no run reaches such a state, since a command is one step
(log 1). -/
def Obligations.BusyPortHoldsTheCommand : Prop :=
  ∀ (s : State) (p : PortWord) (rest : List Input) (i : Instr),
    s.inputs = .word p :: rest → decode p = .ok i → i.isCommand = true → s.busy = true → step s = .next s

/-- Tier 1. A reset request (70_reset_and_hazards.md R150, R151), at any position of a handshake: not ready, not busy, position 0,
no event; the configuration and both pin levels hold new free values (log 7) and the device's registers are undefined (log 8). That
the other inputs, the answers and the holds are kept is the model's (log 8), and so are the histories (log 16). -/
def Obligations.ResetRequestResets : Prop :=
  ∀ (s : State) (rest : List Input), s.inputs = .reset :: rest →
    ∃ t, step s = .next t ∧ s.ResetTo t
      ∧ t = { s with
          inputs := rest, cfgVref := Fmt.freeVref s.fmt s.draws, cfgWidth := Config.freeWidth s.draws, ready := false, busy := false
          seq := 0, csN := Config.freeLevel s.draws, ldacN := Config.freeLevel (s.draws + 1), dev := t.dev, draws := s.draws + 2
          cutAt := if s.busy = true then s.trace.length else s.cutAt }

/-- Tier 2. The trace and the responses are only appended to (20_memory.md R34, R44; 70_reset_and_hazards.md R165, the list of responses
of a run). Both histories are the model's (log 16): the block itself keeps no response (10_state.md R20). -/
def Obligations.HistoriesOnlyGrow : Prop :=
  ∀ s t : State, step s = .next t → s.trace <+: t.trace ∧ s.responses <+: t.responses

/-- Tier 2. The block never reads the device (20_memory.md R42): a different device changes nothing but the device. -/
def Obligations.DeviceIsNeverRead : Prop :=
  ∀ (i : Instr) (s : State) (d : Device),
    (∀ t, exec i s = .next t → ∃ d', exec i { s with dev := d } = .next { t with dev := d' })
    ∧ (∀ r, exec i s = .fault r → exec i { s with dev := d } = .fault r)
    ∧ (∀ r, exec i s = .refused r → exec i { s with dev := d } = .refused r)

/-- Tier 2. A reset in the middle of a command, after any number `k` of its events (70_reset_and_hazards.md R151,
93_implementation_defined.md U18): the block as after any reset, no response, the device undefined. That the command's first `k` events
stand in the trace is the model's (log 8); a command that is never answered has one event, and the reset frees the block; a command
word that still waits at a busy port waits on, and a word that is refused is refused. -/
def Obligations.ResetDuringACommandCutsItOff : Prop :=
  ∀ (s : State) (p : PortWord) (k : ℕ) (rest : List Input) (i : Instr), s.inputs = .cut p k :: rest → decode p = .ok i →
    (s.busy = false ∨ i.isCommand = false →
      (∀ u, exec i { s with inputs := rest } = .next u →
        ∃ t es, step s = .next t ∧ s.ResetTo t ∧ t.inputs = rest ∧ u.trace = s.trace ++ es ∧ t.trace = s.trace ++ es.take k)
      ∧ (∀ r, exec i { s with inputs := rest } = .fault r →
          ∃ t, step s = .next t ∧ s.ResetTo t ∧ t.inputs = rest ∧ t.trace = s.trace ++ [Event.pin .csN .low].take k)
      ∧ (∀ r, exec i { s with inputs := rest } = .refused r → step s = .refused r))
    ∧ (s.busy = true → i.isCommand = true →
        ∃ t, step s = .next t ∧ s.ResetTo t ∧ t.inputs = .word p :: rest ∧ t.trace = s.trace)

/-- Tier 2. The three lines of the device (20_memory.md R40), with one event after the other. (1) A whole frame is written to
`DEV_SHIFT`, from whatever place where chip-select is not low. (2) A latch pulse with `CS_N = 1` throughout and a hold of at least the
minimum commits `Unpack(DEV_SHIFT)`, where a frame has come since the last violation; without one `DEV_OUT` stays undefined until a
complete good handshake (93_implementation_defined.md U7), and a frame that is undefined commits nothing. (3) No other event changes
`DEV_SHIFT`, but a failed transfer makes it undefined and keeps `DEV_OUT` (U6); a shorter hold leaves `DEV_OUT` undefined. The places of
the device, and that a sub-trace may begin at a line not seen yet, are the model's reading (log 5). -/
def Obligations.DeviceFollowsTheThreeLines : Prop :=
  ∀ (d : Device) (n1 n2 n3 : ℕ) (bytes : List Byte) (t : ℕ) (e : Event),
    ((d.cs = .high ∨ d.cs = .unknown) →
      (d.watch [(n1, .pin .csN .low), (n2, .xfer bytes .ok), (n3, .pin .csN .high)]).shift = .known bytes)
    ∧ (d.cs = .high → (d.latch = .high ∨ d.latch = .unknown) →
        let after := d.watch [(n1, .pin .ldacN .low), (n2, .delay t), (n3, .pin .ldacN .high)]
        after.shift = d.shift
        ∧ (∀ c, Config.tLdpwMin ≤ t → d.fresh = true → d.shift.defined = true → unpack d.shift.value = some c → after.out = .known c)
        ∧ (t < Config.tLdpwMin ∨ d.fresh = false ∨ d.shift.defined = false ∨ unpack d.shift.value = none →
            after.out.defined = false))
    ∧ ((d.observe n1 e).shift = d.shift
        ∨ (∃ b, e = .pin .csN .high ∧ d.cs = .framed b ∧ (d.observe n1 e).shift = .known b)
        ∨ (∃ b, e = .xfer b .fail ∧ (d.observe n1 e).shift.defined = false ∧ (d.cs = .fallen → (d.observe n1 e).out = d.out)))

/-- Tier 2. A latch pulse that can still commit has `CS_N = 1` throughout (20_memory.md R40; the device's places are the model's, log 5):
no event brings a device out of that order, and a reset leaves it in it. -/
def Obligations.DeviceKeepsPulsesInOrder : Prop :=
  State.reset.dev.PulseInOrder ∧ ∀ (d : Device) (n : ℕ) (e : Event), d.PulseInOrder → (d.observe n e).PulseInOrder
end

