-- ==== Sys2Proof/Laws/Packer.lean ====
section
/-!
SUPPORT. The bytes of the frames as slices of the code, and the data bits back from the bytes (30_encoding.md R56, R57, R65).
-/

namespace Sys2Proof.Machine

/-- The bytes of a 24-bit frame, from its data and its padding. -/
theorem bytes24_append (d : BitVec 20) (p : BitVec 4) :
    bytes24 (d ++ p) = [d.extractLsb' 12 8, d.extractLsb' 4 8, d.extractLsb' 0 4 ++ p] := by
  have h0 : (d ++ p).extractLsb' 16 8 = d.extractLsb' 12 8 := by
    ext i hi; simp only [BitVec.getElem_extractLsb', BitVec.getLsbD_append]; grind
  have h1 : (d ++ p).extractLsb' 8 8 = d.extractLsb' 4 8 := by
    ext i hi; simp only [BitVec.getElem_extractLsb', BitVec.getLsbD_append]; grind
  have h2 : (d ++ p).extractLsb' 0 8 = d.extractLsb' 0 4 ++ p := by
    ext i hi; simp only [BitVec.getElem_extractLsb', BitVec.getLsbD_append]; grind
  rw [bytes24, h0, h1, h2]

/-- Dropping the padding and putting the slices together gives the data. -/
theorem unpackW20_slices (d : BitVec 20) (p : BitVec 4) :
    unpackW20 (d.extractLsb' 12 8) (d.extractLsb' 4 8) (d.extractLsb' 0 4 ++ p) = d := by
  ext i hi
  simp only [unpackW20, BitVec.getElem_extractLsb', BitVec.getLsbD_append, BitVec.getLsbD_extractLsb']
  grind

/-- Putting the two slices together gives the data. -/
theorem unpackW16_slices (d : BitVec 16) : unpackW16 (d.extractLsb' 8 8) (d.extractLsb' 0 8) = d := by
  ext i hi
  simp only [unpackW16]
  grind

/-- The frame of a 20-bit code is its low 20 bits with zeros in the padding. -/
theorem pack_w20 (c : Code) : pack .w20 c = bytes24 (c.setWidth 20 ++ 0#4) := by
  have h : (c <<< 4).extractLsb' 0 24 = c.setWidth 20 ++ 0#4 := by
    ext i hi
    simp only [BitVec.getElem_extractLsb', BitVec.getLsbD_shiftLeft]
    grind
  rw [pack, h]

/-- The frame of a 16-bit code is its low 16 bits. -/
theorem pack_w16 (c : Code) : pack .w16 c = bytes16 (c.setWidth 16) := by
  have h : c.extractLsb' 0 16 = c.setWidth 16 := by
    ext i hi
    simp only [BitVec.getElem_extractLsb', BitVec.getElem_setWidth]
    grind
  rw [pack, h]

/-- Unpacking the frame of a code gives the code's low bits. -/
theorem unpack_pack (w : Width) (c : Code) :
    unpack (pack w c) = some (match w with | .w20 => c.setWidth 20 | .w16 => (c.setWidth 16).setWidth 20) := by
  cases w with
  | w20 => rw [pack_w20, bytes24_append, unpack, unpackW20_slices]
  | w16 => rw [pack_w16, bytes16, unpack, unpackW16_slices]

end Sys2Proof.Machine
end

