-- ==== Sys2Proof/Laws/State.lean ====
section
/-!
SUPPORT. For every update of the state, what each field is afterwards.
-/

namespace Sys2Proof.Machine

variable (s : State)

/-! `setSeq` -/

@[simp] theorem State.setSeq_cfgVref (k : Fin 7) : (s.setSeq k).cfgVref = s.cfgVref := rfl
@[simp] theorem State.setSeq_cfgWidth (k : Fin 7) : (s.setSeq k).cfgWidth = s.cfgWidth := rfl
@[simp] theorem State.setSeq_ready (k : Fin 7) : (s.setSeq k).ready = s.ready := rfl
@[simp] theorem State.setSeq_busy (k : Fin 7) : (s.setSeq k).busy = s.busy := rfl
@[simp] theorem State.setSeq_seq (k : Fin 7) : (s.setSeq k).seq = k := rfl
@[simp] theorem State.setSeq_csN (k : Fin 7) : (s.setSeq k).csN = s.csN := rfl
@[simp] theorem State.setSeq_ldacN (k : Fin 7) : (s.setSeq k).ldacN = s.ldacN := rfl
@[simp] theorem State.setSeq_dev (k : Fin 7) : (s.setSeq k).dev = s.dev := rfl
@[simp] theorem State.setSeq_inputs (k : Fin 7) : (s.setSeq k).inputs = s.inputs := rfl
@[simp] theorem State.setSeq_answers (k : Fin 7) : (s.setSeq k).answers = s.answers := rfl
@[simp] theorem State.setSeq_holds (k : Fin 7) : (s.setSeq k).holds = s.holds := rfl
@[simp] theorem State.setSeq_trace (k : Fin 7) : (s.setSeq k).trace = s.trace := rfl
@[simp] theorem State.setSeq_responses (k : Fin 7) : (s.setSeq k).responses = s.responses := rfl
@[simp] theorem State.setSeq_draws (k : Fin 7) : (s.setSeq k).draws = s.draws := rfl
@[simp] theorem State.setSeq_cutAt (k : Fin 7) : (s.setSeq k).cutAt = s.cutAt := rfl

/-! `accept` -/

@[simp] theorem State.accept_cfgVref : s.accept.cfgVref = s.cfgVref := rfl
@[simp] theorem State.accept_cfgWidth : s.accept.cfgWidth = s.cfgWidth := rfl
@[simp] theorem State.accept_ready : s.accept.ready = s.ready := rfl
@[simp] theorem State.accept_busy : s.accept.busy = true := rfl
@[simp] theorem State.accept_seq : s.accept.seq = s.seq := rfl
@[simp] theorem State.accept_csN : s.accept.csN = s.csN := rfl
@[simp] theorem State.accept_ldacN : s.accept.ldacN = s.ldacN := rfl
@[simp] theorem State.accept_dev : s.accept.dev = s.dev := rfl
@[simp] theorem State.accept_inputs : s.accept.inputs = s.inputs := rfl
@[simp] theorem State.accept_answers : s.accept.answers = s.answers := rfl
@[simp] theorem State.accept_holds : s.accept.holds = s.holds := rfl
@[simp] theorem State.accept_trace : s.accept.trace = s.trace := rfl
@[simp] theorem State.accept_responses : s.accept.responses = s.responses := rfl
@[simp] theorem State.accept_draws : s.accept.draws = s.draws := rfl
@[simp] theorem State.accept_cutAt : s.accept.cutAt = s.cutAt := rfl

/-! `respond` -/

@[simp] theorem State.respond_cfgVref (r : Res) (c : Code) : (s.respond r c).cfgVref = s.cfgVref := rfl
@[simp] theorem State.respond_cfgWidth (r : Res) (c : Code) : (s.respond r c).cfgWidth = s.cfgWidth := rfl
@[simp] theorem State.respond_ready (r : Res) (c : Code) : (s.respond r c).ready = s.ready := rfl
@[simp] theorem State.respond_busy (r : Res) (c : Code) : (s.respond r c).busy = false := rfl
@[simp] theorem State.respond_seq (r : Res) (c : Code) : (s.respond r c).seq = 0 := rfl
@[simp] theorem State.respond_csN (r : Res) (c : Code) : (s.respond r c).csN = s.csN := rfl
@[simp] theorem State.respond_ldacN (r : Res) (c : Code) : (s.respond r c).ldacN = s.ldacN := rfl
@[simp] theorem State.respond_dev (r : Res) (c : Code) : (s.respond r c).dev = s.dev := rfl
@[simp] theorem State.respond_inputs (r : Res) (c : Code) : (s.respond r c).inputs = s.inputs := rfl
@[simp] theorem State.respond_answers (r : Res) (c : Code) : (s.respond r c).answers = s.answers := rfl
@[simp] theorem State.respond_holds (r : Res) (c : Code) : (s.respond r c).holds = s.holds := rfl
@[simp] theorem State.respond_trace (r : Res) (c : Code) : (s.respond r c).trace = s.trace := rfl
@[simp] theorem State.respond_responses (r : Res) (c : Code) : (s.respond r c).responses = s.responses ++ [{ res := r, code := c }] := rfl
@[simp] theorem State.respond_draws (r : Res) (c : Code) : (s.respond r c).draws = s.draws := rfl
@[simp] theorem State.respond_cutAt (r : Res) (c : Code) : (s.respond r c).cutAt = s.cutAt := rfl

/-! `draw` -/

@[simp] theorem State.draw_cfgVref : s.draw.cfgVref = s.cfgVref := rfl
@[simp] theorem State.draw_cfgWidth : s.draw.cfgWidth = s.cfgWidth := rfl
@[simp] theorem State.draw_ready : s.draw.ready = s.ready := rfl
@[simp] theorem State.draw_busy : s.draw.busy = s.busy := rfl
@[simp] theorem State.draw_seq : s.draw.seq = s.seq := rfl
@[simp] theorem State.draw_csN : s.draw.csN = s.csN := rfl
@[simp] theorem State.draw_ldacN : s.draw.ldacN = s.ldacN := rfl
@[simp] theorem State.draw_dev : s.draw.dev = s.dev := rfl
@[simp] theorem State.draw_inputs : s.draw.inputs = s.inputs := rfl
@[simp] theorem State.draw_answers : s.draw.answers = s.answers := rfl
@[simp] theorem State.draw_holds : s.draw.holds = s.holds := rfl
@[simp] theorem State.draw_trace : s.draw.trace = s.trace := rfl
@[simp] theorem State.draw_responses : s.draw.responses = s.responses := rfl
@[simp] theorem State.draw_draws : s.draw.draws = s.draws + 1 := rfl
@[simp] theorem State.draw_cutAt : s.draw.cutAt = s.cutAt := rfl

/-! `setReady` -/

@[simp] theorem State.setReady_cfgVref (b : Bool) : (s.setReady b).cfgVref = s.cfgVref := rfl
@[simp] theorem State.setReady_cfgWidth (b : Bool) : (s.setReady b).cfgWidth = s.cfgWidth := rfl
@[simp] theorem State.setReady_ready (b : Bool) : (s.setReady b).ready = b := rfl
@[simp] theorem State.setReady_busy (b : Bool) : (s.setReady b).busy = s.busy := rfl
@[simp] theorem State.setReady_seq (b : Bool) : (s.setReady b).seq = s.seq := rfl
@[simp] theorem State.setReady_csN (b : Bool) : (s.setReady b).csN = s.csN := rfl
@[simp] theorem State.setReady_ldacN (b : Bool) : (s.setReady b).ldacN = s.ldacN := rfl
@[simp] theorem State.setReady_dev (b : Bool) : (s.setReady b).dev = s.dev := rfl
@[simp] theorem State.setReady_inputs (b : Bool) : (s.setReady b).inputs = s.inputs := rfl
@[simp] theorem State.setReady_answers (b : Bool) : (s.setReady b).answers = s.answers := rfl
@[simp] theorem State.setReady_holds (b : Bool) : (s.setReady b).holds = s.holds := rfl
@[simp] theorem State.setReady_trace (b : Bool) : (s.setReady b).trace = s.trace := rfl
@[simp] theorem State.setReady_responses (b : Bool) : (s.setReady b).responses = s.responses := rfl
@[simp] theorem State.setReady_draws (b : Bool) : (s.setReady b).draws = s.draws := rfl
@[simp] theorem State.setReady_cutAt (b : Bool) : (s.setReady b).cutAt = s.cutAt := rfl

/-! `setCfg` -/

@[simp] theorem State.setCfg_cfgVref (v : FpBits) (w : Width) : (s.setCfg v w).cfgVref = v := rfl
@[simp] theorem State.setCfg_cfgWidth (v : FpBits) (w : Width) : (s.setCfg v w).cfgWidth = w := rfl
@[simp] theorem State.setCfg_ready (v : FpBits) (w : Width) : (s.setCfg v w).ready = s.ready := rfl
@[simp] theorem State.setCfg_busy (v : FpBits) (w : Width) : (s.setCfg v w).busy = s.busy := rfl
@[simp] theorem State.setCfg_seq (v : FpBits) (w : Width) : (s.setCfg v w).seq = s.seq := rfl
@[simp] theorem State.setCfg_csN (v : FpBits) (w : Width) : (s.setCfg v w).csN = s.csN := rfl
@[simp] theorem State.setCfg_ldacN (v : FpBits) (w : Width) : (s.setCfg v w).ldacN = s.ldacN := rfl
@[simp] theorem State.setCfg_dev (v : FpBits) (w : Width) : (s.setCfg v w).dev = s.dev := rfl
@[simp] theorem State.setCfg_inputs (v : FpBits) (w : Width) : (s.setCfg v w).inputs = s.inputs := rfl
@[simp] theorem State.setCfg_answers (v : FpBits) (w : Width) : (s.setCfg v w).answers = s.answers := rfl
@[simp] theorem State.setCfg_holds (v : FpBits) (w : Width) : (s.setCfg v w).holds = s.holds := rfl
@[simp] theorem State.setCfg_trace (v : FpBits) (w : Width) : (s.setCfg v w).trace = s.trace := rfl
@[simp] theorem State.setCfg_responses (v : FpBits) (w : Width) : (s.setCfg v w).responses = s.responses := rfl
@[simp] theorem State.setCfg_draws (v : FpBits) (w : Width) : (s.setCfg v w).draws = s.draws := rfl
@[simp] theorem State.setCfg_cutAt (v : FpBits) (w : Width) : (s.setCfg v w).cutAt = s.cutAt := rfl

/-! `emit` -/

@[simp] theorem State.emit_cfgVref (e : Event) : (s.emit e).cfgVref = s.cfgVref := rfl
@[simp] theorem State.emit_cfgWidth (e : Event) : (s.emit e).cfgWidth = s.cfgWidth := rfl
@[simp] theorem State.emit_ready (e : Event) : (s.emit e).ready = s.ready := rfl
@[simp] theorem State.emit_busy (e : Event) : (s.emit e).busy = s.busy := rfl
@[simp] theorem State.emit_seq (e : Event) : (s.emit e).seq = s.seq := rfl
@[simp] theorem State.emit_csN (e : Event) : (s.emit e).csN = s.csN := rfl
@[simp] theorem State.emit_ldacN (e : Event) : (s.emit e).ldacN = s.ldacN := rfl
@[simp] theorem State.emit_dev (e : Event) : (s.emit e).dev = s.dev.observe s.draws e := rfl
@[simp] theorem State.emit_inputs (e : Event) : (s.emit e).inputs = s.inputs := rfl
@[simp] theorem State.emit_answers (e : Event) : (s.emit e).answers = s.answers := rfl
@[simp] theorem State.emit_holds (e : Event) : (s.emit e).holds = s.holds := rfl
@[simp] theorem State.emit_trace (e : Event) : (s.emit e).trace = s.trace ++ [e] := rfl
@[simp] theorem State.emit_responses (e : Event) : (s.emit e).responses = s.responses := rfl
@[simp] theorem State.emit_draws (e : Event) : (s.emit e).draws = s.draws + 1 := rfl
@[simp] theorem State.emit_cutAt (e : Event) : (s.emit e).cutAt = s.cutAt := rfl

/-! `transfer` -/

@[simp] theorem State.transfer_cfgVref (bytes : List Byte) (a : Answer) : (s.transfer bytes a).cfgVref = s.cfgVref := rfl
@[simp] theorem State.transfer_cfgWidth (bytes : List Byte) (a : Answer) : (s.transfer bytes a).cfgWidth = s.cfgWidth := rfl
@[simp] theorem State.transfer_ready (bytes : List Byte) (a : Answer) : (s.transfer bytes a).ready = s.ready := rfl
@[simp] theorem State.transfer_busy (bytes : List Byte) (a : Answer) : (s.transfer bytes a).busy = s.busy := rfl
@[simp] theorem State.transfer_seq (bytes : List Byte) (a : Answer) : (s.transfer bytes a).seq = s.seq := rfl
@[simp] theorem State.transfer_csN (bytes : List Byte) (a : Answer) : (s.transfer bytes a).csN = s.csN := rfl
@[simp] theorem State.transfer_ldacN (bytes : List Byte) (a : Answer) : (s.transfer bytes a).ldacN = s.ldacN := rfl
@[simp] theorem State.transfer_dev (bytes : List Byte) (a : Answer) : (s.transfer bytes a).dev = s.dev.observe s.draws (.xfer bytes a) := rfl
@[simp] theorem State.transfer_inputs (bytes : List Byte) (a : Answer) : (s.transfer bytes a).inputs = s.inputs := rfl
@[simp] theorem State.transfer_answers (bytes : List Byte) (a : Answer) : (s.transfer bytes a).answers = s.answers.tail := rfl
@[simp] theorem State.transfer_holds (bytes : List Byte) (a : Answer) : (s.transfer bytes a).holds = s.holds := rfl
@[simp] theorem State.transfer_trace (bytes : List Byte) (a : Answer) : (s.transfer bytes a).trace = s.trace ++ [.xfer bytes a] := rfl
@[simp] theorem State.transfer_responses (bytes : List Byte) (a : Answer) : (s.transfer bytes a).responses = s.responses := rfl
@[simp] theorem State.transfer_draws (bytes : List Byte) (a : Answer) : (s.transfer bytes a).draws = s.draws + 1 := rfl
@[simp] theorem State.transfer_cutAt (bytes : List Byte) (a : Answer) : (s.transfer bytes a).cutAt = s.cutAt := rfl

/-! `dropRequest` -/

@[simp] theorem State.dropRequest_cfgVref : s.dropRequest.cfgVref = s.cfgVref := rfl
@[simp] theorem State.dropRequest_cfgWidth : s.dropRequest.cfgWidth = s.cfgWidth := rfl
@[simp] theorem State.dropRequest_ready : s.dropRequest.ready = s.ready := rfl
@[simp] theorem State.dropRequest_busy : s.dropRequest.busy = s.busy := rfl
@[simp] theorem State.dropRequest_seq : s.dropRequest.seq = s.seq := rfl
@[simp] theorem State.dropRequest_csN : s.dropRequest.csN = s.csN := rfl
@[simp] theorem State.dropRequest_ldacN : s.dropRequest.ldacN = s.ldacN := rfl
@[simp] theorem State.dropRequest_dev : s.dropRequest.dev = s.dev := rfl
@[simp] theorem State.dropRequest_inputs : s.dropRequest.inputs = s.inputs := rfl
@[simp] theorem State.dropRequest_answers : s.dropRequest.answers = s.answers.tail := rfl
@[simp] theorem State.dropRequest_holds : s.dropRequest.holds = s.holds := rfl
@[simp] theorem State.dropRequest_trace : s.dropRequest.trace = s.trace := rfl
@[simp] theorem State.dropRequest_responses : s.dropRequest.responses = s.responses := rfl
@[simp] theorem State.dropRequest_draws : s.dropRequest.draws = s.draws := rfl
@[simp] theorem State.dropRequest_cutAt : s.dropRequest.cutAt = s.cutAt := rfl

/-! `delay` -/

@[simp] theorem State.delay_cfgVref : s.delay.cfgVref = s.cfgVref := rfl
@[simp] theorem State.delay_cfgWidth : s.delay.cfgWidth = s.cfgWidth := rfl
@[simp] theorem State.delay_ready : s.delay.ready = s.ready := rfl
@[simp] theorem State.delay_busy : s.delay.busy = s.busy := rfl
@[simp] theorem State.delay_seq : s.delay.seq = s.seq := rfl
@[simp] theorem State.delay_csN : s.delay.csN = s.csN := rfl
@[simp] theorem State.delay_ldacN : s.delay.ldacN = s.ldacN := rfl
@[simp] theorem State.delay_dev : s.delay.dev = s.dev.observe s.draws (.delay s.holdTime) := rfl
@[simp] theorem State.delay_inputs : s.delay.inputs = s.inputs := rfl
@[simp] theorem State.delay_answers : s.delay.answers = s.answers := rfl
@[simp] theorem State.delay_holds : s.delay.holds = s.holds.tail := rfl
@[simp] theorem State.delay_trace : s.delay.trace = s.trace ++ [.delay s.holdTime] := rfl
@[simp] theorem State.delay_responses : s.delay.responses = s.responses := rfl
@[simp] theorem State.delay_draws : s.delay.draws = s.draws + 1 := rfl
@[simp] theorem State.delay_cutAt : s.delay.cutAt = s.cutAt := rfl

/-! `deviceReceives` -/

@[simp] theorem State.deviceReceives_cfgVref (bytes : List Byte) : (s.deviceReceives bytes).cfgVref = s.cfgVref := rfl
@[simp] theorem State.deviceReceives_cfgWidth (bytes : List Byte) : (s.deviceReceives bytes).cfgWidth = s.cfgWidth := rfl
@[simp] theorem State.deviceReceives_ready (bytes : List Byte) : (s.deviceReceives bytes).ready = s.ready := rfl
@[simp] theorem State.deviceReceives_busy (bytes : List Byte) : (s.deviceReceives bytes).busy = s.busy := rfl
@[simp] theorem State.deviceReceives_seq (bytes : List Byte) : (s.deviceReceives bytes).seq = s.seq := rfl
@[simp] theorem State.deviceReceives_csN (bytes : List Byte) : (s.deviceReceives bytes).csN = s.csN := rfl
@[simp] theorem State.deviceReceives_ldacN (bytes : List Byte) : (s.deviceReceives bytes).ldacN = s.ldacN := rfl
@[simp] theorem State.deviceReceives_dev (bytes : List Byte) : (s.deviceReceives bytes).dev = s.dev.receive s.draws bytes := rfl
@[simp] theorem State.deviceReceives_inputs (bytes : List Byte) : (s.deviceReceives bytes).inputs = s.inputs := rfl
@[simp] theorem State.deviceReceives_answers (bytes : List Byte) : (s.deviceReceives bytes).answers = s.answers := rfl
@[simp] theorem State.deviceReceives_holds (bytes : List Byte) : (s.deviceReceives bytes).holds = s.holds := rfl
@[simp] theorem State.deviceReceives_trace (bytes : List Byte) : (s.deviceReceives bytes).trace = s.trace := rfl
@[simp] theorem State.deviceReceives_responses (bytes : List Byte) : (s.deviceReceives bytes).responses = s.responses := rfl
@[simp] theorem State.deviceReceives_draws (bytes : List Byte) : (s.deviceReceives bytes).draws = s.draws + 1 := rfl
@[simp] theorem State.deviceReceives_cutAt (bytes : List Byte) : (s.deviceReceives bytes).cutAt = s.cutAt := rfl

/-! `openPort` -/

@[simp] theorem State.openPort_cfgVref (f : Fmt) : (s.openPort f).cfgVref = s.cfgVref.inFmt f := rfl
@[simp] theorem State.openPort_cfgWidth (f : Fmt) : (s.openPort f).cfgWidth = s.cfgWidth := rfl
@[simp] theorem State.openPort_ready (f : Fmt) : (s.openPort f).ready = s.ready := rfl
@[simp] theorem State.openPort_busy (f : Fmt) : (s.openPort f).busy = false := rfl
@[simp] theorem State.openPort_seq (f : Fmt) : (s.openPort f).seq = s.seq := rfl
@[simp] theorem State.openPort_csN (f : Fmt) : (s.openPort f).csN = s.csN := rfl
@[simp] theorem State.openPort_ldacN (f : Fmt) : (s.openPort f).ldacN = s.ldacN := rfl
@[simp] theorem State.openPort_dev (f : Fmt) : (s.openPort f).dev = s.dev := rfl
@[simp] theorem State.openPort_inputs (f : Fmt) : (s.openPort f).inputs = s.inputs := rfl
@[simp] theorem State.openPort_answers (f : Fmt) : (s.openPort f).answers = s.answers := rfl
@[simp] theorem State.openPort_holds (f : Fmt) : (s.openPort f).holds = s.holds := rfl
@[simp] theorem State.openPort_trace (f : Fmt) : (s.openPort f).trace = s.trace := rfl
@[simp] theorem State.openPort_responses (f : Fmt) : (s.openPort f).responses = s.responses := rfl
@[simp] theorem State.openPort_draws (f : Fmt) : (s.openPort f).draws = s.draws := rfl
@[simp] theorem State.openPort_cutAt (f : Fmt) : (s.openPort f).cutAt = s.cutAt := rfl

/-! `present` -/

@[simp] theorem State.present_cfgVref (p : PortWord) : (s.present p).cfgVref = s.cfgVref := rfl
@[simp] theorem State.present_cfgWidth (p : PortWord) : (s.present p).cfgWidth = s.cfgWidth := rfl
@[simp] theorem State.present_ready (p : PortWord) : (s.present p).ready = s.ready := rfl
@[simp] theorem State.present_busy (p : PortWord) : (s.present p).busy = s.busy := rfl
@[simp] theorem State.present_seq (p : PortWord) : (s.present p).seq = s.seq := rfl
@[simp] theorem State.present_csN (p : PortWord) : (s.present p).csN = s.csN := rfl
@[simp] theorem State.present_ldacN (p : PortWord) : (s.present p).ldacN = s.ldacN := rfl
@[simp] theorem State.present_dev (p : PortWord) : (s.present p).dev = s.dev := rfl
@[simp] theorem State.present_inputs (p : PortWord) : (s.present p).inputs = .word p :: s.inputs := rfl
@[simp] theorem State.present_answers (p : PortWord) : (s.present p).answers = s.answers := rfl
@[simp] theorem State.present_holds (p : PortWord) : (s.present p).holds = s.holds := rfl
@[simp] theorem State.present_trace (p : PortWord) : (s.present p).trace = s.trace := rfl
@[simp] theorem State.present_responses (p : PortWord) : (s.present p).responses = s.responses := rfl
@[simp] theorem State.present_draws (p : PortWord) : (s.present p).draws = s.draws := rfl
@[simp] theorem State.present_cutAt (p : PortWord) : (s.present p).cutAt = s.cutAt := rfl

/-! `applyReset` -/

@[simp] theorem State.applyReset_cfgVref : s.applyReset.cfgVref = Fmt.freeVref s.fmt s.draws := rfl
@[simp] theorem State.applyReset_cfgWidth : s.applyReset.cfgWidth = Config.freeWidth s.draws := rfl
@[simp] theorem State.applyReset_ready : s.applyReset.ready = false := rfl
@[simp] theorem State.applyReset_busy : s.applyReset.busy = false := rfl
@[simp] theorem State.applyReset_seq : s.applyReset.seq = 0 := rfl
@[simp] theorem State.applyReset_csN : s.applyReset.csN = Config.freeLevel s.draws := rfl
@[simp] theorem State.applyReset_ldacN : s.applyReset.ldacN = Config.freeLevel (s.draws + 1) := rfl
@[simp] theorem State.applyReset_dev : s.applyReset.dev = Device.unknown s.draws := rfl
@[simp] theorem State.applyReset_inputs : s.applyReset.inputs = s.inputs := rfl
@[simp] theorem State.applyReset_answers : s.applyReset.answers = s.answers := rfl
@[simp] theorem State.applyReset_holds : s.applyReset.holds = s.holds := rfl
@[simp] theorem State.applyReset_trace : s.applyReset.trace = s.trace := rfl
@[simp] theorem State.applyReset_responses : s.applyReset.responses = s.responses := rfl
@[simp] theorem State.applyReset_draws : s.applyReset.draws = s.draws + 2 := rfl
@[simp] theorem State.applyReset_cutAt : s.applyReset.cutAt = if s.busy then s.trace.length else s.cutAt := rfl

/-! `drive` -/

@[simp] theorem State.drive_csN_cfgVref (l : Level) : (s.drive .csN l).cfgVref = s.cfgVref := rfl
@[simp] theorem State.drive_csN_cfgWidth (l : Level) : (s.drive .csN l).cfgWidth = s.cfgWidth := rfl
@[simp] theorem State.drive_csN_ready (l : Level) : (s.drive .csN l).ready = s.ready := rfl
@[simp] theorem State.drive_csN_busy (l : Level) : (s.drive .csN l).busy = s.busy := rfl
@[simp] theorem State.drive_csN_seq (l : Level) : (s.drive .csN l).seq = s.seq := rfl
@[simp] theorem State.drive_csN_csN (l : Level) : (s.drive .csN l).csN = l := rfl
@[simp] theorem State.drive_csN_ldacN (l : Level) : (s.drive .csN l).ldacN = s.ldacN := rfl
@[simp] theorem State.drive_csN_dev (l : Level) : (s.drive .csN l).dev = s.dev := rfl
@[simp] theorem State.drive_csN_inputs (l : Level) : (s.drive .csN l).inputs = s.inputs := rfl
@[simp] theorem State.drive_csN_answers (l : Level) : (s.drive .csN l).answers = s.answers := rfl
@[simp] theorem State.drive_csN_holds (l : Level) : (s.drive .csN l).holds = s.holds := rfl
@[simp] theorem State.drive_csN_trace (l : Level) : (s.drive .csN l).trace = s.trace := rfl
@[simp] theorem State.drive_csN_responses (l : Level) : (s.drive .csN l).responses = s.responses := rfl
@[simp] theorem State.drive_csN_draws (l : Level) : (s.drive .csN l).draws = s.draws := rfl
@[simp] theorem State.drive_csN_cutAt (l : Level) : (s.drive .csN l).cutAt = s.cutAt := rfl
@[simp] theorem State.drive_ldacN_cfgVref (l : Level) : (s.drive .ldacN l).cfgVref = s.cfgVref := rfl
@[simp] theorem State.drive_ldacN_cfgWidth (l : Level) : (s.drive .ldacN l).cfgWidth = s.cfgWidth := rfl
@[simp] theorem State.drive_ldacN_ready (l : Level) : (s.drive .ldacN l).ready = s.ready := rfl
@[simp] theorem State.drive_ldacN_busy (l : Level) : (s.drive .ldacN l).busy = s.busy := rfl
@[simp] theorem State.drive_ldacN_seq (l : Level) : (s.drive .ldacN l).seq = s.seq := rfl
@[simp] theorem State.drive_ldacN_csN (l : Level) : (s.drive .ldacN l).csN = s.csN := rfl
@[simp] theorem State.drive_ldacN_ldacN (l : Level) : (s.drive .ldacN l).ldacN = l := rfl
@[simp] theorem State.drive_ldacN_dev (l : Level) : (s.drive .ldacN l).dev = s.dev := rfl
@[simp] theorem State.drive_ldacN_inputs (l : Level) : (s.drive .ldacN l).inputs = s.inputs := rfl
@[simp] theorem State.drive_ldacN_answers (l : Level) : (s.drive .ldacN l).answers = s.answers := rfl
@[simp] theorem State.drive_ldacN_holds (l : Level) : (s.drive .ldacN l).holds = s.holds := rfl
@[simp] theorem State.drive_ldacN_trace (l : Level) : (s.drive .ldacN l).trace = s.trace := rfl
@[simp] theorem State.drive_ldacN_responses (l : Level) : (s.drive .ldacN l).responses = s.responses := rfl
@[simp] theorem State.drive_ldacN_draws (l : Level) : (s.drive .ldacN l).draws = s.draws := rfl
@[simp] theorem State.drive_ldacN_cutAt (l : Level) : (s.drive .ldacN l).cutAt = s.cutAt := rfl

/-! `setLevel` -/

@[simp] theorem State.setLevel_csN_cfgVref (l : Level) : (s.setLevel .csN l).cfgVref = s.cfgVref := rfl
@[simp] theorem State.setLevel_csN_cfgWidth (l : Level) : (s.setLevel .csN l).cfgWidth = s.cfgWidth := rfl
@[simp] theorem State.setLevel_csN_ready (l : Level) : (s.setLevel .csN l).ready = s.ready := rfl
@[simp] theorem State.setLevel_csN_busy (l : Level) : (s.setLevel .csN l).busy = s.busy := rfl
@[simp] theorem State.setLevel_csN_seq (l : Level) : (s.setLevel .csN l).seq = s.seq := rfl
@[simp] theorem State.setLevel_csN_csN (l : Level) : (s.setLevel .csN l).csN = l := rfl
@[simp] theorem State.setLevel_csN_ldacN (l : Level) : (s.setLevel .csN l).ldacN = s.ldacN := rfl
@[simp] theorem State.setLevel_csN_dev (l : Level) : (s.setLevel .csN l).dev = s.dev.observe s.draws (.pin .csN l) := rfl
@[simp] theorem State.setLevel_csN_inputs (l : Level) : (s.setLevel .csN l).inputs = s.inputs := rfl
@[simp] theorem State.setLevel_csN_answers (l : Level) : (s.setLevel .csN l).answers = s.answers := rfl
@[simp] theorem State.setLevel_csN_holds (l : Level) : (s.setLevel .csN l).holds = s.holds := rfl
@[simp] theorem State.setLevel_csN_trace (l : Level) : (s.setLevel .csN l).trace = s.trace ++ [.pin .csN l] := rfl
@[simp] theorem State.setLevel_csN_responses (l : Level) : (s.setLevel .csN l).responses = s.responses := rfl
@[simp] theorem State.setLevel_csN_draws (l : Level) : (s.setLevel .csN l).draws = s.draws + 1 := rfl
@[simp] theorem State.setLevel_csN_cutAt (l : Level) : (s.setLevel .csN l).cutAt = s.cutAt := rfl
@[simp] theorem State.setLevel_ldacN_cfgVref (l : Level) : (s.setLevel .ldacN l).cfgVref = s.cfgVref := rfl
@[simp] theorem State.setLevel_ldacN_cfgWidth (l : Level) : (s.setLevel .ldacN l).cfgWidth = s.cfgWidth := rfl
@[simp] theorem State.setLevel_ldacN_ready (l : Level) : (s.setLevel .ldacN l).ready = s.ready := rfl
@[simp] theorem State.setLevel_ldacN_busy (l : Level) : (s.setLevel .ldacN l).busy = s.busy := rfl
@[simp] theorem State.setLevel_ldacN_seq (l : Level) : (s.setLevel .ldacN l).seq = s.seq := rfl
@[simp] theorem State.setLevel_ldacN_csN (l : Level) : (s.setLevel .ldacN l).csN = s.csN := rfl
@[simp] theorem State.setLevel_ldacN_ldacN (l : Level) : (s.setLevel .ldacN l).ldacN = l := rfl
@[simp] theorem State.setLevel_ldacN_dev (l : Level) : (s.setLevel .ldacN l).dev = s.dev.observe s.draws (.pin .ldacN l) := rfl
@[simp] theorem State.setLevel_ldacN_inputs (l : Level) : (s.setLevel .ldacN l).inputs = s.inputs := rfl
@[simp] theorem State.setLevel_ldacN_answers (l : Level) : (s.setLevel .ldacN l).answers = s.answers := rfl
@[simp] theorem State.setLevel_ldacN_holds (l : Level) : (s.setLevel .ldacN l).holds = s.holds := rfl
@[simp] theorem State.setLevel_ldacN_trace (l : Level) : (s.setLevel .ldacN l).trace = s.trace ++ [.pin .ldacN l] := rfl
@[simp] theorem State.setLevel_ldacN_responses (l : Level) : (s.setLevel .ldacN l).responses = s.responses := rfl
@[simp] theorem State.setLevel_ldacN_draws (l : Level) : (s.setLevel .ldacN l).draws = s.draws + 1 := rfl
@[simp] theorem State.setLevel_ldacN_cutAt (l : Level) : (s.setLevel .ldacN l).cutAt = s.cutAt := rfl

@[simp] theorem State.fmt_eq : s.fmt = s.cfgVref.fmt := rfl

end Sys2Proof.Machine
end

