-- ==== Sys2Proof/Laws/Ops.lean ====
section
/-!
SUPPORT. What each shared operation can do: the port, the conversion, sending a frame, and what the device makes of the events.
-/

-- Many small proofs one after another: elaborating them in parallel takes one large stack each.
set_option Elab.async false

namespace Sys2Proof.Machine
open Host (Outcome)

/-- A command word at the port of the block's own format runs. -/
theorem onPort_own (s : State) (f : Fmt) (body : State → Outcome State Fault Refusal) (h : f = s.fmt) :
    s.onPort f body = body s.accept := by rw [State.onPort, if_pos h.symm]

/-- A command word of another format is refused. -/
theorem onPort_foreign (s : State) (f : Fmt) (body : State → Outcome State Fault Refusal) (h : f ≠ s.fmt) :
    s.onPort f body = .refused .foreignFormat := by rw [State.onPort, if_neg (Ne.symm h)]

/-- A command that answers a next state ran, accepted, at the port of its own format. -/
theorem onPort_next {s t : State} {f : Fmt} {body : State → Outcome State Fault Refusal} (h : s.onPort f body = .next t) :
    f = s.fmt ∧ body s.accept = .next t := by
  unfold State.onPort at h
  split at h
  · exact ⟨by symm; assumption, h⟩
  · cases h

/-- Accepting a command does not change its conversion. -/
@[simp] theorem conversion_accept (s : State) (v : FpBits) : s.accept.conversion v = s.conversion v := rfl

/-- The conversion in a block that is not ready. -/
theorem conversion_notReady {s : State} (v : FpBits) (h : s.ready = false) : s.conversion v = .error .notReady := by
  simp [State.conversion, h]

/-- The conversion of a NaN, under the spec's policy. -/
theorem conversion_nan {s : State} {v : FpBits} (h : s.ready = true) (hv : v.value.isNan = true) :
    s.conversion v = .error .nanOperand := by
  simp [State.conversion, h, State.codeOf, hv, Config.nanPolicy, nanCode]

/-- The conversion of any other voltage. -/
theorem conversion_code {s : State} {v : FpBits} (h : s.ready = true) (hv : v.value.isNan = false) :
    s.conversion v = .ok (s.codeFor v) := by
  simp [State.conversion, h, State.codeOf, hv, State.codeFor]

/-- Only a NaN uses up a draw. -/
theorem converted_of_not_nan {s : State} {v : FpBits} (hv : v.value.isNan = false) : s.converted v = s := by
  simp [State.converted, hv]

/-- The three cases of a conversion. -/
theorem conversion_cases (s : State) (v : FpBits) :
    (s.ready = false ∧ s.conversion v = .error .notReady)
    ∨ (s.ready = true ∧ v.value.isNan = true ∧ s.conversion v = .error .nanOperand)
    ∨ (s.ready = true ∧ v.value.isNan = false ∧ s.conversion v = .ok (s.codeFor v)) := by
  cases hr : s.ready with
  | false => exact .inl ⟨rfl, conversion_notReady v hr⟩
  | true =>
    cases hv : v.value.isNan with
    | true => exact .inr (.inl ⟨rfl, rfl, conversion_nan hr hv⟩)
    | false => exact .inr (.inr ⟨rfl, rfl, conversion_code hr hv⟩)

/-- A hold lasts at least the minimum (20_memory.md R33). -/
theorem le_holdTime (s : State) : Config.tLdpwMin ≤ s.holdTime := Nat.le_add_right _ _

/-- The whole handshake whose transfer succeeds. -/
theorem handshake_ok (s : State) (bytes : List Byte) (code : Code) :
    ∃ t d, (afterFrame .ok (hsStep3 (hsStep2 bytes .ok (hsStep1 s)))).respond (Answer.result .ok) code = t
      ∧ Config.tLdpwMin ≤ d
      ∧ t = { s with
          busy := false, seq := 0, csN := .high, ldacN := .high, dev := t.dev, answers := s.answers.tail, holds := s.holds.tail
          trace := s.trace ++ goodHandshake bytes d
          responses := s.responses ++ [{ res := .success, code := code }]
          draws := s.draws + 6 } := by
  refine ⟨_, _, rfl, le_holdTime (hsStep4 (hsStep3 (hsStep2 bytes .ok (hsStep1 s)))), ?_⟩
  simp [afterFrame, latchPulse, hsStep1, hsStep2, hsStep3, hsStep4, hsStep5, hsStep6, State.setLevel, State.drive, State.emit,
    State.setSeq, State.transfer, State.delay, State.respond, goodHandshake, Answer.result]

/-- The whole handshake whose transfer fails. -/
theorem handshake_fail (s : State) (bytes : List Byte) (code : Code) :
    ∃ t, (afterFrame .fail (hsStep3 (hsStep2 bytes .fail (hsStep1 s)))).respond (Answer.result .fail) code = t
      ∧ t = { s with
          busy := false, seq := 0, csN := .high, ldacN := .high, dev := t.dev, answers := s.answers.tail
          trace := s.trace ++ failedHandshake bytes
          responses := s.responses ++ [{ res := .transferFailure, code := code }]
          draws := s.draws + 4 } := by
  refine ⟨_, rfl, ?_⟩
  simp [afterFrame, Config.latchOnFail, hsRestore, hsStep1, hsStep2, hsStep3, State.setLevel, State.drive, State.emit,
    State.setSeq, State.transfer, State.respond, failedHandshake, Answer.result]

/-- Accepting a command does not change the provider. -/
@[simp] theorem provider_accept (s : State) (bytes : List Byte) : s.accept.provider bytes = s.provider bytes := rfl

/-- Sending a frame to a provider that answers. -/
theorem sendFrame_answers {s : State} {bytes : List Byte} {a : Answer} (code : Code) (h : s.provider bytes = .answers a) :
    sendFrame bytes code s = .next ((afterFrame a (hsStep3 (hsStep2 bytes a (hsStep1 s)))).respond (Answer.result a) code) := by
  unfold State.provider at h
  simp only [sendFrame, h]

/-- Sending a frame to a provider that never answers. -/
theorem sendFrame_silent {s : State} {bytes : List Byte} (code : Code) (h : s.provider bytes = .silent) :
    sendFrame bytes code s = .fault .transferNeverAnswers := by
  unfold State.provider at h
  simp only [sendFrame, h]

/-- What sending a frame can answer. -/
theorem sendFrame_next {s t : State} {bytes : List Byte} {code : Code} (h : sendFrame bytes code s = .next t) :
    ∃ a, s.provider bytes = .answers a
      ∧ t = (afterFrame a (hsStep3 (hsStep2 bytes a (hsStep1 s)))).respond (Answer.result a) code := by
  cases hp : s.provider bytes with
  | silent => rw [sendFrame_silent code hp] at h; cases h
  | answers a => rw [sendFrame_answers code hp] at h; cases h; exact ⟨a, rfl, rfl⟩

/-! What the device makes of the block's events -/

/-! One equation for each event -/

@[simp] theorem observe_csN_low (n : ℕ) (d : Device) : d.observe n (.pin .csN .low) = d.onCsLow n := rfl
@[simp] theorem observe_csN_high (n : ℕ) (d : Device) : d.observe n (.pin .csN .high) = d.onCsHigh n := rfl
@[simp] theorem observe_ldacN_low (n : ℕ) (d : Device) : d.observe n (.pin .ldacN .low) = d.onLdacLow n := rfl
@[simp] theorem observe_ldacN_high (n : ℕ) (d : Device) : d.observe n (.pin .ldacN .high) = d.onLdacHigh n := rfl
@[simp] theorem observe_xfer (n : ℕ) (d : Device) (bytes : List Byte) (a : Answer) : d.observe n (.xfer bytes a) = d.onXfer n bytes a := rfl
@[simp] theorem observe_delay (n : ℕ) (d : Device) (t : ℕ) : d.observe n (.delay t) = d.onDelay n t := rfl

/-! A violation -/

@[simp] theorem violated_cs (n : ℕ) (d : Device) : (d.violated n).cs = d.cs.interrupted := rfl
@[simp] theorem violated_latch (n : ℕ) (d : Device) : (d.violated n).latch = d.latch.interrupted := rfl
@[simp] theorem violated_fresh (n : ℕ) (d : Device) : (d.violated n).fresh = false := rfl
@[simp] theorem violated_shift (n : ℕ) (d : Device) : (d.violated n).shift = d.shift := rfl
@[simp] theorem violated_out (n : ℕ) (d : Device) : (d.violated n).out = .lost (Config.freeOut n) := rfl

/-- A handshake at a device at rest commits the frame. -/
theorem handshake_ok_dev (s : State) (bytes : List Byte) (code : Code) (h : s.dev.AtRest) :
    ((afterFrame .ok (hsStep3 (hsStep2 bytes .ok (hsStep1 s)))).respond (Answer.result .ok) code).dev
      = { cs := .high, latch := .high, fresh := true, shift := .known bytes, out := .commit (s.draws + 5) (.known bytes) } := by
  have hm := le_holdTime (hsStep4 (hsStep3 (hsStep2 bytes .ok (hsStep1 s))))
  simp only [hsStep4, hsStep3, hsStep2, hsStep1] at hm
  simp [afterFrame, latchPulse, hsStep1, hsStep2, hsStep3, hsStep4, hsStep5, hsStep6, Device.onCsLow, Device.onXfer, Device.onCsHigh,
    Device.onLdacLow, Device.onDelay, Device.onLdacHigh, LatchPhase.isLow, h.1, h.2, hm]

/-- A failed handshake at a device at rest loses the frame and keeps the committed code. -/
theorem handshake_fail_dev (s : State) (bytes : List Byte) (code : Code) (h : s.dev.AtRest) :
    ((afterFrame .fail (hsStep3 (hsStep2 bytes .fail (hsStep1 s)))).respond (Answer.result .fail) code).dev
      = { s.dev with shift := .lost (Config.freeFrame (s.draws + 1)) } := by
  simp [afterFrame, Config.latchOnFail, hsRestore, hsStep1, hsStep2, hsStep3, Device.onCsLow, Device.onXfer, Device.onCsHigh,
    Device.onLdacHigh, LatchPhase.isLow, h.1, h.2]

/-- A line that has been driven high is known to be high. -/
theorem onCsHigh_cs (n : ℕ) (d : Device) : (d.onCsHigh n).cs = .high := by
  unfold Device.onCsHigh; split <;> first | rfl | assumption

/-- A line that has been driven high is known to be high. -/
theorem onLdacHigh_latch (n : ℕ) (d : Device) : (d.onLdacHigh n).latch = .high := by
  unfold Device.onLdacHigh; split <;> first | rfl | assumption

/-- Driving the latch line high leaves `CS_N` high. -/
theorem onLdacHigh_cs (n : ℕ) {d : Device} (h : d.cs = .high) : (d.onLdacHigh n).cs = .high := by
  unfold Device.onLdacHigh; split <;> simp [h, CsPhase.interrupted]

/-- After both lines have been driven high the device is at rest, wherever it was. -/
theorem both_high_atRest (s : State) : ((s.setLevel .csN .high).setLevel .ldacN .high).dev.AtRest :=
  ⟨onLdacHigh_cs _ (onCsHigh_cs _ _), onLdacHigh_latch _ _⟩

/-- A device at rest sees nothing new when both lines are driven high (20_memory.md R41). -/
theorem both_high_dev {s : State} (h : s.dev.AtRest) : ((s.setLevel .csN .high).setLevel .ldacN .high).dev = s.dev := by
  simp [Device.onCsHigh, Device.onLdacHigh, h.1, h.2]

/-- A device that is not selected takes a frame by itself into `DEV_SHIFT`; the order is violated where the latch is low. -/
theorem receive_eq (n : ℕ) (d : Device) (bytes : List Byte) (h : d.cs = .high ∨ d.cs = .unknown) :
    d.receive n bytes
      = { (if d.latch.isLow then d.violated n else d) with cs := .high, fresh := true, shift := .known bytes } := by
  rcases h with h | h <;> simp [Device.receive, Device.onCsLow, Device.onXfer, Device.onCsHigh, h]

/-- The device at rest keeps all but the frame. -/
theorem receive_atRest (n : ℕ) {d : Device} (bytes : List Byte) (h : d.AtRest) :
    d.receive n bytes = { d with fresh := true, shift := .known bytes } := by
  rw [receive_eq n d bytes (.inl h.1)]; simp [h.1, h.2, LatchPhase.isLow]

/-- Everything that can happen to `DEV_SHIFT`: a whole frame writes it, a failed transfer loses it. -/
theorem observe_shift (n : ℕ) (d : Device) (e : Event) :
    (d.observe n e).shift = d.shift
    ∨ (∃ bytes, e = .pin .csN .high ∧ d.cs = .framed bytes ∧ (d.observe n e).shift = .known bytes)
    ∨ (∃ bytes, e = .xfer bytes .fail ∧ (d.observe n e).shift = .lost (Config.freeFrame n)) := by
  rcases e with ⟨_ | _, _ | _⟩ | ⟨bytes, _ | _⟩ | t
  · refine .inl ?_
    simp only [observe_csN_low, Device.onCsLow]; split <;> try rfl
    all_goals dsimp only; split <;> rfl
  · simp only [observe_csN_high, Device.onCsHigh]
    split <;> first | exact .inl rfl | exact .inr (.inl ⟨_, trivial, by assumption, rfl⟩)
  · refine .inl ?_
    simp only [observe_ldacN_low, Device.onLdacLow]; split <;> (try split) <;> rfl
  · refine .inl ?_
    simp only [observe_ldacN_high, Device.onLdacHigh]; split <;> rfl
  · refine .inl ?_
    simp only [observe_xfer, Device.onXfer]; split <;> rfl
  · exact .inr (.inr ⟨_, rfl, rfl⟩)
  · refine .inl ?_
    simp only [observe_delay, Device.onDelay]; split <;> rfl

/-- The latch commits the code of a frame the device holds. -/
theorem commit_pack (n : ℕ) (w : Width) (c : Code) :
    DevReg.commit n (.known (pack w c))
      = .known (match w with | .w20 => c.setWidth 20 | .w16 => (c.setWidth 16).setWidth 20) := by
  cases w <;> simp [DevReg.commit, DevReg.known, unpack_pack]

/-- A handshake after a command that only answered is the same handshake, with one response more. -/
theorem handshake_answered (s : State) (a : Answer) (bytes : List Byte) (r r' : Res) (c c' : Code) :
    ((afterFrame a (hsStep3 (hsStep2 bytes a (hsStep1 (s.answered r' c').accept)))).respond r c)
      = { ((afterFrame a (hsStep3 (hsStep2 bytes a (hsStep1 s.accept)))).respond r c') with
          responses := s.responses ++ [{ res := r', code := c' }] ++ [{ res := r, code := c }] } := by
  cases a <;> simp [afterFrame, latchPulse, hsStep1, hsStep2, hsStep3, hsStep4, hsStep5, hsStep6, hsRestore, Config.latchOnFail,
    State.setLevel, State.drive, State.emit, State.setSeq, State.transfer, State.delay, State.respond, State.answered,
    State.accept, State.holdTime]

/-! The trace monitor -/

/-- A monitored trace can be cut anywhere. -/
theorem monitor_append (m : Mon) (es fs : List Event) :
    monitor m (es ++ fs) = (monitor m es).bind fun m' => monitor m' fs := by
  induction es generalizing m with
  | nil => rfl
  | cons e es ih => simp only [List.cons_append, monitor, Option.bind_assoc]; congr 1; funext m'; exact ih m'

/-- A successful handshake is ordered. -/
theorem monitor_goodHandshake (bytes : List Byte) {d : ℕ} (h : Config.tLdpwMin ≤ d) :
    monitor .quiet (goodHandshake bytes d) = some .quiet := by
  simp [monitor, goodHandshake, Mon.next, h]

/-- A failed handshake is ordered. -/
theorem monitor_failedHandshake (bytes : List Byte) : monitor .quiet (failedHandshake bytes) = some .quiet := by
  simp [monitor, failedHandshake, Mon.next]

end Sys2Proof.Machine
end

