-- ==== Sys2Proof/Laws/Exec.lean ====
section
/-!
SUPPORT. Each command of the block's own format is its body on the accepted state, and what each body is in each case.
-/

-- Many small proofs one after another: elaborating them in parallel takes one large stack each.
set_option Elab.async false

namespace Sys2Proof.Machine
open Host (Outcome)

/-- `INIT` of the block's format. -/
theorem exec_initOf {s : State} {w : Width} {v : FpBits} (h : v.fmt = s.fmt) :
    exec (.initOf w v) s = initBody w v s.accept := by
  cases v <;> exact onPort_own s _ _ h

/-- `VTOC` of the block's format. -/
theorem exec_vtocOf {s : State} {x : BitVec 1} {v : FpBits} (h : v.fmt = s.fmt) :
    exec (.vtocOf x v) s = vtocBody v s.accept := by
  cases v <;> exact onPort_own s _ _ h

/-- `SENDCODE` of the block's format. -/
theorem exec_sendcodeOf {s : State} {f : Fmt} {x : BitVec 1} {hi : BitVec 32} {c : Code} (h : f = s.fmt) :
    exec (.sendcodeOf f x hi c) s = sendcodeBody c s.accept := by
  cases f <;> exact onPort_own s _ _ h

/-- `SETVOLTAGE` of the block's format. -/
theorem exec_setvoltageOf {s : State} {x : BitVec 1} {v : FpBits} (h : v.fmt = s.fmt) :
    exec (.setvoltageOf x v) s = setvoltageBody v s.accept := by
  cases v <;> exact onPort_own s _ _ h

/-- A response to an accepted command that did nothing else. -/
theorem respond_accept (s : State) (r : Res) (c : Code) : s.accept.respond r c = s.answered r c := rfl

/-- SENDCODE in a block that is not ready. -/
theorem sendcodeBody_notReady {s : State} (c : Code) (h : s.ready = false) :
    sendcodeBody c s = .next (s.respond .notReady 0) := if_neg (by simp [h])

/-- SENDCODE in a ready block sends the packed code. -/
theorem sendcodeBody_ready {s : State} (c : Code) (h : s.ready = true) :
    sendcodeBody c s = sendFrame (pack s.cfgWidth c) 0 s := if_pos h

/-- SETVOLTAGE whose conversion has an error only answers. -/
theorem setvoltageBody_error {s : State} {v : FpBits} {r : Res} (h : s.conversion v = .error r) :
    setvoltageBody v s = .next (s.respond r 0) := by simp only [setvoltageBody, h]

/-- SETVOLTAGE of a voltage that is not NaN in a ready block sends the packed code. -/
theorem setvoltageBody_code {s : State} {v : FpBits} (h : s.ready = true) (hv : v.value.isNan = false) :
    setvoltageBody v s = sendFrame (pack s.cfgWidth (s.codeFor v)) (s.codeFor v) s := by
  simp only [setvoltageBody, conversion_code h hv, converted_of_not_nan hv]

/-- VTOC whose conversion has an error only answers. -/
theorem vtocBody_error {s : State} {v : FpBits} {r : Res} (h : s.conversion v = .error r) :
    vtocBody v s = .next (s.respond r 0) := by simp only [vtocBody, h]

/-- VTOC of a voltage that is not NaN in a ready block answers its code. -/
theorem vtocBody_code {s : State} {v : FpBits} (h : s.ready = true) (hv : v.value.isNan = false) :
    vtocBody v s = .next (s.respond .success (s.codeFor v)) := by
  simp only [vtocBody, conversion_code h hv, converted_of_not_nan hv]

/-- What a command that answers a next state did: it only answered, it was an INIT, or it sent a frame. -/
inductive Did (s t : State) : Prop where
  | answered (r : Res) (c : Code) (h : t = s.answered r c)
  | initFailed (h : t = { s with ready := false }.answered .invalidConfiguration 0)
  | initDone (w : Width) (v : FpBits) (hf : v.fmt = s.fmt) (hv : configValid v = true)
      (h : t = ((((s.accept.setCfg v w).setLevel .csN .high).setLevel .ldacN .high).setReady true).respond .success 0)
  | sent (a : Answer) (bytes : List Byte) (c : Code) (hr : s.ready = true) (hp : s.provider bytes = .answers a)
      (h : t = (afterFrame a (hsStep3 (hsStep2 bytes a (hsStep1 s.accept)))).respond (Answer.result a) c)
  | received (bytes : List Byte) (h : t = s.deviceReceives bytes)

/-- An INIT that answers a next state. -/
theorem initBody_did {s t : State} {w : Width} {v : FpBits} (hf : v.fmt = s.fmt) (h : initBody w v s.accept = .next t) :
    Did s t := by
  unfold initBody at h
  split at h
  · cases h; exact .initDone w v hf (by assumption) rfl
  · cases h; exact .initFailed rfl

/-- A VTOC that answers a next state. -/
theorem vtocBody_did {s t : State} {v : FpBits} (h : vtocBody v s.accept = .next t) : Did s t := by
  rcases conversion_cases s.accept v with ⟨_, hc⟩ | ⟨_, _, hc⟩ | ⟨hr, hv, _⟩
  · rw [vtocBody_error hc] at h; cases h; exact .answered _ _ rfl
  · rw [vtocBody_error hc] at h; cases h; exact .answered _ _ rfl
  · rw [vtocBody_code hr hv] at h; cases h; exact .answered _ _ rfl

/-- A frame sent from a ready block. -/
theorem sendFrame_did {s t : State} {bytes : List Byte} {c : Code} (hr : s.ready = true) (h : sendFrame bytes c s.accept = .next t) :
    Did s t := by
  obtain ⟨a, hp, rfl⟩ := sendFrame_next h
  exact .sent a bytes c hr hp rfl

/-- A SENDCODE that answers a next state. -/
theorem sendcodeBody_did {s t : State} {c : Code} (h : sendcodeBody c s.accept = .next t) : Did s t := by
  cases hr : s.ready with
  | false => rw [sendcodeBody_notReady c (s := s.accept) hr] at h; cases h; exact .answered _ _ rfl
  | true => rw [sendcodeBody_ready c (s := s.accept) hr] at h; exact sendFrame_did hr h

/-- A SETVOLTAGE that answers a next state. -/
theorem setvoltageBody_did {s t : State} {v : FpBits} (h : setvoltageBody v s.accept = .next t) : Did s t := by
  rcases conversion_cases s.accept v with ⟨_, hc⟩ | ⟨_, _, hc⟩ | ⟨hr, hv, _⟩
  · rw [setvoltageBody_error hc] at h; cases h; exact .answered _ _ rfl
  · rw [setvoltageBody_error hc] at h; cases h; exact .answered _ _ rfl
  · rw [setvoltageBody_code hr hv] at h; exact sendFrame_did hr h

/-- Everything an instruction can do. -/
theorem exec_did {i : Instr} {s t : State} (h : exec i s = .next t) : Did s t := by
  cases i with
  | init32 w v => have := onPort_next h; exact initBody_did (v := .b32 v) this.1 this.2
  | init64 w v => have := onPort_next h; exact initBody_did (v := .b64 v) this.1 this.2
  | vtoc32 x v => exact vtocBody_did (onPort_next h).2
  | vtoc64 x v => exact vtocBody_did (onPort_next h).2
  | sendcode32 x c => exact sendcodeBody_did (onPort_next h).2
  | sendcode64 x hi c => exact sendcodeBody_did (onPort_next h).2
  | setvoltage32 x v => exact setvoltageBody_did (onPort_next h).2
  | setvoltage64 x v => exact setvoltageBody_did (onPort_next h).2
  | frame24 d p => cases h; exact .received _ rfl
  | frame16 d => cases h; exact .received _ rfl

/-- A raw word of a frame's length decodes to a frame, and of a command word's length to a command. -/
theorem isFrame_of_decode {p : PortWord} {i : Instr} (h : decode p = .ok i) : p.isFrame = !i.isCommand := by
  rcases p with ⟨len, val⟩
  unfold decode at h
  dsimp only at h
  split at h <;> (try split_ifs at h) <;> cases h
  · rfl
  · rfl
  · unfold decodeCmd35; dsimp only; split_ifs <;> rfl
  · unfold decodeCmd67; dsimp only; split_ifs <;> rfl

/-- A word that is taken and answers a next state is one of the block. -/
theorem onWord_next {p : PortWord} {run : Instr → State → Outcome State Fault Refusal} {s t : State} (h : onWord p run s = .next t) :
    ∃ i, decode p = .ok i ∧ run i s = .next t := by
  unfold onWord at h
  split at h
  · exact ⟨_, by assumption, h⟩
  · cases h

/-- What a step did that answers a next state: it waited, it reset, it ran an instruction, or it cut one off. -/
inductive Took (s t : State) : Prop where
  | waited (h : t = s)
  | reset (rest : List Input) (hi : s.inputs = .reset :: rest) (h : t = { s with inputs := rest }.applyReset)
  | ran (p : PortWord) (rest : List Input) (i : Instr) (hi : s.inputs = .word p :: rest) (hd : decode p = .ok i)
      (h : exec i { s with inputs := rest } = .next t)
  | resetWhileWaiting (p : PortWord) (k : ℕ) (rest : List Input) (hi : s.inputs = .cut p k :: rest)
      (h : t = { s with inputs := .word p :: rest }.applyReset)
  | cut (p : PortWord) (k : ℕ) (rest : List Input) (i : Instr) (hi : s.inputs = .cut p k :: rest) (hd : decode p = .ok i)
      (h : execCut k i { s with inputs := rest } = .next t)

/-- Everything a step can do. -/
theorem step_did {s t : State} (h : step s = .next t) : Took s t := by
  unfold step takeInput at h
  split at h
  · cases h; exact .waited rfl
  · cases h; exact .reset _ (by assumption) rfl
  · split at h
    · cases h; exact .waited rfl
    · obtain ⟨i, hd, he⟩ := onWord_next h
      exact .ran _ _ i (by assumption) hd he
  · split at h
    · cases h; exact .resetWhileWaiting _ _ _ (by assumption) rfl
    · obtain ⟨i, hd, he⟩ := onWord_next h
      exact .cut _ _ _ i (by assumption) hd he

end Sys2Proof.Machine
end

