-- ==== Sys2Proof/Laws/Cut.lean ====
section
/-!
SUPPORT. What a running command looks like between two of its events, and what a reset that cuts it off can leave.
-/

-- Many small proofs one after another: elaborating them in parallel takes one large stack each.
set_option Elab.async false

namespace Sys2Proof.Machine
open Host (Outcome)

/-- The moment `m` of a command that began in `s`, after the events `es`: still running, in its block's format, no response given. -/
structure Running (s m : State) (es : List Event) : Prop where
  trace : m.trace = s.trace ++ es
  responses : m.responses = s.responses
  fmt : m.fmt = s.fmt
  busy : m.busy = s.busy
  inputs : m.inputs = s.inputs

/-- The states that follow `s`, one for each of the events `es`. -/
def Follows (s : State) : List State → List Event → Prop
  | [], es => es = []
  | m :: later, es => ∃ e rest, es = e :: rest ∧ Running s m [e] ∧ Follows m later rest

theorem Running.refl (s : State) : Running s s [] := ⟨by simp, rfl, rfl, rfl, rfl⟩

theorem Running.trans {s m n : State} {es fs : List Event} (h : Running s m es) (g : Running m n fs) : Running s n (es ++ fs) :=
  ⟨by rw [g.trace, h.trace, List.append_assoc], g.responses.trans h.responses, g.fmt.trans h.fmt, g.busy.trans h.busy,
    g.inputs.trans h.inputs⟩

/-- The moment after `k` events has exactly the first `k` events behind it. -/
theorem momentAt_running {s : State} {later : List State} {es : List Event} (h : Follows s later es) (k : ℕ) :
    Running s (momentAt s later k) (es.take k) := by
  induction later generalizing s es k with
  | nil => cases h; simpa [momentAt] using Running.refl s
  | cons m later ih =>
    obtain ⟨e, rest, rfl, hm, hl⟩ := h
    cases k with
    | zero => simpa [momentAt] using Running.refl s
    | succ k => simpa [momentAt] using hm.trans (ih hl k)

/-- No event more. -/
theorem Follows.nil (s : State) : Follows s [] [] := rfl

/-- One event more. -/
theorem Follows.cons {s m : State} {later : List State} {e : Event} {es : List Event} (h : Running s m [e]) (g : Follows m later es) :
    Follows s (m :: later) (e :: es) := ⟨e, es, rfl, h, g⟩

/-! Each step of the handshake is one event of the running command -/

theorem hsStep1_running (s : State) : Running s (hsStep1 s) [.pin .csN .low] := by constructor <;> simp [hsStep1]
theorem hsStep2_running (s : State) (bytes : List Byte) (a : Answer) : Running s (hsStep2 bytes a s) [.xfer bytes a] := by
  constructor <;> simp [hsStep2]
theorem hsStep3_running (s : State) : Running s (hsStep3 s) [.pin .csN .high] := by constructor <;> simp [hsStep3]
theorem hsStep4_running (s : State) : Running s (hsStep4 s) [.pin .ldacN .low] := by constructor <;> simp [hsStep4]
theorem hsStep5_running (s : State) : Running s (hsStep5 s) [.delay s.holdTime] := by constructor <;> simp [hsStep5]
theorem hsStep6_running (s : State) : Running s (hsStep6 s) [.pin .ldacN .high] := by constructor <;> simp [hsStep6]
theorem hsRestore_running (s : State) : Running s (hsRestore s) [.pin .ldacN .high] := by constructor <;> simp [hsRestore]
theorem setLevel_running (s : State) (p : Pin) (l : Level) : Running s (s.setLevel p l) [.pin p l] := by
  cases p <;> constructor <;> simp

/-- The states of a successful handshake. -/
theorem sendMoments_ok {s : State} {bytes : List Byte} (h : s.provider bytes = .answers .ok) :
    Follows s (sendMoments bytes s) (goodHandshake bytes (hsStep4 (hsStep3 (hsStep2 bytes .ok (hsStep1 s)))).holdTime) := by
  unfold State.provider at h
  rw [sendMoments, h]
  exact .cons (hsStep1_running s) (.cons (hsStep2_running _ bytes .ok) (.cons (hsStep3_running _) (.cons (hsStep4_running _)
    (.cons (hsStep5_running _) (.cons (hsStep6_running _) (.nil _))))))

/-- The states of a handshake whose transfer fails. -/
theorem sendMoments_fail {s : State} {bytes : List Byte} (h : s.provider bytes = .answers .fail) :
    Follows s (sendMoments bytes s) (failedHandshake bytes) := by
  unfold State.provider at h
  rw [sendMoments, h]
  exact .cons (hsStep1_running s) (.cons (hsStep2_running _ bytes .fail) (.cons (hsStep3_running _) (.cons (hsRestore_running _) (.nil _))))

/-- A handshake whose transfer is never answered ends after its first event. -/
theorem sendMoments_silent {s : State} {bytes : List Byte} (h : s.provider bytes = .silent) :
    Follows s (sendMoments bytes s) [.pin .csN .low] := by
  unfold State.provider at h
  rw [sendMoments, h]
  exact .cons ⟨by simp [hsStep1], rfl, rfl, rfl, rfl⟩ (.nil _)

/-- The events of a handshake, whatever the provider does. -/
theorem sendMoments_follows (s : State) (bytes : List Byte) : ∃ es, Follows s (sendMoments bytes s) es := by
  rcases h : s.provider bytes with (_ | _) | _
  · exact ⟨_, sendMoments_ok h⟩
  · exact ⟨_, sendMoments_fail h⟩
  · exact ⟨_, sendMoments_silent h⟩

/-- INIT between two events. -/
theorem initMoment_running {s : State} {w : Width} {v : FpBits} (hf : v.fmt = s.fmt) (k : ℕ) :
    Running s (initMoment w v k s) (if configValid v then [Event.pin .csN .high, .pin .ldacN .high].take k else []) := by
  unfold initMoment
  split
  · have h0 : Running s (s.setCfg v w) [] := ⟨by simp, rfl, hf, rfl, rfl⟩
    exact h0.trans (momentAt_running (.cons (setLevel_running _ .csN .high) (.cons (setLevel_running _ .ldacN .high) (.nil _))) k)
  · exact ⟨by simp, rfl, rfl, rfl, rfl⟩

/-- A conversion leaves the state but for a draw. -/
theorem converted_running (s : State) (v : FpBits) : Running s (s.converted v) [] := by
  unfold State.converted
  split
  · exact ⟨by simp, rfl, rfl, rfl, rfl⟩
  · exact .refl s

/-- VTOC before its response. -/
theorem vtocMoment_running (s : State) (v : FpBits) : Running s (vtocMoment v s) [] := by
  unfold vtocMoment
  split
  · exact .refl s
  · exact converted_running s v

/-- SENDCODE between two events. -/
theorem sendcodeMoment_running (s : State) (c : Code) (k : ℕ) : ∃ es, Running s (sendcodeMoment c k s) es := by
  unfold sendcodeMoment
  split
  · obtain ⟨es, h⟩ := sendMoments_follows s (pack s.cfgWidth c)
    exact ⟨_, momentAt_running h k⟩
  · exact ⟨_, .refl s⟩

/-- SETVOLTAGE between two events. -/
theorem setvoltageMoment_running (s : State) (v : FpBits) (k : ℕ) : ∃ es, Running s (setvoltageMoment v k s) es := by
  unfold setvoltageMoment
  split
  · exact ⟨_, .refl s⟩
  · obtain ⟨es, h⟩ := sendMoments_follows (s.converted v) (pack s.cfgWidth _)
    exact ⟨_, (converted_running s v).trans (momentAt_running h k)⟩

/-- A command cut off at its port ran and was reset in its moment. -/
theorem cutOnPort_next {s t : State} {f : Fmt} {m : State → State} (h : s.cutOnPort f m = .next t) :
    f = s.fmt ∧ t = (m s.accept).applyReset := by
  obtain ⟨hf, h⟩ := onPort_next h
  cases h
  exact ⟨hf, rfl⟩

/-- Everything a reset that cuts off an instruction can leave: the reset of a moment of the running command, or, for a frame row, the
reset of the state in which the device has the frame. -/
theorem execCut_did {s t : State} {k : ℕ} {i : Instr} (h : execCut k i s = .next t) :
    (i.isCommand = true ∧ ∃ m es, Running s.accept m es ∧ t = m.applyReset)
    ∨ (i.isCommand = false ∧ ∃ bytes, t = (s.deviceReceives bytes).applyReset) := by
  cases i with
  | init32 w v =>
    obtain ⟨hf, rfl⟩ := cutOnPort_next h
    exact .inl ⟨rfl, _, _, initMoment_running (v := .b32 v) (s := s.accept) hf k, rfl⟩
  | init64 w v =>
    obtain ⟨hf, rfl⟩ := cutOnPort_next h
    exact .inl ⟨rfl, _, _, initMoment_running (v := .b64 v) (s := s.accept) hf k, rfl⟩
  | vtoc32 x v => exact .inl ⟨rfl, _, _, vtocMoment_running s.accept (.b32 v), (cutOnPort_next h).2⟩
  | vtoc64 x v => exact .inl ⟨rfl, _, _, vtocMoment_running s.accept (.b64 v), (cutOnPort_next h).2⟩
  | sendcode32 x c =>
    exact .inl ⟨rfl, _, (sendcodeMoment_running s.accept c k).imp fun _ hr => ⟨hr, (cutOnPort_next h).2⟩⟩
  | sendcode64 x hi c =>
    exact .inl ⟨rfl, _, (sendcodeMoment_running s.accept c k).imp fun _ hr => ⟨hr, (cutOnPort_next h).2⟩⟩
  | setvoltage32 x v =>
    exact .inl ⟨rfl, _, (setvoltageMoment_running s.accept (.b32 v) k).imp fun _ hr => ⟨hr, (cutOnPort_next h).2⟩⟩
  | setvoltage64 x v =>
    exact .inl ⟨rfl, _, (setvoltageMoment_running s.accept (.b64 v) k).imp fun _ hr => ⟨hr, (cutOnPort_next h).2⟩⟩
  | frame24 d p => cases h; exact .inr ⟨rfl, _, rfl⟩
  | frame16 d => cases h; exact .inr ⟨rfl, _, rfl⟩

/-- What a reset leaves of the state it comes in. -/
theorem applyReset_resetTo (s : State) : s.ResetTo s.applyReset :=
  ⟨rfl, rfl, rfl, by cases h : s.cfgVref <;> simp [h, Fmt.freeVref, FpBits.fmt], rfl, rfl, rfl⟩

end Sys2Proof.Machine
end

