-- ==== Sys2Proof/Laws/Decode.lean ====
section
/-!
SUPPORT. The fields of a concatenation are its parts, a word is the concatenation of its fields, and what the decoder and the
encoder do with a word of each format.
-/

namespace Sys2Proof

/-! The fields of a concatenation -/

theorem op_of_cmd35 (op : BitVec 2) (w : BitVec 1) (arg : BitVec 32) : (op ++ w ++ arg).extractLsb' 33 2 = op := by
  ext i hi; simp; grind

theorem w_of_cmd35 (op : BitVec 2) (w : BitVec 1) (arg : BitVec 32) : (op ++ w ++ arg).extractLsb' 32 1 = w := by
  ext i hi; simp; grind

theorem arg_of_cmd35 (op : BitVec 2) (w : BitVec 1) (arg : BitVec 32) : (op ++ w ++ arg).extractLsb' 0 32 = arg := by
  ext i hi; simp; grind

theorem op_of_cmd67 (op : BitVec 2) (w : BitVec 1) (arg : BitVec 64) : (op ++ w ++ arg).extractLsb' 65 2 = op := by
  ext i hi; simp; grind

theorem w_of_cmd67 (op : BitVec 2) (w : BitVec 1) (arg : BitVec 64) : (op ++ w ++ arg).extractLsb' 64 1 = w := by
  ext i hi; simp; grind

theorem arg_of_cmd67 (op : BitVec 2) (w : BitVec 1) (arg : BitVec 64) : (op ++ w ++ arg).extractLsb' 0 64 = arg := by
  ext i hi; simp; grind

theorem hi_of_arg64 (hi c : BitVec 32) : (hi ++ c).extractLsb' 32 32 = hi := by
  ext i h; rw [BitVec.getElem_extractLsb', BitVec.getLsbD_append]; grind

theorem lo_of_arg64 (hi c : BitVec 32) : (hi ++ c).extractLsb' 0 32 = c := by
  ext i h; rw [BitVec.getElem_extractLsb', BitVec.getLsbD_append]; grind

theorem data_of_frame24 (d : BitVec 20) (p : BitVec 4) : (d ++ p).extractLsb' 4 20 = d := by
  ext i h; rw [BitVec.getElem_extractLsb', BitVec.getLsbD_append]; grind

theorem pad_of_frame24 (d : BitVec 20) (p : BitVec 4) : (d ++ p).extractLsb' 0 4 = p := by
  ext i h; rw [BitVec.getElem_extractLsb', BitVec.getLsbD_append]; grind

/-! A word is the concatenation of its fields -/

theorem fields_of_cmd35 (b : BitVec 35) : b.extractLsb' 33 2 ++ b.extractLsb' 32 1 ++ b.extractLsb' 0 32 = b := by
  ext i hi; simp; grind

theorem fields_of_cmd67 (b : BitVec 67) : b.extractLsb' 65 2 ++ b.extractLsb' 64 1 ++ b.extractLsb' 0 64 = b := by
  ext i hi; simp; grind

theorem halves_of_arg64 (b : BitVec 64) : b.extractLsb' 32 32 ++ b.extractLsb' 0 32 = b := by
  ext i hi; simp; grind

theorem fields_of_frame24 (b : BitVec 24) : b.extractLsb' 4 20 ++ b.extractLsb' 0 4 = b := by
  ext i hi; simp; grind

/-- The width bit and the width are the same thing (10_state.md R12). -/
@[simp] theorem Width.toBit_ofBit : ∀ b : BitVec 1, (Width.ofBit b).toBit = b := by decide

@[simp] theorem Width.ofBit_toBit (w : Width) : Width.ofBit w.toBit = w := by cases w <;> rfl

/-- The fourth opcode is the only one left (30_encoding.md R51, R60). -/
theorem op_three : ∀ op : BitVec 2, op ≠ 0#2 → op ≠ 1#2 → op ≠ 2#2 → op = 3#2 := by decide

/-- A 35-bit command word reaches its decoder. -/
theorem decode_cmd35 (op : BitVec 2) (w : BitVec 1) (arg : BitVec 32) :
    decode (cmd35 op w arg) = .ok (decodeCmd35 (op ++ w ++ arg)) := by
  simp only [decode, cmd35, BitVec.ofNat_toNat, BitVec.setWidth_eq]
  rw [if_pos (op ++ w ++ arg).isLt]

/-- A 67-bit command word reaches its decoder. -/
theorem decode_cmd67 (op : BitVec 2) (w : BitVec 1) (arg : BitVec 64) :
    decode (cmd67 op w arg) = .ok (decodeCmd67 (op ++ w ++ arg)) := by
  simp only [decode, cmd67, BitVec.ofNat_toNat, BitVec.setWidth_eq]
  rw [if_pos (op ++ w ++ arg).isLt]

/-- Encoding what a 35-bit word decodes to gives the word back. -/
theorem encode_decodeCmd35 (b : BitVec 35) : encode (decodeCmd35 b) = ⟨5, b.toNat⟩ := by
  have hc := fields_of_cmd35 b
  unfold decodeCmd35
  dsimp only
  split_ifs with h0 h1 h2
  · rw [encode, Width.toBit_ofBit, cmd35, ← h0, hc]
  · rw [encode, cmd35, ← h1, hc]
  · rw [encode, cmd35, ← h2, hc]
  · rw [encode, cmd35, ← op_three _ h0 h1 h2, hc]

/-- Encoding what a 67-bit word decodes to gives the word back. -/
theorem encode_decodeCmd67 (b : BitVec 67) : encode (decodeCmd67 b) = ⟨9, b.toNat⟩ := by
  have hc := fields_of_cmd67 b
  unfold decodeCmd67
  dsimp only
  split_ifs with h0 h1 h2
  · rw [encode, Width.toBit_ofBit, cmd67, ← h0, hc]
  · rw [encode, cmd67, ← h1, hc]
  · rw [encode, cmd67, halves_of_arg64, ← h2, hc]
  · rw [encode, cmd67, ← op_three _ h0 h1 h2, hc]

end Sys2Proof
end

