-- ==== Sys2Proof/Laws/Float.lean ====
section
/-!
SUPPORT. Rounding: the power of two, the binade of a number, rounding to an integer, rounding a magnitude.
-/

namespace Sys2Proof

theorem pow2_eq_zpow (k : ℤ) : pow2 k = (2 : ℚ) ^ k := by
  cases k with
  | ofNat n => simp [pow2]
  | negSucc n => simp only [pow2, Rat.mkRat_eq_div, zpow_negSucc]; push_cast; ring

theorem pow2_pos (k : ℤ) : 0 < pow2 k := by rw [pow2_eq_zpow]; positivity

theorem pow2_add (j k : ℤ) : pow2 (j + k) = pow2 j * pow2 k := by
  simp only [pow2_eq_zpow]; exact zpow_add₀ (by norm_num) j k

theorem pow2_le {j k : ℤ} (h : j ≤ k) : pow2 j ≤ pow2 k := by
  simp only [pow2_eq_zpow]; exact zpow_le_zpow_right₀ (by norm_num) h

theorem pow2_lt {j k : ℤ} (h : j < k) : pow2 j < pow2 k := by
  simp only [pow2_eq_zpow]; exact zpow_lt_zpow_right₀ (by norm_num) h

theorem pow2_natCast (n : ℕ) : pow2 (n : ℤ) = (2 : ℚ) ^ n := by simp [pow2_eq_zpow]

/-- A positive rational as a quotient of positive naturals. -/
theorem eq_div_of_pos {x : ℚ} (hx : 0 < x) : x = (x.num.toNat : ℚ) / (x.den : ℚ) ∧ 0 < x.num.toNat := by
  have hn : 0 < x.num := Rat.num_pos.2 hx
  refine ⟨?_, by omega⟩
  have : ((x.num.toNat : ℤ) : ℚ) = (x.num : ℚ) := by rw [Int.toNat_of_nonneg hn.le]
  rw [show (x.num.toNat : ℚ) = (x.num : ℚ) by exact_mod_cast this]
  exact (Rat.num_div_den x).symm

/-- `floorLog2` is the exponent of the binade. -/
theorem floorLog2_spec {x : ℚ} (hx : 0 < x) : pow2 (floorLog2 x) ≤ x ∧ x < pow2 (floorLog2 x + 1) := by
  obtain ⟨hxq, hn⟩ := eq_div_of_pos hx
  set n := x.num.toNat with hndef
  have hd : 0 < x.den := x.den_pos
  set d := x.den with hddef
  have hdq : (0 : ℚ) < d := by exact_mod_cast hd
  have hnq : (0 : ℚ) < n := by exact_mod_cast hn
  unfold floorLog2
  by_cases h : d ≤ n
  · rw [if_pos h]
    have hq : n / d ≠ 0 := (Nat.div_pos h hd).ne'
    have h1 : 2 ^ Nat.log2 (n / d) ≤ n / d := Nat.log2_self_le hq
    have h2 : n / d < 2 ^ (Nat.log2 (n / d) + 1) := Nat.lt_log2_self
    set L := Nat.log2 (n / d)
    have h1' : 2 ^ L * d ≤ n := (Nat.le_div_iff_mul_le hd).1 h1
    have h2' : n < 2 ^ (L + 1) * d := (Nat.div_lt_iff_lt_mul hd).1 h2
    refine ⟨?_, ?_⟩
    · rw [pow2_natCast, hxq, le_div_iff₀ hdq]; exact_mod_cast h1'
    · rw [show ((L : ℤ) + 1) = ((L + 1 : ℕ) : ℤ) by push_cast; ring, pow2_natCast, hxq, div_lt_iff₀ hdq]; exact_mod_cast h2'
  · rw [if_neg h]
    have hlt : n < d := not_le.1 h
    have hq : (d - 1) / n ≠ 0 := (Nat.div_pos (by omega) hn).ne'
    have h1 : 2 ^ Nat.log2 ((d - 1) / n) ≤ (d - 1) / n := Nat.log2_self_le hq
    have h2 : (d - 1) / n < 2 ^ (Nat.log2 ((d - 1) / n) + 1) := Nat.lt_log2_self
    set L := Nat.log2 ((d - 1) / n)
    have h1' : 2 ^ L * n < d := by
      have := (Nat.le_div_iff_mul_le hn).1 h1; omega
    have h2' : d ≤ 2 ^ (L + 1) * n := by
      have := (Nat.div_lt_iff_lt_mul hn).1 h2; omega
    have e1 : pow2 (-((L : ℤ) + 1)) = 1 / (2 : ℚ) ^ (L + 1) := by
      rw [pow2_eq_zpow, zpow_neg, show ((L : ℤ) + 1) = ((L + 1 : ℕ) : ℤ) by push_cast; ring, zpow_natCast, one_div]
    have e2 : pow2 (-((L : ℤ) + 1) + 1) = 1 / (2 : ℚ) ^ L := by
      rw [show -((L : ℤ) + 1) + 1 = -(L : ℤ) by ring, pow2_eq_zpow, zpow_neg, zpow_natCast, one_div]
    refine ⟨?_, ?_⟩
    · rw [e1, hxq, div_le_div_iff₀ (by positivity) hdq]
      have : ((d : ℕ) : ℚ) ≤ ((2 ^ (L + 1) * n : ℕ) : ℚ) := by exact_mod_cast h2'
      push_cast at this; linarith
    · rw [e2, hxq, div_lt_div_iff₀ hdq (by positivity)]
      have : ((2 ^ L * n : ℕ) : ℚ) < (d : ℚ) := by exact_mod_cast h1'
      push_cast at this; linarith

theorem floorLog2_mono {a b : ℚ} (ha : 0 < a) (h : a ≤ b) : floorLog2 a ≤ floorLog2 b := by
  have h1 := (floorLog2_spec ha).1
  have h2 := (floorLog2_spec (ha.trans_le h)).2
  by_contra hc
  have := pow2_le (show floorLog2 b + 1 ≤ floorLog2 a by omega)
  linarith

/-- What `roundHalfEven` answers: within half of `q`, and even at a tie. -/
theorem roundHalfEven_spec {q : ℚ} (hq : 0 ≤ q) :
    |q - roundHalfEven q| ≤ 1 / 2 ∧ (|q - roundHalfEven q| = 1 / 2 → roundHalfEven q % 2 = 0) := by
  have hd : 0 < q.den := q.den_pos
  have hdq : (0 : ℚ) < q.den := by exact_mod_cast hd
  have hn : 0 ≤ q.num := Rat.num_nonneg.2 hq
  have hqd : q * q.den = (q.num.toNat : ℚ) := by
    have : ((q.num.toNat : ℤ) : ℚ) = (q.num : ℚ) := by rw [Int.toNat_of_nonneg hn]
    have h2 : (q.num.toNat : ℚ) = (q.num : ℚ) := by exact_mod_cast this
    rw [h2]; exact Rat.mul_den_eq_num q
  have hdiv : q.den * (q.num.toNat / q.den) + q.num.toNat % q.den = q.num.toNat := Nat.div_add_mod _ _
  set n := q.num.toNat
  set d := q.den
  set lo := n / d with hlo
  set r := n % d with hr
  have hrl : r < d := Nat.mod_lt _ hd
  have e : q = lo + r / d := by
    have : (d : ℚ) * lo + r = n := by exact_mod_cast hdiv
    field_simp; linarith
  have half : ∀ a : ℚ, a / (d : ℚ) = 1 / 2 ↔ 2 * a = d := fun a => by
    rw [div_eq_div_iff hdq.ne' (by norm_num)]; constructor <;> intro h <;> linarith
  have hrq : (r : ℚ) / d < 1 := by rw [div_lt_one hdq]; exact_mod_cast hrl
  have hr0 : (0 : ℚ) ≤ (r : ℚ) / d := by positivity
  have key : ∀ k : ℕ, ((2 * r : ℕ) : ℚ) / d = 2 * ((r : ℚ) / d) := fun _ => by push_cast; ring
  unfold roundHalfEven
  simp only []
  rw [← hlo, ← hr]
  split_ifs with h1 h2 h3
  · have : (r : ℚ) / d < 1 / 2 := by
      rw [div_lt_div_iff₀ hdq (by norm_num)]
      have : ((2 * r : ℕ) : ℚ) < d := by exact_mod_cast h1
      push_cast at this; linarith
    rw [e, add_sub_cancel_left, abs_of_nonneg hr0]
    exact ⟨this.le, fun h => absurd h this.ne⟩
  · have : 1 / 2 < (r : ℚ) / d := by
      rw [div_lt_div_iff₀ (by norm_num) hdq]
      have : ((d : ℕ) : ℚ) < ((2 * r : ℕ) : ℚ) := by exact_mod_cast h2
      push_cast at this; linarith
    rw [e]
    push_cast
    rw [show (lo : ℚ) + r / d - (lo + 1) = -(1 - r / d) by ring, abs_neg, abs_of_nonneg (by linarith)]
    exact ⟨by linarith, fun h => by linarith⟩
  · have : (r : ℚ) / d = 1 / 2 := by
      rw [half]; have : 2 * r = d := by omega
      exact_mod_cast this
    rw [e, add_sub_cancel_left, abs_of_nonneg hr0, this]
    exact ⟨le_rfl, fun _ => h3⟩
  · have : (r : ℚ) / d = 1 / 2 := by
      rw [half]; have : 2 * r = d := by omega
      exact_mod_cast this
    rw [e]
    push_cast
    rw [show (lo : ℚ) + r / d - (lo + 1) = -(1 - r / d) by ring, abs_neg, this, abs_of_nonneg (by norm_num)]
    exact ⟨by norm_num, fun _ => by omega⟩

theorem roundHalfEven_natCast (n : ℕ) : roundHalfEven (n : ℚ) = n := by
  have h := (roundHalfEven_spec (q := (n : ℚ)) (by positivity)).1
  rw [abs_le] at h
  have h1 : ((roundHalfEven (n : ℚ) : ℕ) : ℚ) < n + 1 := by linarith [h.1]
  have h2 : (n : ℚ) < (roundHalfEven (n : ℚ) : ℕ) + 1 := by linarith [h.2]
  have h1' : roundHalfEven (n : ℚ) < n + 1 := by exact_mod_cast h1
  have h2' : n < roundHalfEven (n : ℚ) + 1 := by exact_mod_cast h2
  omega

theorem roundHalfEven_mono {a b : ℚ} (ha : 0 ≤ a) (h : a ≤ b) : roundHalfEven a ≤ roundHalfEven b := by
  obtain ⟨ha1, ha2⟩ := roundHalfEven_spec ha
  obtain ⟨hb1, hb2⟩ := roundHalfEven_spec (ha.trans h)
  by_contra hc
  push Not at hc
  have hc' : ((roundHalfEven b : ℕ) : ℚ) + 1 ≤ roundHalfEven a := by exact_mod_cast hc
  rw [abs_le] at ha1 hb1
  have e1 : a - roundHalfEven a = -(1 / 2) := by linarith [ha1.1, hb1.2]
  have e2 : b - roundHalfEven b = 1 / 2 := by linarith [ha1.1, hb1.2]
  have h3 := ha2 (by rw [e1]; norm_num)
  have h4 := hb2 (by rw [e2]; norm_num)
  have h5 : ((roundHalfEven a : ℕ) : ℚ) = roundHalfEven b + 1 := by linarith
  have h6 : roundHalfEven a = roundHalfEven b + 1 := by exact_mod_cast h5
  omega

theorem ulpExp_mono (f : Fmt) {a b : ℚ} (ha : 0 < a) (h : a ≤ b) : f.ulpExp a ≤ f.ulpExp b := by
  have := floorLog2_mono ha h
  unfold Fmt.ulpExp; omega

theorem one_le_precision (f : Fmt) : 1 ≤ f.precision := by cases f <;> decide

/-- `a` counted in its own last place is below `2 ^ p`. -/
theorem div_ulp_lt (f : Fmt) {a : ℚ} (ha : 0 < a) : a / pow2 (f.ulpExp a) < pow2 f.precision := by
  rw [div_lt_iff₀ (pow2_pos _), ← pow2_add]
  refine (floorLog2_spec ha).2.trans_le (pow2_le ?_)
  unfold Fmt.ulpExp; omega

/-- Rounding a magnitude is monotone. -/
theorem roundMag_mono (f : Fmt) {a b : ℚ} (ha : 0 < a) (h : a ≤ b) : f.roundMag a ≤ f.roundMag b := by
  have hb := ha.trans_le h
  unfold Fmt.roundMag
  rcases (ulpExp_mono f ha h).eq_or_lt with he | hlt
  · rw [he]
    have := roundHalfEven_mono (a := a / pow2 (f.ulpExp b)) (b := b / pow2 (f.ulpExp b)) (div_nonneg ha.le (pow2_pos _).le)
      (div_le_div_of_nonneg_right h (pow2_pos _).le)
    exact mul_le_mul_of_nonneg_right (by exact_mod_cast this) (pow2_pos _).le
  · -- the power of two that separates the two binades
    have hp := one_le_precision f
    have key : roundHalfEven (a / pow2 (f.ulpExp a)) ≤ 2 ^ f.precision.toNat := by
      have h1 : a / pow2 (f.ulpExp a) ≤ ((2 ^ f.precision.toNat : ℕ) : ℚ) := by
        have := (div_ulp_lt f ha).le
        rw [show f.precision = (f.precision.toNat : ℤ) by omega, pow2_natCast] at this
        exact_mod_cast this
      have := roundHalfEven_mono (div_nonneg ha.le (pow2_pos _).le) h1
      rwa [roundHalfEven_natCast] at this
    have key2 : 2 ^ (f.precision - 1).toNat ≤ roundHalfEven (b / pow2 (f.ulpExp b)) := by
      have h1 : ((2 ^ (f.precision - 1).toNat : ℕ) : ℚ) ≤ b / pow2 (f.ulpExp b) := by
        rw [le_div_iff₀ (pow2_pos _)]
        have e : ((2 ^ (f.precision - 1).toNat : ℕ) : ℚ) = pow2 (f.precision - 1) := by
          rw [show f.precision - 1 = ((f.precision - 1).toNat : ℤ) by omega, pow2_natCast]; simp
        rw [e, ← pow2_add]
        refine le_trans (pow2_le ?_) (floorLog2_spec hb).1
        unfold Fmt.ulpExp at hlt ⊢
        omega
      have := roundHalfEven_mono (by positivity) h1
      rwa [roundHalfEven_natCast] at this
    calc ((roundHalfEven (a / pow2 (f.ulpExp a)) : ℕ) : ℚ) * pow2 (f.ulpExp a)
        ≤ ((2 ^ f.precision.toNat : ℕ) : ℚ) * pow2 (f.ulpExp a) :=
          mul_le_mul_of_nonneg_right (by exact_mod_cast key) (pow2_pos _).le
      _ = pow2 (f.precision + f.ulpExp a) := by
          rw [pow2_add, show pow2 f.precision = ((2 ^ f.precision.toNat : ℕ) : ℚ) by
            conv_lhs => rw [show f.precision = (f.precision.toNat : ℤ) by omega, pow2_natCast]
            simp]
      _ ≤ pow2 (f.precision - 1 + f.ulpExp b) := pow2_le (by omega)
      _ = ((2 ^ (f.precision - 1).toNat : ℕ) : ℚ) * pow2 (f.ulpExp b) := by
          rw [pow2_add, show pow2 (f.precision - 1) = ((2 ^ (f.precision - 1).toNat : ℕ) : ℚ) by
            conv_lhs => rw [show f.precision - 1 = ((f.precision - 1).toNat : ℤ) by omega, pow2_natCast]
            simp]
      _ ≤ ((roundHalfEven (b / pow2 (f.ulpExp b)) : ℕ) : ℚ) * pow2 (f.ulpExp b) :=
          mul_le_mul_of_nonneg_right (by exact_mod_cast key2) (pow2_pos _).le

theorem roundMag_nonneg (f : Fmt) (a : ℚ) : 0 ≤ f.roundMag a := by
  unfold Fmt.roundMag; have := pow2_pos (f.ulpExp a); positivity

/-- A number of few enough significand bits, not below the last place, rounds to itself. -/
theorem roundMag_exact (f : Fmt) (m : ℕ) (k : ℤ) (h : f.ulpExp (m * pow2 k) ≤ k) :
    f.roundMag (m * pow2 k) = m * pow2 k := by
  unfold Fmt.roundMag
  set u := f.ulpExp (m * pow2 k)
  obtain ⟨j, hj⟩ := Int.eq_ofNat_of_zero_le (sub_nonneg.2 h)
  have e : (m : ℚ) * pow2 k = ((m * 2 ^ j : ℕ) : ℚ) * pow2 u := by
    rw [show k = (j : ℤ) + u by omega, pow2_add, pow2_natCast]; push_cast; ring
  rw [e, mul_div_cancel_right₀ _ (pow2_pos u).ne', roundHalfEven_natCast]

/-- A rounded magnitude is within half of the last place. -/
theorem roundMag_error (f : Fmt) {a : ℚ} (ha : 0 ≤ a) : |f.roundMag a - a| ≤ pow2 (f.ulpExp a) / 2 := by
  have hu := pow2_pos (f.ulpExp a)
  have h := (roundHalfEven_spec (div_nonneg ha hu.le)).1
  have e : f.roundMag a - a = -(a / pow2 (f.ulpExp a) - roundHalfEven (a / pow2 (f.ulpExp a))) * pow2 (f.ulpExp a) := by
    unfold Fmt.roundMag
    have : a / pow2 (f.ulpExp a) * pow2 (f.ulpExp a) = a := div_mul_cancel₀ _ hu.ne'
    rw [neg_mul, sub_mul, this]; ring
  rw [e, abs_mul, abs_neg, abs_of_pos hu]
  calc _ ≤ 1 / 2 * pow2 (f.ulpExp a) := mul_le_mul_of_nonneg_right h hu.le
    _ = _ := by ring

/-- From the least normal number on, half of the last place is a fixed part of the magnitude. -/
theorem half_ulp_le (f : Fmt) {a : ℚ} (ha : pow2 f.emin ≤ a) : pow2 (f.ulpExp a) / 2 ≤ a * pow2 (-f.precision) := by
  have hpos := (pow2_pos f.emin).trans_le ha
  obtain ⟨h1, h2⟩ := floorLog2_spec hpos
  have hle : f.emin ≤ floorLog2 a := by
    by_contra hc
    have := pow2_le (show floorLog2 a + 1 ≤ f.emin by omega)
    linarith
  have e : f.ulpExp a = floorLog2 a + (1 + -f.precision) := by unfold Fmt.ulpExp; omega
  have e1 : pow2 1 = 2 := by decide +kernel
  have hp := pow2_pos (-f.precision)
  rw [e, pow2_add, pow2_add, e1]
  nlinarith

end Sys2Proof
end

