-- ==== Sys2Proof/Laws/FloatOrder.lean ====
section
/-!
SUPPORT. The order of the values of a format: rounding and the operations of the Quantizer are monotone, and what the clamp and the
conversion to an integer make of a value.
-/

-- Many small proofs one after another: elaborating them in parallel takes one large stack each.
set_option Elab.async false

namespace Sys2Proof

/-! The comparison -/

@[simp] theorem Fp.le_fin_fin (x y : ℚ) : Fp.le (.fin x) (.fin y) = true ↔ x ≤ y := by
  simp [Fp.le, Fp.lt, Fp.isNan]

@[simp] theorem Fp.le_zero_fin (s : Bool) (y : ℚ) : Fp.le (.zero s) (.fin y) = true ↔ 0 ≤ y := by
  simp [Fp.le, Fp.lt, Fp.isNan]

@[simp] theorem Fp.le_fin_zero (x : ℚ) (s : Bool) : Fp.le (.fin x) (.zero s) = true ↔ x ≤ 0 := by
  simp [Fp.le, Fp.lt, Fp.isNan]

@[simp] theorem Fp.le_zero_zero (s t : Bool) : Fp.le (.zero s) (.zero t) = true := by
  simp [Fp.le, Fp.lt, Fp.isNan]

@[simp] theorem Fp.le_nan_left (a : Fp) : Fp.le .nan a = false := by simp [Fp.le, Fp.isNan]

@[simp] theorem Fp.le_nan_right (a : Fp) : Fp.le a .nan = false := by simp [Fp.le, Fp.isNan]

theorem Fp.neg_inf_le {a : Fp} (h : a.isNan = false) : Fp.le (.inf true) a = true := by
  cases a with
  | nan => cases h
  | inf s => cases s <;> rfl
  | zero s => rfl
  | fin x => rfl

theorem Fp.le_pos_inf {a : Fp} (h : a.isNan = false) : Fp.le a (.inf false) = true := by
  cases a with
  | nan => cases h
  | inf s => cases s <;> rfl
  | zero s => rfl
  | fin x => rfl

@[simp] theorem Fp.pos_inf_le_zero (s : Bool) : Fp.le (.inf false) (.zero s) = false := by simp [Fp.le, Fp.lt, Fp.isNan]

@[simp] theorem Fp.pos_inf_le_fin (x : ℚ) : Fp.le (.inf false) (.fin x) = false := by simp [Fp.le, Fp.lt, Fp.isNan]

@[simp] theorem Fp.pos_inf_le_neg_inf : Fp.le (.inf false) (.inf true) = false := by simp [Fp.le, Fp.lt, Fp.isNan]

@[simp] theorem Fp.zero_le_neg_inf (s : Bool) : Fp.le (.zero s) (.inf true) = false := by simp [Fp.le, Fp.lt, Fp.isNan]

@[simp] theorem Fp.fin_le_neg_inf (x : ℚ) : Fp.le (.fin x) (.inf true) = false := by simp [Fp.le, Fp.lt, Fp.isNan]

theorem Fp.le_refl {a : Fp} (h : a.isNan = false) : Fp.le a a = true := by
  cases a with
  | nan => cases h
  | inf s => cases s <;> rfl
  | zero s => simp
  | fin x => simp

/-! Rounding keeps the order -/

@[simp] theorem Fp.round_isNan (f : Fmt) (x : ℚ) : (Fp.round f x).isNan = false := by
  unfold Fp.round; split_ifs <;> rfl

theorem Fp.round_zero (f : Fmt) : Fp.round f 0 = .zero false := by simp [Fp.round]

/-- Rounding is monotone (40_quantizer.md R90). -/
theorem Fp.le_round (f : Fmt) {x y : ℚ} (h : x ≤ y) : Fp.le (Fp.round f x) (Fp.round f y) = true := by
  have hm1 : 0 < x → f.roundMag |x| ≤ f.roundMag |y| := fun hx => by
    rw [abs_of_pos hx, abs_of_pos (hx.trans_le h)]; exact roundMag_mono f hx h
  have hm2 : y < 0 → f.roundMag |y| ≤ f.roundMag |x| := fun hy => by
    rw [abs_of_neg hy, abs_of_neg (h.trans_lt hy)]; exact roundMag_mono f (by linarith) (by linarith)
  have ho1 : 0 < x → |x| ≤ |y| := fun hx => by rwa [abs_of_pos hx, abs_of_pos (hx.trans_le h)]
  have ho2 : y < 0 → |y| ≤ |x| := fun hy => by rw [abs_of_neg hy, abs_of_neg (h.trans_lt hy)]; linarith
  have p1 := roundMag_nonneg f |x|
  have p2 := roundMag_nonneg f |y|
  rcases lt_trichotomy x 0 with hx | hx | hx <;> rcases lt_trichotomy y 0 with hy | hy | hy <;>
    first
    | (exfalso; linarith)
    | (unfold Fp.round
       split_ifs <;> simp_all [Fp.le, Fp.lt, Fp.isNan, not_lt_of_gt] <;>
         linarith)

theorem Fp.zero_le_round (f : Fmt) (s : Bool) {y : ℚ} (h : 0 ≤ y) : Fp.le (.zero s) (Fp.round f y) = true := by
  have := Fp.le_round f h
  rw [Fp.round_zero] at this
  cases hr : Fp.round f y <;> simp_all [Fp.le, Fp.lt, Fp.isNan]

theorem Fp.round_le_zero (f : Fmt) (s : Bool) {y : ℚ} (h : y ≤ 0) : Fp.le (Fp.round f y) (.zero s) = true := by
  have := Fp.le_round f h
  rw [Fp.round_zero] at this
  cases hr : Fp.round f y <;> simp_all [Fp.le, Fp.lt, Fp.isNan]

/-! Operations whose second operand is a finite number -/

/-- Equal, or both a zero: the sign of a zero is invisible to every later step of the Quantizer (40_quantizer.md R75). -/
def Fp.SameNumber (a b : Fp) : Prop := a = b ∨ (∃ s, a = .zero s) ∧ ∃ t, b = .zero t

/-- The comparison does not see the sign of a zero. -/
theorem Fp.SameNumber.le_congr {a a' b b' : Fp} (ha : a.SameNumber a') (hb : b.SameNumber b') : Fp.le a b = Fp.le a' b' := by
  rcases ha with rfl | ⟨⟨s, rfl⟩, ⟨t, rfl⟩⟩ <;> rcases hb with rfl | ⟨⟨s', rfl⟩, ⟨t', rfl⟩⟩
  · rfl
  · cases a <;> simp [Fp.le, Fp.lt, Fp.isNan]
  · cases b <;> simp [Fp.le, Fp.lt, Fp.isNan]
  · rfl

/-- A number as a rational: 0 for a zero (and for what is no finite number). -/
def Fp.num : Fp → ℚ
  | .fin x => x
  | _ => 0

@[simp] theorem Fp.num_fin (x : ℚ) : (Fp.fin x).num = x := rfl
@[simp] theorem Fp.num_zero (s : Bool) : (Fp.zero s).num = 0 := rfl

/-- Zero or a finite number. -/
def Fp.isFinite : Fp → Bool
  | .fin _ => true
  | .zero _ => true
  | _ => false

@[simp] theorem Fp.isFinite_fin (x : ℚ) : (Fp.fin x).isFinite = true := rfl
@[simp] theorem Fp.isFinite_zero (s : Bool) : (Fp.zero s).isFinite = true := rfl

/-- The sign of a zero aside, the same number. -/
theorem Fp.SameNumber.num_eq {a b : Fp} (h : a.SameNumber b) : a.num = b.num ∧ a.isFinite = b.isFinite := by
  rcases h with rfl | ⟨⟨s, rfl⟩, ⟨t, rfl⟩⟩ <;> exact ⟨rfl, rfl⟩

/-- Adding two finite numbers rounds their sum. -/
theorem Fp.add_finite (f : Fmt) {a b : Fp} (ha : a.isFinite = true) (hb : b.isFinite = true) :
    (Fp.add f a b).SameNumber (.round f (a.num + b.num)) := by
  cases a <;> simp [Fp.isFinite] at ha <;> cases b <;> simp [Fp.isFinite] at hb <;>
    simp [Fp.add, Fp.num, Fp.SameNumber, Fp.round_zero]

/-- Multiplying two finite numbers rounds their product. -/
theorem Fp.mul_finite (f : Fmt) {a b : Fp} (ha : a.isFinite = true) (hb : b.isFinite = true) :
    (Fp.mul f a b).SameNumber (.round f (a.num * b.num)) := by
  cases a <;> simp [Fp.isFinite] at ha <;> cases b <;> simp [Fp.isFinite] at hb <;>
    simp [Fp.mul, Fp.num, Fp.SameNumber, Fp.round_zero]

/-- Dividing a finite number by a finite number other than zero rounds their quotient. -/
theorem Fp.div_finite (f : Fmt) {a : Fp} (ha : a.isFinite = true) (y : ℚ) :
    (Fp.div f a (.fin y)).SameNumber (.round f (a.num / y)) := by
  cases a <;> simp [Fp.isFinite] at ha <;> simp [Fp.div, Fp.num, Fp.SameNumber, Fp.round_zero]

/-- An operation that keeps the infinities and rounds a monotone function of the numbers keeps the order. -/
theorem Fp.mono_of_rounds {f : Fmt} {F : Fp → Fp} {g : ℚ → ℚ} (hg : Monotone g) (hneg : F (.inf true) = .inf true)
    (hpos : F (.inf false) = .inf false) (hF : ∀ a, a.isFinite = true → (F a).SameNumber (.round f (g a.num)))
    {a b : Fp} (h : Fp.le a b = true) : Fp.le (F a) (F b) = true := by
  have hn : ∀ c : Fp, c.isFinite = true → (F c).isNan = false := fun c hc => by
    rcases hF c hc with e | ⟨⟨s, e⟩, -⟩ <;> rw [e]
    · exact Fp.round_isNan f _
    · rfl
  have hfin : a.isFinite = true → b.isFinite = true → Fp.le (F a) (F b) = true := fun ha hb => by
    rw [(hF a ha).le_congr (hF b hb)]
    refine Fp.le_round f (hg ?_)
    cases a <;> simp [Fp.isFinite] at ha <;> cases b <;> simp [Fp.isFinite] at hb <;> simp_all [Fp.num]
  cases a with
  | nan => simp at h
  | inf s =>
    cases s with
    | true =>
      rw [hneg]
      cases b with
      | nan => simp at h
      | inf t => cases t <;> simp only [hneg, hpos] <;> rfl
      | zero t => exact Fp.neg_inf_le (hn _ rfl)
      | fin y => exact Fp.neg_inf_le (hn _ rfl)
    | false =>
      cases b with
      | nan => simp at h
      | inf t => cases t <;> simp_all
      | zero t => simp at h
      | fin y => simp at h
  | zero s =>
    cases b with
    | nan => simp at h
    | inf t =>
      cases t with
      | true => simp at h
      | false => rw [hpos]; exact Fp.le_pos_inf (hn _ rfl)
    | zero t => exact hfin rfl rfl
    | fin y => exact hfin rfl rfl
  | fin x =>
    cases b with
    | nan => simp at h
    | inf t =>
      cases t with
      | true => simp at h
      | false => rw [hpos]; exact Fp.le_pos_inf (hn _ rfl)
    | zero t => exact hfin rfl rfl
    | fin y => exact hfin rfl rfl

/-- Adding a finite number keeps the order. -/
theorem Fp.add_mono (f : Fmt) {a b c : Fp} (hc : c.isFinite = true) (h : Fp.le a b = true) :
    Fp.le (Fp.add f a c) (Fp.add f b c) = true := by
  refine Fp.mono_of_rounds (F := fun a => Fp.add f a c) (g := fun x => x + c.num) (fun x y h => by simp [h]) ?_ ?_
    (fun a ha => Fp.add_finite f ha hc) h
  · cases c <;> simp [Fp.isFinite] at hc <;> rfl
  · cases c <;> simp [Fp.isFinite] at hc <;> rfl

/-- Multiplying by a positive number keeps the order. -/
theorem Fp.mul_mono (f : Fmt) {a b : Fp} {y : ℚ} (hy : 0 < y) (h : Fp.le a b = true) :
    Fp.le (Fp.mul f a (.fin y)) (Fp.mul f b (.fin y)) = true := by
  refine Fp.mono_of_rounds (F := fun a => Fp.mul f a (.fin y)) (g := fun x => x * y)
    (fun x z h => mul_le_mul_of_nonneg_right h hy.le) ?_ ?_ (fun a ha => Fp.mul_finite f ha rfl) h
  · simp [Fp.mul, hy.le]
  · simp [Fp.mul, hy.le]

/-- Dividing by a positive number keeps the order. -/
theorem Fp.div_mono (f : Fmt) {a b : Fp} {y : ℚ} (hy : 0 < y) (h : Fp.le a b = true) :
    Fp.le (Fp.div f a (.fin y)) (Fp.div f b (.fin y)) = true := by
  refine Fp.mono_of_rounds (F := fun a => Fp.div f a (.fin y)) (g := fun x => x / y)
    (fun x z h => div_le_div_of_nonneg_right h hy.le) ?_ ?_ (fun a ha => Fp.div_finite f ha y) h
  · simp [Fp.div, hy.le]
  · simp [Fp.div, hy.le]

end Sys2Proof
end

