-- ==== Sys2Proof/Laws/PerInstr.lean ====
section
/-!
SUPPORT. What holds of every instruction as syntax: its word has the length and the bits of its format (30_encoding.md R51, R56, R57).
-/

namespace Sys2Proof

/-- The number of bits of the instruction's format, as the opcode table has it. -/
def Instr.bits : Instr → ℕ
  | .init32 _ _ => 35
  | .init64 _ _ => 67
  | .vtoc32 _ _ => 35
  | .vtoc64 _ _ => 67
  | .sendcode32 _ _ => 35
  | .sendcode64 _ _ _ => 67
  | .setvoltage32 _ _ => 35
  | .setvoltage64 _ _ => 67
  | .frame24 _ _ => 24
  | .frame16 _ => 16

namespace Laws.EncodeFits

/-- The encoded word has as many whole bytes as its format needs, and no bit above the format. -/
def Statement (i : Instr) : Prop := (encode i).len = (i.bits + 7) / 8 ∧ (encode i).val < 2 ^ i.bits

theorem init32 (w : Width) (vref : BitVec 32) : Statement (.init32 w vref) :=
  ⟨by simp [encode, cmd35, Instr.bits], BitVec.isLt (0b00#2 ++ w.toBit ++ vref)⟩
theorem init64 (w : Width) (vref : BitVec 64) : Statement (.init64 w vref) :=
  ⟨by simp [encode, cmd67, Instr.bits], BitVec.isLt (0b00#2 ++ w.toBit ++ vref)⟩
theorem vtoc32 (x : BitVec 1) (voltage : BitVec 32) : Statement (.vtoc32 x voltage) :=
  ⟨by simp [encode, cmd35, Instr.bits], BitVec.isLt (0b01#2 ++ x ++ voltage)⟩
theorem vtoc64 (x : BitVec 1) (voltage : BitVec 64) : Statement (.vtoc64 x voltage) :=
  ⟨by simp [encode, cmd67, Instr.bits], BitVec.isLt (0b01#2 ++ x ++ voltage)⟩
theorem sendcode32 (x : BitVec 1) (code : Code) : Statement (.sendcode32 x code) :=
  ⟨by simp [encode, cmd35, Instr.bits], BitVec.isLt (0b10#2 ++ x ++ code)⟩
theorem sendcode64 (x : BitVec 1) (hi : BitVec 32) (code : Code) : Statement (.sendcode64 x hi code) :=
  ⟨by simp [encode, cmd67, Instr.bits], BitVec.isLt (0b10#2 ++ x ++ (hi ++ code))⟩
theorem setvoltage32 (x : BitVec 1) (voltage : BitVec 32) : Statement (.setvoltage32 x voltage) :=
  ⟨by simp [encode, cmd35, Instr.bits], BitVec.isLt (0b11#2 ++ x ++ voltage)⟩
theorem setvoltage64 (x : BitVec 1) (voltage : BitVec 64) : Statement (.setvoltage64 x voltage) :=
  ⟨by simp [encode, cmd67, Instr.bits], BitVec.isLt (0b11#2 ++ x ++ voltage)⟩
theorem frame24 (data : BitVec 20) (pad : BitVec 4) : Statement (.frame24 data pad) :=
  ⟨by simp [encode, Instr.bits], BitVec.isLt (data ++ pad)⟩
theorem frame16 (data : BitVec 16) : Statement (.frame16 data) :=
  ⟨by simp [encode, Instr.bits], BitVec.isLt data⟩

end Laws.EncodeFits

end Sys2Proof
end

