-- ==== Sys2Proof/Laws/Quantizer.lean ====
section
/-!
SUPPORT. The Quantizer step by step: the constants, the half, the clamp with the conversion as one saturation, and that every
step keeps the order and makes no NaN.
-/

-- Many small proofs one after another: elaborating them in parallel takes one large stack each.
set_option Elab.async false

namespace Sys2Proof.Machine

/-! The constants -/

theorem ofNat_zero (f : Fmt) : Fp.ofNat f 0 = .zero false := by simp [Fp.ofNat, Fp.round]

theorem ofNat_two (f : Fmt) : Fp.ofNat f 2 = .fin 2 := by cases f <;> decide +kernel

theorem ofNat_maxCode (f : Fmt) (w : Width) : Fp.ofNat f w.maxCode = .fin w.maxCode := by
  cases f <;> cases w <;> decide +kernel

theorem maxCode_pos (w : Width) : 0 < w.maxCode := by cases w <;> decide

theorem maxCode_lt (w : Width) : w.maxCode < 2 ^ 32 := by cases w <;> decide

theorem bits_le (w : Width) : w.bits ≤ 20 := by cases w <;> decide

/-- A valid reference voltage is a positive number (41_transport.md R101). -/
theorem configValid_iff (b : FpBits) : configValid b = true ↔ ∃ r : ℚ, b.value = .fin r ∧ 0 < r := by
  unfold configValid
  cases h : b.value <;> simp

/-! The clamp and the conversion -/

/-- The clamp of step 3 with the conversion of step 4, on any value that is not NaN. -/
def saturate (w : Width) : Fp → ℕ
  | .nan => 0
  | .inf neg => if neg then 0 else w.maxCode
  | .zero _ => 0
  | .fin x => ⌊min (w.maxCode : ℚ) (max 0 x)⌋.toNat

theorem saturate_fin_of_neg (w : Width) {x : ℚ} (h : x < 0) : saturate w (.fin x) = 0 := by
  have h1 : min (w.maxCode : ℚ) (max 0 x) = 0 := by
    rw [max_eq_left h.le, min_eq_right]; positivity
  simp [saturate, h1]

theorem saturate_fin_of_big (w : Width) {x : ℚ} (h : (w.maxCode : ℚ) ≤ x) : saturate w (.fin x) = w.maxCode := by
  have h1 : min (w.maxCode : ℚ) (max 0 x) = w.maxCode := min_eq_left (h.trans (le_max_right _ _))
  simp [saturate, h1]

theorem saturate_fin_of_mid (w : Width) {x : ℚ} (h0 : 0 ≤ x) (h1 : x ≤ w.maxCode) : saturate w (.fin x) = x.floor.toNat := by
  simp only [saturate, max_eq_right h0, min_eq_right h1]; rfl

/-- Steps 3 and 4 together (40_quantizer.md R80). -/
theorem ftou_quantClamp (f : Fmt) (w : Width) {a : Fp} (h : a.isNan = false) :
    ftou w (quantClamp f w a) = saturate w a := by
  have hm : (0 : ℚ) < w.maxCode := by exact_mod_cast maxCode_pos w
  have hf : ∀ x : ℚ, 0 ≤ x → x ≤ w.maxCode → ftou w (.fin x) = saturate w (.fin x) := fun x h0 h1 => by
    rw [saturate_fin_of_mid w h0 h1]; simp only [ftou, h0, h1, and_self, if_true]
  have hmax : ftou w (.fin (w.maxCode : ℚ)) = w.maxCode := by
    rw [hf _ hm.le le_rfl, saturate_fin_of_big w le_rfl]
  have hlt : ∀ s : Bool, Fp.lt (.fin (w.maxCode : ℚ)) (.zero s) = false := fun s => by simp [Fp.lt]
  unfold quantClamp
  rw [ofNat_zero, ofNat_maxCode]
  cases a with
  | nan => cases h
  | inf s =>
    cases s with
    | true => rfl
    | false => exact hmax
  | zero s => rw [hlt]; rfl
  | fin x =>
    by_cases h0 : x < 0
    · rw [saturate_fin_of_neg w h0]; simp [Fp.lt, h0, ftou]
    · have e0 : Fp.lt (.fin x) (.zero false) = false := by simpa [Fp.lt] using h0
      by_cases h1 : (w.maxCode : ℚ) < x
      · have e1 : Fp.lt (.fin (w.maxCode : ℚ)) (.fin x) = true := by simpa [Fp.lt] using h1
        rw [e0, e1, saturate_fin_of_big w h1.le]; exact hmax
      · have e1 : Fp.lt (.fin (w.maxCode : ℚ)) (.fin x) = false := by simpa [Fp.lt] using h1
        rw [e0, e1]; exact hf x (not_lt.1 h0) (not_lt.1 h1)

theorem saturate_le (w : Width) (a : Fp) : saturate w a ≤ w.maxCode := by
  cases a with
  | nan => simp [saturate]
  | inf s => cases s <;> simp [saturate]
  | zero s => simp [saturate]
  | fin x =>
    simp only [saturate]
    have : ⌊min (w.maxCode : ℚ) (max 0 x)⌋ ≤ (w.maxCode : ℤ) := by
      rw [Int.floor_le_iff]; push_cast; linarith [min_le_left (w.maxCode : ℚ) (max 0 x)]
    omega

/-- Saturating keeps the order. -/
theorem saturate_mono (w : Width) {a b : Fp} (h : Fp.le a b = true) : saturate w a ≤ saturate w b := by
  have hx : ∀ x y : ℚ, x ≤ y → ⌊min (w.maxCode : ℚ) (max 0 x)⌋.toNat ≤ ⌊min (w.maxCode : ℚ) (max 0 y)⌋.toNat := fun x y h =>
    Int.toNat_le_toNat (Int.floor_le_floor (min_le_min le_rfl (max_le_max le_rfl h)))
  cases a with
  | nan => simp at h
  | inf s =>
    cases s with
    | true => simp [saturate]
    | false =>
      cases b with
      | nan => simp at h
      | inf t => cases t <;> simp_all
      | zero t => simp at h
      | fin y => simp at h
  | zero s => simp [saturate]
  | fin x =>
    cases b with
    | nan => simp at h
    | inf t =>
      cases t with
      | true => simp at h
      | false => exact saturate_le w _
    | zero t => have hx0 : x ≤ 0 := by simpa using h
                have := hx x 0 hx0
                simpa [saturate] using this
    | fin y => exact hx x y (by simpa using h)

/-! The values of the registers -/

/-- A number from the fields of a pattern: below the power of two above the largest exponent, and not zero. -/
theorem ofFields_bound {f : Fmt} {neg : Bool} {expo frac : ℕ} {x : ℚ} (hfrac : frac < 2 ^ (f.precision - 1).toNat)
    (hexpo : (expo : ℤ) ≤ 2 * f.emax + 1) (h : Fp.ofFields f neg expo frac = .fin x) :
    x ≠ 0 ∧ |x| < pow2 (f.emax + 1) := by
  have hp := one_le_precision f
  have hb : f.emin + f.emax = 1 := by cases f <;> rfl
  have he : 0 ≤ f.emax := by cases f <;> decide
  have hP : (((2 ^ (f.precision - 1).toNat : ℕ) : ℚ)) = pow2 (f.precision - 1) := by
    rw [show f.precision - 1 = ((f.precision - 1).toNat : ℤ) by omega, pow2_natCast]; simp
  have hfq : (frac : ℚ) < pow2 (f.precision - 1) := by rw [← hP]; exact_mod_cast hfrac
  have hs : ∀ y : ℚ, |(if neg = true then (-1 : ℚ) else 1) * y| = |y| := fun y => by split_ifs <;> simp
  have hs0 : (if neg = true then (-1 : ℚ) else 1) ≠ 0 := by split_ifs <;> norm_num
  unfold Fp.ofFields at h
  dsimp only at h
  generalize (if neg = true then (-1 : ℚ) else 1) = sign at h hs hs0
  split_ifs at h with h1 h2 h3 h4
  · have hfr : (0 : ℚ) < frac := by have : 0 < frac := Nat.pos_of_ne_zero h4
                                    exact_mod_cast this
    have hq := pow2_pos (f.emin - f.precision + 1)
    cases h
    refine ⟨mul_ne_zero hs0 (by positivity), ?_⟩
    rw [hs, abs_of_pos (by positivity)]
    calc (frac : ℚ) * pow2 (f.emin - f.precision + 1) < pow2 (f.precision - 1) * pow2 (f.emin - f.precision + 1) :=
          mul_lt_mul_of_pos_right hfq hq
      _ = pow2 f.emin := by rw [← pow2_add]; congr 1; ring
      _ ≤ pow2 (f.emax + 1) := pow2_le (by omega)
  · have hq := pow2_pos ((expo : ℤ) - f.emax - f.precision + 1)
    have hn : (0 : ℚ) < ((2 ^ (f.precision - 1).toNat + frac : ℕ) : ℚ) := by
      have : 0 < 2 ^ (f.precision - 1).toNat + frac := by positivity
      exact_mod_cast this
    cases h
    refine ⟨mul_ne_zero hs0 (mul_pos hn hq).ne', ?_⟩
    rw [hs, abs_of_pos (mul_pos hn hq)]
    calc ((2 ^ (f.precision - 1).toNat + frac : ℕ) : ℚ) * pow2 ((expo : ℤ) - f.emax - f.precision + 1)
        < pow2 f.precision * pow2 ((expo : ℤ) - f.emax - f.precision + 1) := by
          refine mul_lt_mul_of_pos_right ?_ hq
          rw [show f.precision = 1 + (f.precision - 1) by ring, pow2_add, ← hP]
          have h2 : (frac : ℚ) < ((2 ^ (f.precision - 1).toNat : ℕ) : ℚ) := by exact_mod_cast hfrac
          have e1 : pow2 1 = 2 := by decide +kernel
          have e3 : (1 + (f.precision - 1) - 1).toNat = (f.precision - 1).toNat := by congr 1; ring
          push_cast at h2 ⊢
          rw [e1, e3]; linarith
      _ = pow2 (expo - f.emax + 1) := by rw [← pow2_add]; congr 1; ring
      _ ≤ pow2 (f.emax + 1) := pow2_le (by omega)

/-- A finite value of a pattern is not zero and lies below the power of two above the largest exponent. -/
theorem value_bound {b : FpBits} {x : ℚ} (h : b.value = .fin x) : x ≠ 0 ∧ |x| < pow2 (b.fmt.emax + 1) := by
  cases b with
  | b32 b =>
    have h1 := (b.extractLsb' 23 8).isLt
    exact ofFields_bound (f := .binary32) (b.extractLsb' 0 23).isLt (by simp only [Fmt.emax]; omega) h
  | b64 b =>
    have h1 := (b.extractLsb' 52 11).isLt
    exact ofFields_bound (f := .binary64) (b.extractLsb' 0 52).isLt (by simp only [Fmt.emax]; omega) h

/-! Rounding errors -/

/-- In the normal range rounding gives a finite number with a relative error of at most `2 ^ (-p)` (40_quantizer.md R92). -/
theorem round_error (f : Fmt) {x : ℚ} (h : f.NormalRange x) :
    (Fp.round f x).isFinite = true ∧ |(Fp.round f x).num - x| ≤ |x| * pow2 (-f.precision) := by
  rcases h with rfl | ⟨h1, h2⟩
  · rw [Fp.round_zero]; simp [Fp.isFinite, Fp.num]
  · have herr := (roundMag_error f (abs_nonneg x)).trans (half_ulp_le f h1)
    have hx : x ≠ 0 := fun h => by subst h; simp at h1; exact absurd h1 (not_le.2 (pow2_pos _))
    unfold Fp.round
    rw [if_neg hx, if_neg (not_le.2 h2)]
    split_ifs with h3 h4
    · rw [h3] at herr; simpa [Fp.isFinite, Fp.num] using herr
    · refine ⟨rfl, ?_⟩
      rw [abs_of_neg h4] at herr ⊢
      simp only [Fp.num]
      rw [show -f.roundMag (-x) - x = -(f.roundMag (-x) - -x) by ring, abs_neg]
      exact herr
    · refine ⟨rfl, ?_⟩
      rw [abs_of_nonneg (not_lt.1 h4)] at herr ⊢
      exact herr

/-! The steps -/

theorem pow2_emax_lt_overflowBound (f : Fmt) : pow2 f.emax < f.overflowBound := by
  have h := pow2_pos f.emax
  have h1 : pow2 (-f.precision) < 1 := by cases f <;> decide +kernel
  unfold Fmt.overflowBound
  nlinarith

/-- Step 1a rounds the half of the reference; it is a zero or a positive number. -/
theorem quantHalf_spec {b : FpBits} {r : ℚ} (hr : b.value = .fin r) (hpos : 0 < r) :
    quantHalf b.fmt b.value = .round b.fmt (r / 2)
    ∧ (quantHalf b.fmt b.value).isFinite = true ∧ 0 ≤ (quantHalf b.fmt b.value).num := by
  have h0 : quantHalf b.fmt b.value = .round b.fmt (r / 2) := by rw [quantHalf, hr, ofNat_two]; rfl
  have hb := (value_bound hr).2
  have hlt : |r / 2| < b.fmt.overflowBound := by
    refine lt_trans ?_ (pow2_emax_lt_overflowBound _)
    have e1 : pow2 1 = 2 := by decide +kernel
    rw [pow2_add, e1] at hb
    rw [abs_of_pos hpos] at hb
    rw [abs_of_pos (by positivity)]; linarith
  refine ⟨h0, ?_⟩
  rw [h0]
  have hz := Fp.zero_le_round b.fmt false (y := r / 2) (by positivity)
  unfold Fp.round at hz ⊢
  split_ifs at hz ⊢ with h1 h2 h3 h4
  · simp [Fp.isFinite, Fp.num]
  · exact absurd h2 (not_le.2 hlt)
  · simp [Fp.isFinite, Fp.num]
  · exact absurd h4 (by push Not; positivity)
  · exact ⟨rfl, roundMag_nonneg _ _⟩

variable {b : FpBits} {r : ℚ}

/-- Step 1b keeps the order. -/
theorem quantShifted_mono (hr : b.value = .fin r) (hpos : 0 < r) {v1 v2 : Fp} (h : Fp.le v1 v2 = true) :
    Fp.le (quantShifted b.fmt b.value v1) (quantShifted b.fmt b.value v2) = true :=
  Fp.add_mono b.fmt (quantHalf_spec hr hpos).2.1 h

/-- Step 2a keeps the order. -/
theorem quantProd_mono (hr : b.value = .fin r) (hpos : 0 < r) (w : Width) {v1 v2 : Fp} (h : Fp.le v1 v2 = true) :
    Fp.le (quantProd b.fmt b.value w v1) (quantProd b.fmt b.value w v2) = true := by
  unfold quantProd
  rw [ofNat_maxCode]
  exact Fp.mul_mono b.fmt (by exact_mod_cast maxCode_pos w) (quantShifted_mono hr hpos h)

/-- Step 2b keeps the order. -/
theorem quantRaw_mono (hr : b.value = .fin r) (hpos : 0 < r) (w : Width) {v1 v2 : Fp} (h : Fp.le v1 v2 = true) :
    Fp.le (quantRaw b.fmt b.value w v1) (quantRaw b.fmt b.value w v2) = true := by
  have := quantProd_mono hr hpos w h
  unfold quantRaw
  rw [hr] at this ⊢
  exact Fp.div_mono b.fmt hpos this

/-- No step makes a NaN out of a voltage that is none (40_quantizer.md R82). -/
theorem quant_isNan (hr : b.value = .fin r) (hpos : 0 < r) (w : Width) {v : Fp} (h : v.isNan = false) :
    (quantShifted b.fmt b.value v).isNan = false ∧ (quantProd b.fmt b.value w v).isNan = false
    ∧ (quantRaw b.fmt b.value w v).isNan = false := by
  have hle : ∀ a : Fp, Fp.le a a = true → a.isNan = false := fun a h => by cases a <;> simp_all [Fp.isNan]
  have := Fp.le_refl h
  exact ⟨hle _ (quantShifted_mono hr hpos this), hle _ (quantProd_mono hr hpos w this), hle _ (quantRaw_mono hr hpos w this)⟩

/-- The code is the saturated raw value. -/
theorem quantize_eq_saturate (hr : b.value = .fin r) (hpos : 0 < r) (w : Width) {v : Fp} (h : v.isNan = false) :
    quantize b.fmt b.value w v = saturate w (quantRaw b.fmt b.value w v) :=
  ftou_quantClamp b.fmt w (quant_isNan hr hpos w h).2.2

end Sys2Proof.Machine
end

