-- ==== Sys2Proof/Tests/Slice0.lean ====
section
/-!
SUPPORT. The model's own tests. Expected words, codes, bytes, traces and responses are those of 95_test_vectors.md or are read off
the layouts of 30_encoding.md by hand. The last part shows, for every statement with hypotheses, an input that meets them.
-/

-- Many small proofs one after another: elaborating them in parallel takes one large stack each.
set_option Elab.async false

namespace Sys2Proof.Tests
open Sys2Proof Sys2Proof.Machine

/-! ### Well-formed instructions -/

theorem test_wf_vtoc32_refuses_ignored_bit : (Instr.vtoc32 1#1 0#32).wf = false := by decide
theorem test_wf_vtoc64_refuses_ignored_bit : (Instr.vtoc64 1#1 0#64).wf = false := by decide
theorem test_wf_sendcode32_refuses_ignored_bit : (Instr.sendcode32 1#1 0#32).wf = false := by decide
theorem test_wf_sendcode64_refuses_ignored_bit : (Instr.sendcode64 1#1 0#32 0#32).wf = false := by decide
theorem test_wf_sendcode64_refuses_high_half : (Instr.sendcode64 0#1 1#32 0#32).wf = false := by decide
theorem test_wf_setvoltage32_refuses_ignored_bit : (Instr.setvoltage32 1#1 0#32).wf = false := by decide
theorem test_wf_setvoltage64_refuses_ignored_bit : (Instr.setvoltage64 1#1 0#64).wf = false := by decide
theorem test_wf_frame24_refuses_padding : (Instr.frame24 0#20 8#4).wf = false := by decide
theorem test_wf_accepts_the_written_form :
    (Instr.init32 .w20 0#32).wf ∧ (Instr.init64 .w16 0#64).wf ∧ (Instr.vtoc32 0#1 5#32).wf ∧ (Instr.frame24 5#20 0#4).wf
      ∧ (Instr.frame16 5#16).wf := by decide

/-! ### Decoding: words written from 30_encoding.md R51, R56, R57 (the 35-bit ones also stand in 95_test_vectors.md 2.8) -/

-- op 00, w 1, arg 4.096
theorem test_decode_init32 : decode ⟨5, 0b00101000000100000110001001001101111⟩ = .ok (.init32 .w20 0x4083126F#32) := by decide
-- op 01, w 1 (ignored), arg 1.0
theorem test_decode_vtoc32 : decode ⟨5, 0b01100111111100000000000000000000000⟩ = .ok (.vtoc32 1#1 0x3F800000#32) := by decide
-- op 10, w 0, code 0x1ABCD
theorem test_decode_sendcode32 : decode ⟨5, 0b10000000000000000011010101111001101⟩ = .ok (.sendcode32 0#1 0x1ABCD#32) := by decide
-- op 11, w 0, arg -1.0
theorem test_decode_setvoltage32 : decode ⟨5, 0b11010111111100000000000000000000000⟩ = .ok (.setvoltage32 0#1 0xBF800000#32) := by
  decide
-- op 00, w 0, arg 4.096 in binary64
theorem test_decode_init64 : decode ⟨9, 0x04010624DD2F1A9FC⟩ = .ok (.init64 .w16 0x4010624DD2F1A9FC#64) := by decide
-- op 01, w 0, arg 1.0
theorem test_decode_vtoc64 : decode ⟨9, 0x23FF0000000000000⟩ = .ok (.vtoc64 0#1 0x3FF0000000000000#64) := by decide
-- op 10, w 1 and the high half ignored, code 0x12345
theorem test_decode_sendcode64 : decode ⟨9, 0x5DEADBEEF00012345⟩ = .ok (.sendcode64 1#1 0xDEADBEEF#32 0x12345#32) := by decide
-- op 11, w 0, arg -1.0
theorem test_decode_setvoltage64 : decode ⟨9, 0x6BFF0000000000000⟩ = .ok (.setvoltage64 0#1 0xBFF0000000000000#64) := by decide
-- data 0x12345, padding 0xF
theorem test_decode_frame24 : decode ⟨3, 0b000100100011010001011111⟩ = .ok (.frame24 0x12345#20 0xF#4) := by decide
theorem test_decode_frame16 : decode ⟨2, 0b1010101111001101⟩ = .ok (.frame16 0xABCD#16) := by decide

theorem test_decode_table_words :
    decodeTableWord 35 0x6BF800000 = some (.setvoltage32 0#1 0xBF800000#32)
    ∧ decodeTableWord 67 0x60000000000000000 = some (.setvoltage64 0#1 0#64)
    ∧ decodeTableWord 24 0x123450 = some (.frame24 0x12345#20 0#4) ∧ decodeTableWord 16 0xABCD = some (.frame16 0xABCD#16) := by decide
theorem test_decode_refuses_lengths :
    decode ⟨0, 0⟩ = .error .noSuchLength ∧ decode ⟨1, 0⟩ = .error .noSuchLength ∧ decode ⟨4, 0⟩ = .error .noSuchLength
    ∧ decode ⟨8, 0⟩ = .error .noSuchLength ∧ decode ⟨10, 0⟩ = .error .noSuchLength := by decide
theorem test_decode_refuses_stray_bits :
    decode ⟨5, 0x800000000⟩ = .error .strayBits ∧ decode ⟨9, 0x80000000000000000⟩ = .error .strayBits
    ∧ decode ⟨3, 0x1000000⟩ = .error .strayBits ∧ decode ⟨2, 0x10000⟩ = .error .strayBits := by decide

theorem test_encode_words :
    encode (.init32 .w20 0x4083126F#32) = ⟨5, 0x14083126F⟩ ∧ encode (.vtoc32 0#1 0x3F99999A#32) = ⟨5, 0x23F99999A⟩
    ∧ encode (.sendcode32 0#1 0xFFFFF#32) = ⟨5, 0x4000FFFFF⟩ ∧ encode (.setvoltage32 0#1 0x7FC00000#32) = ⟨5, 0x67FC00000⟩
    ∧ encode (.frame24 0x12345#20 0#4) = ⟨3, 0x123450⟩ := by decide

-- 95_test_vectors.md 2.8
theorem test_response_words :
    (Response.word ⟨.success, 0x7FFFF#32⟩).toNat = 0x00007FFFF ∧ (Response.word ⟨.transferFailure, 0x7FFFF#32⟩).toNat = 0x10007FFFF
    ∧ (Response.word ⟨.invalidConfiguration, 0⟩).toNat = 0x200000000 ∧ (Response.word ⟨.notReady, 0⟩).toNat = 0x300000000
    ∧ (Response.word ⟨.nanOperand, 0⟩).toNat = 0x400000000 := by decide

/-! ### The Quantizer: 95_test_vectors.md 2.1 to 2.4 -/

/-- The code of a binary32 voltage. -/
def code32 (vref : BitVec 32) (w : Width) (v : BitVec 32) : ℕ := quantize .binary32 (FpBits.b32 vref).value w (FpBits.b32 v).value

/-- The code of a binary64 voltage. -/
def code64 (vref : BitVec 64) (w : Width) (v : BitVec 64) : ℕ := quantize .binary64 (FpBits.b64 vref).value w (FpBits.b64 v).value

theorem test_quantize_w20 :
    [0x00000000#32, 0x80000000#32, 0x00000001#32, 0x4003126F#32, 0xC003126F#32, 0x3F800000#32, 0xBF800000#32, 0x3F9E064B#32].map
      (code32 0x4083126F#32 .w20) = [0x7FFFF, 0x7FFFF, 0x7FFFF, 0xFFFFF, 0x00000, 0xBE7FF, 0x417FF, 0xCD290] := by decide +kernel
theorem test_quantize_w20_edges :
    [0x4003126A#32, 0xC0031266#32, 0x360637BD#32, 0x40400000#32, 0xC0400000#32, 0x7F61B1E6#32, 0xFF61B1E6#32, 0x7F800000#32,
      0xFF800000#32].map (code32 0x4083126F#32 .w20)
      = [0xFFFFE, 0x00000, 0x80000, 0xFFFFF, 0x00000, 0xFFFFF, 0x00000, 0xFFFFF, 0x00000] := by decide +kernel
theorem test_quantize_w20_not_the_ideal :
    [0x3FE92416#32, 0x3F53479A#32, 0xBF20060F#32, 0x3FE51FFE#32].map (code32 0x4083126F#32 .w20)
      = [0xF1D69, 0xB394F, 0x58EE8, 0xEFE09] := by decide +kernel
theorem test_quantize_w16 :
    [0x00000000#32, 0x40200000#32, 0xC0200000#32, 0x3FA00000#32, 0xBFA00000#32, 0x401FFE5D#32, 0x38A0009F#32, 0xC1200000#32].map
      (code32 0x40A00000#32 .w16) = [0x7FFF, 0xFFFF, 0x0000, 0xBFFF, 0x3FFF, 0xFFFD, 0x8000, 0x0000] := by decide +kernel
theorem test_quantize_top_not_exact :
    code32 0x4019999A#32 .w20 0x3F99999A#32 = 0xFFFFE ∧ code32 0x4019999A#32 .w16 0x3F99999A#32 = 0xFFFE
    ∧ code64 0x4010624DD2F1A9FC#64 .w16 0x4000624DD2F1A9FC#64 = 0xFFFE := by decide +kernel
theorem test_quantize_extreme_references :
    code32 0x00000001#32 .w20 0#32 = 0 ∧ code32 0x00000001#32 .w20 1#32 = 0xFFFFF ∧ code32 0x7F61B1E6#32 .w20 0#32 = 0xFFFFF
    ∧ code32 0x7F61B1E6#32 .w20 0xFEE1B1E6#32 = 0 := by decide +kernel
theorem test_quantize_binary64 :
    [0x0000000000000000#64, 0x4000624DD2F1A9FC#64, 0xC000624DD2F1A9FC#64, 0x3FF0000000000000#64, 0x3FF3C0C9539B8887#64,
      0x7FE1CCF385EBC8A0#64].map (code64 0x4010624DD2F1A9FC#64 .w20)
      = [0x7FFFF, 0xFFFFF, 0x00000, 0xBE7FF, 0xCD290, 0xFFFFF] := by decide +kernel

-- 95_test_vectors.md 2.1: half, shifted, prod and raw of 1.0
theorem test_quantize_intermediates :
    let vref := (FpBits.b32 0x4083126F#32).value
    let v := (FpBits.b32 0x3F800000#32).value
    quantHalf .binary32 vref = (FpBits.b32 0x4003126F#32).value
    ∧ quantShifted .binary32 vref v = (FpBits.b32 0x4043126F#32).value
    ∧ quantProd .binary32 vref .w20 v = (FpBits.b32 0x4A431263#32).value
    ∧ quantRaw .binary32 vref .w20 v = (FpBits.b32 0x493E7FF4#32).value := by decide +kernel

-- 40_quantizer.md R83
theorem test_nan_policies :
    nanCode .fault .w20 0 = none ∧ nanCode .satZero .w20 0 = some 0 ∧ nanCode .satMax .w16 0 = some 65535 := by decide

-- 95_test_vectors.md 2.7
theorem test_configValid :
    [0x4083126F#32, 0x00000001#32, 0x7F7FFFFF#32, 0x00000000#32, 0x80000000#32, 0xC0200000#32, 0x80000001#32, 0x7F800000#32,
      0xFF800000#32, 0x7FC00000#32, 0x7F800001#32].map (fun b => configValid (.b32 b))
      = [true, true, true, false, false, false, false, false, false, false, false] := by decide +kernel

/-! ### The packer: 95_test_vectors.md 2.5 -/

theorem test_pack :
    pack .w20 0x12345#32 = [0x12#8, 0x34#8, 0x50#8] ∧ pack .w20 0x0000F#32 = [0x00#8, 0x00#8, 0xF0#8]
    ∧ pack .w20 0x1ABCDE#32 = [0xAB#8, 0xCD#8, 0xE0#8] ∧ pack .w16 0xFF00#32 = [0xFF#8, 0x00#8]
    ∧ pack .w16 0x1ABCD#32 = [0xAB#8, 0xCD#8] := by decide
theorem test_unpack_ignores_padding :
    unpack [0x12#8, 0x34#8, 0x5F#8] = some 0x12345#20 ∧ unpack [0xAB#8, 0xCD#8] = some 0xABCD#20 := by decide

/-! ### The commands: 95_test_vectors.md 2.6 -/

/-- A ready block at a command boundary, with the device in step. -/
def blockState (vref : FpBits) (w : Width) (answers : List ProviderMove) : State where
  cfgVref := vref
  cfgWidth := w
  ready := true
  busy := false
  seq := 0
  csN := .high
  ldacN := .high
  dev := { cs := .high, latch := .high, fresh := false, shift := .lost [], out := .known 0x55555#20 }
  inputs := []
  answers := answers
  holds := [5]
  trace := []
  responses := []
  draws := 0
  cutAt := 0

/-- The block of section 2.6: 4.096 V, `W20`. -/
def block20 (answers : List ProviderMove) : State := blockState (.b32 0x4083126F#32) .w20 answers

/-- The same in binary64, `W16`. -/
def block64 (answers : List ProviderMove) : State := blockState (.b64 0x4010624DD2F1A9FC#64) .w16 answers

/-- The same blocks after reset or a failed INIT: not ready. -/
def notReady20 : State := { block20 [] with ready := false }

/-- One field of the next state, or none. -/
def see {α : Type} (o : Host.Outcome State Fault Refusal) (g : State → α) : Option α :=
  match o with
  | .next t => some (g t)
  | .fault _ => none
  | .refused _ => none

/-- The events and the response of a step. -/
def seeRun (i : Instr) (s : State) : Option (List Event × List (Res × ℕ)) :=
  see (exec i s) fun t => (t.trace, t.responses.map fun r => (r.res, r.code.toNat))

theorem test_init32_valid :
    seeRun (.init32 .w20 0x4083126F#32) { State.reset with cfgVref := .b32 0#32 }
      = some ([.pin .csN .high, .pin .ldacN .high], [(.success, 0)]) := by decide +kernel
theorem test_init32_invalid :
    see (exec (.init32 .w16 0xC0200000#32) (block20 []))
      (fun t => (t.ready, t.cfgVref, t.cfgWidth, t.trace, t.responses))
      = some (false, .b32 0x4083126F#32, .w20, [], [⟨.invalidConfiguration, 0⟩]) := by decide +kernel
theorem test_init64_valid :
    see (exec (.init64 .w20 0x4014000000000000#64) (block64 []))
      (fun t => (t.ready, t.cfgVref, t.cfgWidth, t.trace))
      = some (true, .b64 0x4014000000000000#64, .w20, [.pin .csN .high, .pin .ldacN .high]) := by decide +kernel
theorem test_init64_nan :
    seeRun (.init64 .w16 0x7FF8000000000000#64) (block64 []) = some ([], [(.invalidConfiguration, 0)]) := by decide +kernel

theorem test_vtoc32 : seeRun (.vtoc32 1#1 0x3F800000#32) (block20 []) = some ([], [(.success, 0xBE7FF)]) := by decide +kernel
theorem test_vtoc32_nan : seeRun (.vtoc32 0#1 0x7F800001#32) (block20 []) = some ([], [(.nanOperand, 0)]) := by decide +kernel
theorem test_vtoc64 :
    seeRun (.vtoc64 0#1 0x4000624DD2F1A9FC#64) (block64 []) = some ([], [(.success, 0xFFFE)]) := by decide +kernel
theorem test_vtoc64_not_ready :
    seeRun (.vtoc64 0#1 0x7FF8000000000000#64) { block64 [] with ready := false } = some ([], [(.notReady, 0)]) := by decide +kernel

theorem test_sendcode32_ok :
    see (exec (.sendcode32 0#1 0x12345#32) (block20 [.answers .ok])) (fun t => (t.trace, t.responses, t.dev.out, t.csN, t.ldacN))
      = some ([.pin .csN .low, .xfer [0x12#8, 0x34#8, 0x50#8] .ok, .pin .csN .high, .pin .ldacN .low, .delay 25, .pin .ldacN .high],
          [⟨.success, 0⟩], .known 0x12345#20, .high, .high) := by decide +kernel
theorem test_sendcode32_fail :
    see (exec (.sendcode32 0#1 0x12345#32) (block20 [.answers .fail])) (fun t => (t.trace, t.responses, t.dev.out, t.csN, t.ldacN))
      = some ([.pin .csN .low, .xfer [0x12#8, 0x34#8, 0x50#8] .fail, .pin .csN .high, .pin .ldacN .high],
          [⟨.transferFailure, 0⟩], .known 0x55555#20, .high, .high) := by decide +kernel
theorem test_sendcode64_truncates :
    see (exec (.sendcode64 0#1 1#32 0x1ABCD#32) (block64 [.answers .ok])) (fun t => (t.responses, t.dev.shift, t.dev.out))
      = some ([⟨.success, 0⟩], .known [0xAB#8, 0xCD#8], .known 0xABCD#20) := by decide +kernel
theorem test_sendcode64_not_ready :
    seeRun (.sendcode64 0#1 0#32 0#32) { block64 [] with ready := false } = some ([], [(.notReady, 0)]) := by decide +kernel

theorem test_setvoltage32_ok :
    see (exec (.setvoltage32 0#1 0x00000000#32) (block20 [.answers .ok])) (fun t => (t.responses, t.dev.shift, t.dev.out))
      = some ([⟨.success, 0x7FFFF#32⟩], .known [0x7F#8, 0xFF#8, 0xF0#8], .known 0x7FFFF#20) := by decide +kernel
theorem test_setvoltage32_fail :
    seeRun (.setvoltage32 0#1 0x00000000#32) (block20 [.answers .fail])
      = some ([.pin .csN .low, .xfer [0x7F#8, 0xFF#8, 0xF0#8] .fail, .pin .csN .high, .pin .ldacN .high],
          [(.transferFailure, 0x7FFFF)]) := by decide +kernel
theorem test_setvoltage64_saturates :
    see (exec (.setvoltage64 0#1 0xFFF0000000000000#64) (block64 [.answers .ok])) (fun t => (t.responses, t.dev.out))
      = some ([⟨.success, 0⟩], .known 0#20) := by decide +kernel
theorem test_setvoltage64_nan :
    seeRun (.setvoltage64 0#1 0xFFF8000000000001#64) (block64 []) = some ([], [(.nanOperand, 0)]) := by decide +kernel

-- 30_encoding.md R58, R65: the padding arrives and is ignored
theorem test_frame24 :
    see (exec (.frame24 0x12345#20 0xF#4) (block20 [])) (fun t => (t.dev.shift, t.dev.shift.value |> unpack, t.dev.out, t.trace))
      = some (.known [0x12#8, 0x34#8, 0x5F#8], some 0x12345#20, .known 0x55555#20, []) := by decide +kernel
theorem test_frame16 :
    see (exec (.frame16 0xABCD#16) (block64 [])) (fun t => (t.dev.shift, t.dev.cs)) = some (.known [0xAB#8, 0xCD#8], .high) := by
  decide +kernel

/-- A SENDCODE of `0x12345` that a reset cuts off after `k` events. -/
def cutting (k : ℕ) (answers : List ProviderMove) : State := { block20 answers with inputs := [.cut ⟨5, 0x400012345⟩ k] }

-- 70_reset_and_hazards.md R151, 93_implementation_defined.md U18: cut off with the latch low, and while the transfer hangs (U11)
theorem test_reset_during_the_latch_pulse :
    see (step (cutting 4 [.answers .ok])) (fun t => (t.trace, t.responses, t.ready, t.busy, t.seq.val, t.dev.out.defined))
      = some ([.pin .csN .low, .xfer [0x12#8, 0x34#8, 0x50#8] .ok, .pin .csN .high, .pin .ldacN .low],
          [], false, false, 0, false) := by decide +kernel
theorem test_reset_frees_a_hung_block :
    see (step (cutting 2 [.silent])) (fun t => (t.trace, t.answers, t.ready, t.seq.val)) = some ([.pin .csN .low], [], false, 0) := by
  decide +kernel

/-- A word placed for the next step is the one that runs, in a block of either format. -/
theorem test_withFetchWord :
    see (step ((block20 []).withFetchWord 35 0x23F800000)) (fun t => t.responses.map fun r => (r.res, r.code.toNat))
      = some [(.success, 0xBE7FF)]
    ∧ see (step ((block20 []).withFetchWord 24 0xABCDE0)) (fun t => t.dev.shift) = some (.known [0xAB#8, 0xCD#8, 0xE0#8]) := by
  decide +kernel

/-- From reset, an INIT word makes the block ready. -/
theorem test_reset_runs_init : see (step (State.reset.withFetchWord 35 0x14083126F)) (fun t => (t.ready, t.dev.cs, t.dev.latch, t.trace))
    = some (true, .high, .high, [.pin .csN .high, .pin .ldacN .high]) := by decide +kernel

/-! ### For every statement with hypotheses, an input that meets them -/

/-- The outcome is a next state. -/
def isNext (o : Host.Outcome State Fault Refusal) : Bool :=
  match o with
  | .next _ => true
  | .fault _ => false
  | .refused _ => false

theorem exists_next {o : Host.Outcome State Fault Refusal} (h : isNext o = true) : ∃ t, o = .next t := by
  cases o <;> simp_all [isNext]

theorem meets_EncodeOfDecodeIsTheWord : decode ⟨9, 0x5DEADBEEF00012345⟩ = .ok (.sendcode64 1#1 0xDEADBEEF#32 0x12345#32) := by decide

/-- The overflow bound of binary32 itself, and 2^24 + 1, which lies halfway between two members, one of them 2^24. -/
theorem meets_RoundIsNearestTiesToEven :
    (340282356779733661637539395458142568448 : ℚ) ≠ 0
    ∧ Fmt.binary32.overflowBound ≤ |(340282356779733661637539395458142568448 : ℚ)|
    ∧ |(16777217 : ℚ)| < Fmt.binary32.overflowBound
    ∧ Fmt.binary32.Represents 8388608 24 |(16777216 : ℚ)| := by
  refine ⟨by norm_num, by decide +kernel, by decide +kernel, by decide, by decide, by decide, by decide +kernel, by decide⟩

theorem meets_BitPatternsAreTheFormat :
    (FpBits.b32 0x00000001#32).value = .fin (pow2 (-149)) ∧ (-pow2 (-149)) ≠ 0
    ∧ Fmt.binary32.Represents 1 (-126) |(-pow2 (-149))| := by
  refine ⟨by decide +kernel, by decide +kernel, by decide, by decide, by decide, by decide +kernel, by decide⟩

theorem meets_OperationsFollowTheTable : (3 : ℚ) + -3 = 0 := by norm_num

/-- 4.096 V with `+∞`, a voltage at the top of the range. -/
theorem meets_QuantizeStaysInRange :
    (FpBits.b32 0x7F800000#32).fmt = (FpBits.b32 0x4083126F#32).fmt ∧ configValid (.b32 0x4083126F#32) = true
    ∧ (FpBits.b32 0x7F800000#32).value.isNan = false := by decide +kernel

/-- `-half` itself. -/
theorem meets_QuantizeIsZeroFromMinusHalfDown :
    configValid (.b32 0x4083126F#32) = true ∧ (FpBits.b32 0xC003126F#32).fmt = (FpBits.b32 0x4083126F#32).fmt
    ∧ Fp.le (FpBits.b32 0xC003126F#32).value (quantHalf .binary32 (FpBits.b32 0x4083126F#32).value).neg = true := by decide +kernel

/-- Both predicates at 4.096 V, and `TopExact` false at 2.4 V (40_quantizer.md R89). -/
theorem meets_QuantizeAtPlusHalf :
    configValid (.b32 0x4083126F#32) = true ∧ HalfExact .binary32 (FpBits.b32 0x4083126F#32).value
    ∧ TopExact .binary32 (FpBits.b32 0x4083126F#32).value .w20
    ∧ Fp.le (quantHalf .binary32 (FpBits.b32 0x4083126F#32).value) (FpBits.b32 0x4003126F#32).value = true
    ∧ HalfExact .binary32 (FpBits.b32 0x4019999A#32).value ∧ ¬ TopExact .binary32 (FpBits.b32 0x4019999A#32).value .w16 := by
  unfold HalfExact TopExact; decide +kernel

theorem meets_HalfIsExactUnlessTheLastBitIsLost :
    configValid (.b32 0x00FFFFFF#32) = true ∧ ¬ HalfExact .binary32 (FpBits.b32 0x00FFFFFF#32).value
    ∧ HalfExact .binary32 (FpBits.b32 0x01000001#32).value ∧ HalfExact .binary32 (FpBits.b32 0x00FFFFFE#32).value
    ∧ configValid (.b64 0x001FFFFFFFFFFFFF#64) = true ∧ ¬ HalfExact .binary64 (FpBits.b64 0x001FFFFFFFFFFFFF#64).value
    ∧ HalfExact .binary64 (FpBits.b64 0x0020000000000001#64).value ∧ HalfExact .binary64 (FpBits.b64 0x001FFFFFFFFFFFFE#64).value := by
  unfold HalfExact; decide +kernel

theorem meets_QuantizeIsMonotone :
    configValid (.b32 0x4083126F#32) = true
    ∧ Fp.le (FpBits.b32 0x80000000#32).value (FpBits.b32 0x00000000#32).value = true
    ∧ Fp.le (FpBits.b32 0xFF800000#32).value (FpBits.b32 0x7F800000#32).value = true := by decide +kernel

/-- An infinite voltage, an overflow of `prod` on either side (95_test_vectors.md 2.1), and one of `shifted`. -/
theorem meets_InfiniteVoltagesSaturate :
    configValid (.b32 0x4083126F#32) = true ∧ (FpBits.b32 0x7F61B1E6#32).value.isNan = false
    ∧ (FpBits.b32 0x7F800000#32).value = .inf false ∧ (FpBits.b32 0xFF800000#32).value = .inf true
    ∧ quantProd .binary32 (FpBits.b32 0x4083126F#32).value .w20 (FpBits.b32 0x7F61B1E6#32).value = .inf false
    ∧ quantProd .binary32 (FpBits.b32 0x4083126F#32).value .w20 (FpBits.b32 0xFF61B1E6#32).value = .inf true
    ∧ quantShifted .binary32 (FpBits.b32 0x7F61B1E6#32).value (FpBits.b32 0x7F7FFFFF#32).value = .inf false := by decide +kernel

theorem meets_IdealQuantizerLaws : (0 : ℝ) < 4096 / 1000 ∧ (4096 / 1000 / 2 : ℝ) ≤ 3 ∧ (-3 : ℝ) ≤ -(4096 / 1000 / 2) := by
  norm_num

/-- 2 V: at 1 V (`half` 1, `shifted` 2, `prod` 2097150) and at -0 V (`shifted` 1, `prod` 1048575). -/
theorem meets_QuantizeIsNearTheIdeal :
    (FpBits.b32 0x40000000#32).value = .fin 2 ∧ (FpBits.b32 0x3F800000#32).value = .fin 1
    ∧ (FpBits.b32 0x80000000#32).value = .zero true ∧ quantHalf .binary32 (.fin 2) = .fin 1
    ∧ Fmt.binary32.NormalRange (2 / 2) ∧ Fmt.binary32.NormalRange (1 + 1)
    ∧ quantShifted .binary32 (.fin 2) (.fin 1) = .fin 2 ∧ quantShifted .binary32 (.fin 2) (.zero true) = .fin 1
    ∧ Fmt.binary32.NormalRange (2 * 1048575)
    ∧ ∀ g : ℚ, quantProd .binary32 (.fin 2) .w20 (.fin 1) = .fin g → Fmt.binary32.NormalRange (g / 2) := by
  have hp : quantProd .binary32 (.fin 2) .w20 (.fin 1) = .fin 2097150 := by decide +kernel
  refine ⟨by decide +kernel, by decide +kernel, by decide +kernel, by decide +kernel, ?_, ?_, by decide +kernel, by decide +kernel,
    ?_, fun g hg => ?_⟩
  · exact .inr (by decide +kernel)
  · exact .inr (by decide +kernel)
  · exact .inr (by decide +kernel)
  · rw [hp] at hg; cases hg; exact .inr (by decide +kernel)

theorem meets_UnpackOfPackIsTheCode :
    (0xFFFFF#32).toNat ≤ Width.maxCode .w20 ∧ (0xFFFF#32).toNat ≤ Width.maxCode .w16 := by decide

/-- The three cases: not ready, a NaN, a voltage; in both forms. -/
theorem meets_VtocAnswersTheCode :
    (FpBits.b32 0x7FC00000#32).fmt = (block20 []).fmt ∧ (FpBits.b64 0#64).fmt = (block64 []).fmt ∧ notReady20.ready = false
    ∧ (block20 []).ready = true ∧ (FpBits.b32 0x7FC00000#32).value.isNan = true ∧ (FpBits.b32 0#32).value.isNan = false := by
  decide +kernel

theorem meets_VtocDependsOnTheConfigurationOnly :
    (FpBits.b32 0#32).fmt = (block20 []).fmt ∧ (block20 [.silent]).cfgVref = (block20 []).cfgVref
    ∧ (block20 [.silent]).cfgWidth = (block20 []).cfgWidth ∧ (block20 [.silent]).ready = (block20 []).ready := by decide

/-- The least and the largest valid patterns, the invalid ones next to them, and a device in step. -/
theorem meets_InitLoadsTheConfiguration :
    (FpBits.b32 0x00000001#32).fmt = (block20 []).fmt ∧ configValid (.b32 0x00000001#32) = true
    ∧ configValid (.b32 0x7F7FFFFF#32) = true ∧ configValid (.b32 0x00000000#32) = false
    ∧ configValid (.b32 0x7F800000#32) = false ∧ configValid (.b64 0x0000000000000001#64) = true
    ∧ configValid (.b64 0x7FF0000000000000#64) = false ∧ (block20 []).dev.AtRest := by decide +kernel

theorem meets_SendcodeRunsTheHandshake :
    notReady20.ready = false ∧ (block20 [.answers .ok]).ready = true
    ∧ (block20 [.answers .ok]).provider (pack .w20 0xFFFFF#32) = .answers .ok
    ∧ (block20 [.answers .fail]).provider (pack .w20 0x100000#32) = .answers .fail
    ∧ (block64 [.answers .ok]).provider (pack .w16 0#32) = .answers .ok := by decide

theorem meets_TracesOfSendcodeAreExactlyTwoShapes : (block20 []).ready = true := by decide

theorem meets_SetvoltageSendsTheCode :
    (FpBits.b32 0#32).fmt = (block20 []).fmt ∧ (block20 []).ready = true ∧ (FpBits.b32 0#32).value.isNan = false
    ∧ (block20 [.answers .ok]).provider (pack .w20 ((block20 []).codeFor (.b32 0#32))) = .answers .ok
    ∧ (block20 [.answers .fail]).provider (pack .w20 ((block20 []).codeFor (.b32 0#32))) = .answers .fail := by decide +kernel

theorem meets_SetvoltageIsVtocThenSendcode :
    (FpBits.b32 0x3F800000#32).fmt = (block20 [.answers .fail]).fmt ∧ (block20 [.answers .fail]).ready = true
    ∧ configValid (block20 [.answers .fail]).cfgVref = true ∧ (FpBits.b32 0x3F800000#32).value.isNan = false
    ∧ isNext (exec (.setvoltageOf 0#1 (.b32 0x3F800000#32)) (block20 [.answers .fail])) = true := by decide +kernel

theorem meets_NotReadyBlocksOnlyAnswer : State.reset.ready = false ∧ (FpBits.b32 0#32).fmt = State.reset.fmt := ⟨rfl, rfl⟩

theorem meets_FirstErrorIsReported :
    (FpBits.b32 0x7FC00000#32).fmt = notReady20.fmt ∧ notReady20.ready = false ∧ (block20 []).ready = true
    ∧ (FpBits.b32 0x7FC00000#32).value.isNan = true ∧ (FpBits.b32 0#32).value.isNan = false
    ∧ (block20 [.answers .fail]).provider (pack .w20 ((block20 []).codeFor (.b32 0#32))) = .answers .fail
    ∧ isNext (exec (.initOf .w20 (.b32 0x7FC00000#32)) (block20 [])) = true := by decide +kernel

theorem meets_EveryCommandAnswersOnce :
    (Instr.setvoltageOf 0#1 (.b32 0#32)).isCommand = true
    ∧ isNext (exec (.setvoltageOf 0#1 (.b32 0#32)) (block20 [.answers .fail])) = true
    ∧ isNext (exec (.initOf .w16 (.b32 0#32)) (block20 [])) = true
    ∧ isNext (exec (.vtocOf 1#1 (.b32 0#32)) (block20 [])) = true
    ∧ isNext (exec (.sendcodeOf .binary64 0#1 0#32 0#32) (block64 [.answers .ok])) = true := by decide +kernel

theorem meets_FailedInitLocksUntilAValidOne :
    (FpBits.b32 0x80000000#32).fmt = (block20 []).fmt ∧ configValid (.b32 0x80000000#32) = false
    ∧ (FpBits.b32 0x40A00000#32).fmt = (block20 []).fmt ∧ configValid (.b32 0x40A00000#32) = true := by decide +kernel

theorem meets_NewConfigurationIsUsedNext :
    (FpBits.b32 0x40A00000#32).fmt = (block20 []).fmt ∧ configValid (.b32 0x40A00000#32) = true
    ∧ see (exec (.initOf .w16 (.b32 0x40A00000#32)) (block20 [.answers .ok])) (fun t => t.provider (pack .w16 0xABCDE#32))
        = some (.answers .ok)
    ∧ (FpBits.b32 0#32).value.isNan = false := by decide +kernel

theorem meets_RetryPulsesTheLatchOnce :
    (block20 [.answers .fail, .answers .ok]).ready = true
    ∧ (block20 [.answers .fail, .answers .ok]).provider (pack .w20 0x12345#32) = .answers .fail
    ∧ see (exec (.sendcodeOf .binary32 0#1 0#32 0x12345#32) (block20 [.answers .fail, .answers .ok]))
        (fun t => t.provider (pack .w20 0x12345#32)) = some (.answers .ok) := by decide +kernel

theorem meets_SilentProviderStopsTheBlock :
    (block20 [.silent]).ready = true ∧ (block20 [.silent]).provider (pack .w20 0#32) = .silent
    ∧ (FpBits.b32 0#32).fmt = (block20 [.silent]).fmt ∧ (FpBits.b32 0#32).value.isNan = false
    ∧ (block20 [.silent]).provider (pack .w20 ((block20 [.silent]).codeFor (.b32 0#32))) = .silent := by decide +kernel

theorem meets_ForeignFormatIsRefused :
    (FpBits.b64 0#64).fmt ≠ (block20 []).fmt ∧ Fmt.binary64 ≠ (block20 []).fmt ∧ (FpBits.b32 0#32).fmt ≠ (block64 []).fmt := by decide

theorem meets_OnlyInitWritesTheConfiguration :
    (Instr.vtoc32 0#1 0#32).isInit = false ∧ isNext (exec (.vtoc32 0#1 0#32) (block20 [])) = true
    ∧ (Instr.sendcode32 0#1 0#32).isInit = false ∧ isNext (exec (.sendcode32 0#1 0#32) (block20 [.answers .fail])) = true
    ∧ (Instr.frame16 0#16).isInit = false ∧ isNext (exec (.frame16 0#16) (block20 [])) = true := by decide +kernel

theorem block20_boundary (answers : List ProviderMove) : (block20 answers).Boundary :=
  ⟨rfl, rfl, fun _ => (by decide +kernel : configValid (.b32 0x4083126F#32) = true), fun _ => rfl, fun _ => rfl⟩

theorem meets_LinesAreIdleAfterEveryCommand :
    (block20 [.answers .fail]).Boundary ∧ (block20 [.answers .fail]).ready = true ∧ (Instr.sendcode32 0#1 0#32).isCommand = true
    ∧ isNext (exec (.sendcode32 0#1 0#32) (block20 [.answers .fail])) = true :=
  ⟨block20_boundary _, by decide +kernel⟩

theorem meets_SequencePositionsAndPins :
    (block20 [.answers .ok]).ldacN = .high ∧ (block20 [.answers .ok]).ready = true
    ∧ (block20 [.answers .ok]).provider (pack .w20 0#32) = .answers .ok
    ∧ (block20 [.answers .fail]).provider (pack .w20 0#32) = .answers .fail := by decide

theorem meets_HandshakeCommitsTheCode :
    (block20 [.answers .ok]).ready = true ∧ (block20 [.answers .ok]).dev.AtRest
    ∧ (block20 [.answers .ok]).provider (pack .w20 0x100000#32) = .answers .ok
    ∧ (FpBits.b32 0xBF800000#32).fmt = (block20 []).fmt ∧ (FpBits.b32 0xBF800000#32).value.isNan = false
    ∧ configValid (block20 []).cfgVref = true
    ∧ (block20 [.answers .ok]).provider (pack .w20 ((block20 [.answers .ok]).codeFor (.b32 0xBF800000#32))) = .answers .ok := by
  decide +kernel

theorem meets_FailedTransferKeepsTheCommittedCode :
    (block20 [.answers .fail]).ready = true ∧ (block20 [.answers .fail]).dev.AtRest
    ∧ (block20 [.answers .fail]).provider (pack .w20 0#32) = .answers .fail
    ∧ (FpBits.b32 0xBF800000#32).fmt = (block20 [.answers .fail]).fmt ∧ (FpBits.b32 0xBF800000#32).value.isNan = false
    ∧ (block20 [.answers .fail]).provider (pack .w20 ((block20 [.answers .fail]).codeFor (.b32 0xBF800000#32))) = .answers .fail := by
  decide +kernel

/-- A device that has seen what it has seen of the two lines, holding a code and no frame. -/
def deviceAt (cs : CsPhase) (latch : LatchPhase) : Device :=
  { cs := cs, latch := latch, fresh := false, shift := .lost [], out := .known 0x55555#20 }

/-- A device after reset, one at rest, and one whose latch line is low. -/
theorem meets_FramesReachTheDevice :
    State.reset.dev.cs = .unknown ∧ State.reset.dev.latch = .unknown ∧ (block20 []).dev.cs = .high ∧ (block20 []).dev.latch = .high
    ∧ ({ block20 [] with dev := deviceAt .high .held }).dev.latch = .held := ⟨rfl, rfl, rfl, rfl, rfl⟩

/-- A whole handshake from a device that holds nothing, and one from a device that holds a frame from before a violation. -/
theorem meets_DeviceShowsOnlyDeliveredCodes :
    let d : Device := { cs := .high, latch := .unknown, fresh := false, shift := .known [0xFF#8, 0xFF#8, 0xF0#8], out := .lost 0#20 }
    d.PulseInOrder ∧ d.out.defined = false ∧ d.fresh = false ∧ { d with fresh := true, shift := .lost [] }.shift.defined = false
    ∧ (∀ bytes, d.cs ≠ .framed bytes)
    ∧ (d.watch [(0, .pin .csN .low), (1, .xfer [0x12#8, 0x34#8, 0x50#8] .ok), (2, .pin .csN .high), (3, .pin .ldacN .low),
        (4, .delay 20), (5, .pin .ldacN .high)]).out.defined = true :=
  ⟨fun _ => rfl, rfl, rfl, rfl, nofun, rfl⟩

theorem meets_DeviceKeepsPulsesInOrder : (deviceAt .high .held).PulseInOrder ∧ (deviceAt .fallen .high).PulseInOrder := by decide

theorem meets_ViolatedOrderLosesTheCode :
    (deviceAt .fallen .high).cs = .fallen ∧ (∃ bytes, (deviceAt (.framed [0x12#8]) .unknown).cs = .framed bytes)
    ∧ (deviceAt .spent .high).cs = .spent ∧ (deviceAt .high .fallen).latch = .fallen ∧ (deviceAt .high .held).latch = .held
    ∧ (deviceAt .unknown .spent).latch = .spent ∧ (deviceAt .high .high).cs ≠ .fallen ∧ (deviceAt .high .high).latch ≠ .fallen
    ∧ 19 < Config.tLdpwMin :=
  ⟨rfl, ⟨_, rfl⟩, rfl, rfl, rfl, rfl, nofun, nofun, by decide⟩

/-- Each line of the rule, at its edges: the least hold and one below it, a frame, and none since a violation. -/
theorem meets_DeviceFollowsTheThreeLines :
    (deviceAt .unknown .unknown).cs = .unknown ∧ (deviceAt .high .high).cs = .high ∧ (deviceAt .high .high).latch = .high
    ∧ Config.tLdpwMin ≤ 20 ∧ 19 < Config.tLdpwMin ∧ (deviceAt .high .high).fresh = false ∧ (deviceAt .high .high).shift.defined = false
    ∧ { deviceAt .high .high with fresh := true, shift := .known [0xAB#8, 0xCD#8] }.shift.defined = true
    ∧ unpack [0xAB#8, 0xCD#8] = some 0xABCD#20 ∧ unpack [0xAB#8] = none ∧ (deviceAt .fallen .high).cs = .fallen := by decide

-- 20_memory.md R40, line 1: a frame after reset, before any line has been seen high
theorem test_frame_after_reset :
    see (exec (.frame24 0x12345#20 0#4) State.reset) (fun t => (t.dev.shift, t.dev.out.defined))
      = some (.known [0x12#8, 0x34#8, 0x50#8], false) := by decide +kernel

-- 20_memory.md R40, line 3, 93_implementation_defined.md U7: a pulse without its hold loses the code and keeps the frame
theorem test_violation_keeps_the_frame :
    let d := { deviceAt .high .high with fresh := true, shift := .known [0xAB#8, 0xCD#8] }.watch
      [(0, .pin .ldacN .low), (1, .pin .ldacN .high), (2, .pin .ldacN .low), (3, .delay 20), (4, .pin .ldacN .high)]
    d.shift = .known [0xAB#8, 0xCD#8] ∧ d.out.defined = false := by decide

/-- A safe state in which a SENDCODE waits. -/
def waiting : State := { block20 [.answers .ok] with inputs := [.word ⟨5, 0x400012345⟩, .reset] }

theorem meets_StepKeepsTheBoundary : waiting.Boundary ∧ isNext (step waiting) = true :=
  ⟨⟨rfl, rfl, fun _ => (by decide +kernel : configValid (.b32 0x4083126F#32) = true), fun _ => rfl, fun _ => rfl⟩,
    by decide +kernel⟩

theorem meets_StepKeepsSafe : waiting.Safe ∧ isNext (step waiting) = true :=
  ⟨⟨meets_StepKeepsTheBoundary.1, fun _ => ⟨rfl, rfl⟩, ⟨Nat.le_refl _, rfl⟩⟩, meets_StepKeepsTheBoundary.2⟩

theorem meets_OrderedTracesPulseAfterChipSelect :
    monitor .quiet (goodHandshake [0x12#8] 20 ++ failedHandshake [0x34#8]) = some .quiet
    ∧ goodHandshake [0x12#8] 20 = [.pin .csN .low, .xfer [0x12#8] .ok, .pin .csN .high] ++ .pin .ldacN .low :: [.delay 20, .pin .ldacN .high]
    ∧ monitor .quiet ([] ++ .pin .csN .low :: []) = some .selected
    ∧ monitor .quiet ([.pin .csN .low, .xfer [0x12#8] .ok, .pin .csN .high] ++ .pin .ldacN .low :: []) = some .latched := by decide

/-- A command at a free port, and a frame while a command runs. -/
theorem meets_StepRunsTheWordPresented :
    waiting.inputs = .word ⟨5, 0x400012345⟩ :: [.reset] ∧ decode ⟨5, 0x400012345⟩ = .ok (.sendcode32 0#1 0x12345#32)
    ∧ waiting.busy = false ∧ decode ⟨3, 0x123450⟩ = .ok (.frame24 0x12345#20 0#4) ∧ (Instr.frame24 0x12345#20 0#4).isCommand = false := by
  decide

theorem meets_BusyPortHoldsTheCommand :
    { waiting with busy := true }.inputs = .word ⟨5, 0x400012345⟩ :: [.reset]
    ∧ decode ⟨5, 0x400012345⟩ = .ok (.sendcode32 0#1 0x12345#32) ∧ (Instr.sendcode32 0#1 0x12345#32).isCommand = true
    ∧ { waiting with busy := true }.busy = true := by decide

theorem meets_ResetRequestResets : { block20 [] with inputs := [.reset], seq := 4, busy := true }.inputs = .reset :: [] := rfl

theorem meets_HistoriesOnlyGrow : isNext (step waiting) = true := meets_StepKeepsTheBoundary.2

/-- A command that completes, one that is never answered, one that is refused, and one that still waits at a busy port. -/
theorem meets_ResetDuringACommandCutsItOff :
    (cutting 6 [.answers .ok]).inputs = .cut ⟨5, 0x400012345⟩ 6 :: [] ∧ decode ⟨5, 0x400012345⟩ = .ok (.sendcode32 0#1 0x12345#32)
    ∧ (cutting 6 [.answers .ok]).busy = false ∧ isNext (exec (.sendcode32 0#1 0x12345#32) (cutting 6 [.answers .ok])) = true
    ∧ exec (.sendcode32 0#1 0x12345#32) (cutting 6 [.silent]) = .fault .transferNeverAnswers
    ∧ { cutting 6 [] with inputs := [.cut ⟨9, 0x5DEADBEEF00012345⟩ 1] }.inputs = .cut ⟨9, 0x5DEADBEEF00012345⟩ 1 :: []
    ∧ decode ⟨9, 0x5DEADBEEF00012345⟩ = .ok (.sendcode64 1#1 0xDEADBEEF#32 0x12345#32)
    ∧ exec (.sendcode64 1#1 0xDEADBEEF#32 0x12345#32) (cutting 6 []) = .refused .foreignFormat
    ∧ { cutting 6 [] with busy := true }.busy = true ∧ (Instr.sendcode32 0#1 0x12345#32).isCommand = true :=
  ⟨rfl, by decide, rfl, by decide +kernel, rfl, rfl, by decide, rfl, rfl, rfl⟩

/-- An instruction that completes, one that stops with the fault, one that is refused. -/
theorem meets_DeviceIsNeverRead :
    isNext (exec (.sendcode32 0#1 0#32) (block20 [.answers .ok])) = true
    ∧ exec (.sendcode32 0#1 0#32) (block20 [.silent]) = .fault .transferNeverAnswers
    ∧ exec (.sendcode64 0#1 0#32 0#32) (block20 []) = .refused .foreignFormat :=
  ⟨by decide +kernel, rfl, rfl⟩

end Sys2Proof.Tests
end

namespace Sys2Proof.Machine

/-! SUPPORT. What a step does with a word that decodes (00_scope.md R7, 60_exceptions.md R142). -/

/-- Only a command waits, and only while the block is busy (60_exceptions.md R142). -/
theorem keepsWaiting_of_decode {p : PortWord} {i : Instr} (s : State) (hd : decode p = .ok i) :
    s.keepsWaiting p = (s.busy && i.isCommand) := by
  rw [State.keepsWaiting, isFrame_of_decode hd, Bool.not_not]

/-- A word that decodes runs its instruction. -/
theorem onWord_of_decode {p : PortWord} {i : Instr} (run : Instr → State → Host.Outcome State Fault Refusal) (s : State)
    (hd : decode p = .ok i) : onWord p run s = run i s := by
  rw [onWord, hd]

/-- The step at a word in front of the inputs: it waits, or it is taken and decoded (log 17). -/
theorem step_of_word {s : State} {p : PortWord} {rest : List Input} (hi : s.inputs = .word p :: rest) :
    step s = if s.keepsWaiting p then .next s else onWord p exec { s with inputs := rest } := by
  rw [step, takeInput, hi]

/-- Settles O51: the word is not one that waits, so it is taken, and what it decodes to is executed. -/
theorem stepRunsTheWordPresented : Obligations.StepRunsTheWordPresented := by
  intro s p rest i hi hd hfree
  have htaken : s.keepsWaiting p = false := by
    rw [keepsWaiting_of_decode s hd, Bool.and_eq_false_iff]
    exact hfree
  calc step s = onWord p exec { s with inputs := rest } := by rw [step_of_word hi, htaken, if_neg Bool.false_ne_true]
    _ = exec i { s with inputs := rest } := onWord_of_decode exec _ hd

end Sys2Proof.Machine

namespace Sys2Proof.Machine
open Host (Outcome)

/-! SUPPORT. The positions of the handshake, and what a whole handshake leaves (10_state.md R18, 41_transport.md R108, R112). -/

section Positions

variable (s : State) (bytes : List Byte) (a : Answer)

@[simp] theorem hsStep1_seq : (hsStep1 s).seq = 1 := rfl
@[simp] theorem hsStep1_csN : (hsStep1 s).csN = .low := rfl
@[simp] theorem hsStep1_ldacN : (hsStep1 s).ldacN = s.ldacN := rfl
@[simp] theorem hsStep2_seq : (hsStep2 bytes a s).seq = 2 := rfl
@[simp] theorem hsStep2_csN : (hsStep2 bytes a s).csN = s.csN := rfl
@[simp] theorem hsStep2_ldacN : (hsStep2 bytes a s).ldacN = s.ldacN := rfl
@[simp] theorem hsStep3_seq : (hsStep3 s).seq = 3 := rfl
@[simp] theorem hsStep3_csN : (hsStep3 s).csN = .high := rfl
@[simp] theorem hsStep3_ldacN : (hsStep3 s).ldacN = s.ldacN := rfl
@[simp] theorem hsStep4_seq : (hsStep4 s).seq = 4 := rfl
@[simp] theorem hsStep4_csN : (hsStep4 s).csN = s.csN := rfl
@[simp] theorem hsStep4_ldacN : (hsStep4 s).ldacN = .low := rfl
@[simp] theorem hsStep5_seq : (hsStep5 s).seq = 5 := rfl
@[simp] theorem hsStep5_csN : (hsStep5 s).csN = s.csN := rfl
@[simp] theorem hsStep5_ldacN : (hsStep5 s).ldacN = s.ldacN := rfl
@[simp] theorem hsStep6_seq : (hsStep6 s).seq = 6 := rfl
@[simp] theorem hsStep6_csN : (hsStep6 s).csN = s.csN := rfl
@[simp] theorem hsStep6_ldacN : (hsStep6 s).ldacN = .high := rfl
@[simp] theorem hsRestore_seq : (hsRestore s).seq = s.seq := rfl
@[simp] theorem hsRestore_csN : (hsRestore s).csN = s.csN := rfl
@[simp] theorem hsRestore_ldacN : (hsRestore s).ldacN = .high := rfl

end Positions

/-- A successful transfer is followed by steps 4 to 6 (41_transport.md R111). -/
theorem afterFrame_ok (s : State) : afterFrame .ok s = hsStep6 (hsStep5 (hsStep4 s)) := rfl

/-- A failed transfer is followed by the restoration of the latch line (41_transport.md R112). -/
theorem afterFrame_fail (s : State) : afterFrame .fail s = hsRestore s := rfl

/-- The state `t` after a whole handshake from `s` with the response `r`, whatever the transfer's answer was. -/
structure Handshaken (s t : State) (r : Response) : Prop where
  cfgVref : t.cfgVref = s.cfgVref
  cfgWidth : t.cfgWidth = s.cfgWidth
  ready : t.ready = s.ready
  busy : t.busy = false
  seq : t.seq = 0
  csN : t.csN = .high
  ldacN : t.ldacN = .high
  responses : t.responses = s.responses ++ [r]
  cutAt : t.cutAt = s.cutAt
  ordered : ∃ es, t.trace = s.trace ++ es ∧ monitor .quiet es = some .quiet
  atRest : s.dev.AtRest → t.dev.AtRest

/-- A whole handshake leaves a device at rest at rest. -/
theorem handshake_atRest {s : State} (a : Answer) (bytes : List Byte) (code : Code) (h : s.dev.AtRest) :
    ((afterFrame a (hsStep3 (hsStep2 bytes a (hsStep1 s)))).respond (Answer.result a) code).dev.AtRest := by
  cases a with
  | ok => rw [handshake_ok_dev s bytes code h]; exact ⟨rfl, rfl⟩
  | fail => rw [handshake_fail_dev s bytes code h]; exact h

/-- A state that differs from `s` as after a whole handshake. -/
theorem handshaken_of_eq {s t : State} {r : Response} {answers : List ProviderMove} {holds : List ℕ} {es : List Event} {draws : ℕ}
    (ht : t = { s with
      busy := false, seq := 0, csN := .high, ldacN := .high, dev := t.dev, answers := answers, holds := holds
      trace := s.trace ++ es, responses := s.responses ++ [r], draws := draws })
    (hm : monitor .quiet es = some .quiet) (hd : s.dev.AtRest → t.dev.AtRest) : Handshaken s t r where
  cfgVref := by rw [ht]
  cfgWidth := by rw [ht]
  ready := by rw [ht]
  busy := by rw [ht]
  seq := by rw [ht]
  csN := by rw [ht]
  ldacN := by rw [ht]
  responses := by rw [ht]
  cutAt := by rw [ht]
  ordered := ⟨es, by rw [ht], hm⟩
  atRest := hd

/-- What every whole handshake does: its events are ordered (41_transport.md R113), whichever way the transfer went. -/
theorem handshake_handshaken (s : State) (a : Answer) (bytes : List Byte) (code : Code) :
    Handshaken s ((afterFrame a (hsStep3 (hsStep2 bytes a (hsStep1 s)))).respond (Answer.result a) code)
      ⟨Answer.result a, code⟩ := by
  have hd := handshake_atRest (s := s) a bytes code
  cases a with
  | ok =>
    obtain ⟨t, d, rfl, hhold, ht⟩ := handshake_ok s bytes code
    exact handshaken_of_eq ht (monitor_goodHandshake bytes hhold) hd
  | fail =>
    obtain ⟨t, rfl, ht⟩ := handshake_fail s bytes code
    exact handshaken_of_eq ht (monitor_failedHandshake bytes) hd

/-- Sending a frame, where it completes, is a whole handshake. -/
theorem sendFrame_handshaken {s t : State} {bytes : List Byte} {code : Code} (h : sendFrame bytes code s = .next t) :
    ∃ a, Handshaken s t ⟨Answer.result a, code⟩ := by
  obtain ⟨a, -, rfl⟩ := sendFrame_next h
  exact ⟨a, handshake_handshaken s a bytes code⟩

/-- SENDCODE in a ready block whose provider answers is the handshake of the packed code. -/
theorem exec_sendcodeOf_answers {s : State} {x : BitVec 1} {hi : BitVec 32} {c : Code} {a : Answer} (hr : s.ready = true)
    (hp : s.provider (pack s.cfgWidth c) = .answers a) :
    exec (.sendcodeOf s.fmt x hi c) s = .next
      ((afterFrame a (hsStep3 (hsStep2 (pack s.cfgWidth c) a (hsStep1 s.accept)))).respond (Answer.result a) 0) :=
  calc exec (.sendcodeOf s.fmt x hi c) s = sendcodeBody c s.accept := exec_sendcodeOf rfl
    _ = sendFrame (pack s.cfgWidth c) 0 s.accept := sendcodeBody_ready c hr
    _ = _ := sendFrame_answers 0 hp

/-! SUPPORT. The invariants of a command boundary (10_state.md R29). -/

/-- In a block that is not ready the configuration and the lines are free. -/
theorem State.Boundary.of_notReady {s : State} (hb : s.busy = false) (hq : s.seq = 0) (hr : s.ready = false) : s.Boundary where
  notBusy := hb
  seqZero := hq
  validCfg h := by rw [hr] at h; cases h
  csIdle h := by rw [hr] at h; cases h
  ldacIdle h := by rw [hr] at h; cases h

/-- What waits at the ports is no part of the boundary. -/
theorem State.Boundary.withInputs {s : State} (hs : s.Boundary) (rest : List Input) : { s with inputs := rest }.Boundary :=
  ⟨hs.notBusy, hs.seqZero, hs.validCfg, hs.csIdle, hs.ldacIdle⟩

/-- A reset leads to a command boundary from everywhere (10_state.md R28). -/
theorem applyReset_boundary (s : State) : s.applyReset.Boundary := .of_notReady rfl rfl rfl

/-- An instruction that completes ends at a command boundary. -/
theorem Did.boundary {s t : State} (h : Did s t) (hs : s.Boundary) : t.Boundary := by
  cases h with
  | answered r c h => subst h; exact ⟨rfl, rfl, hs.validCfg, hs.csIdle, hs.ldacIdle⟩
  | initFailed h => subst h; exact .of_notReady rfl rfl rfl
  | initDone w v hf hv h => subst h; exact ⟨rfl, rfl, fun _ => hv, fun _ => rfl, fun _ => rfl⟩
  | sent a bytes c hr hp h =>
    subst h
    have hh := handshake_handshaken s.accept a bytes c
    exact ⟨hh.busy, hh.seq, fun _ => hh.cfgVref ▸ hs.validCfg hr, fun _ => hh.csN, fun _ => hh.ldacN⟩
  | received bytes h => subst h; exact ⟨hs.notBusy, hs.seqZero, hs.validCfg, hs.csIdle, hs.ldacIdle⟩

/-- A reset that cuts an instruction off leads to a command boundary. -/
theorem execCut_boundary {s t : State} {k : ℕ} {i : Instr} (h : execCut k i s = .next t) : t.Boundary := by
  obtain ⟨-, m, -, -, rfl⟩ | ⟨-, bytes, rfl⟩ := execCut_did h
  · exact applyReset_boundary m
  · exact applyReset_boundary (s.deviceReceives bytes)

/-- A step from a command boundary ends at one. -/
theorem Took.boundary {s t : State} (h : Took s t) (hs : s.Boundary) : t.Boundary := by
  cases h with
  | waited h => exact h ▸ hs
  | reset rest hi h => exact h ▸ applyReset_boundary _
  | ran p rest i hi hd h => exact (exec_did h).boundary (hs.withInputs rest)
  | resetWhileWaiting p k rest hi h => exact h ▸ applyReset_boundary _
  | cut p k rest i hi hd h => exact execCut_boundary h

/-- The constants of either width (10_state.md R13). -/
theorem width_constants (w : Width) :
    (w = .w16 ∧ w.maxCode = 65535 ∧ w.nbytes = 2) ∨ (w = .w20 ∧ w.maxCode = 1048575 ∧ w.nbytes = 3) := by
  cases w with
  | w16 => exact .inl ⟨rfl, by decide, rfl⟩
  | w20 => exact .inr ⟨rfl, by decide, rfl⟩

/-- Settles O47: what a step does keeps (1) and (2) of 10_state.md R29, and (3) holds of both widths. -/
theorem stepKeepsTheBoundary : Obligations.StepKeepsTheBoundary :=
  fun _ t hs h => ⟨(step_did h).boundary hs, width_constants t.cfgWidth⟩

/-! SUPPORT. The device in step (20_memory.md R40). -/

/-- Nothing is promised of the device of a block that is not ready. -/
theorem State.InStep.of_notReady {s : State} (hr : s.ready = false) : s.InStep :=
  fun h => by rw [hr] at h; cases h

/-- An instruction that completes leaves the device in step. -/
theorem Did.inStep {s t : State} (h : Did s t) (hs : s.InStep) : t.InStep := by
  cases h with
  | answered r c h => subst h; exact hs
  | initFailed h => subst h; exact .of_notReady rfl
  | initDone w v hf hv h => subst h; exact fun _ => both_high_atRest _
  | sent a bytes c hr hp h => subst h; exact fun _ => handshake_atRest a bytes c (s := s.accept) (hs hr)
  | received bytes h =>
    subst h
    intro hr
    have hd : s.dev.AtRest := hs hr
    rw [State.deviceReceives_dev, receive_atRest s.draws bytes hd]
    exact hd

/-! SUPPORT. The order of the trace since the last reset that cut a command off (41_transport.md R113). -/

/-- Events that are ordered by themselves can follow an ordered trace. -/
theorem State.TraceOrdered.append {s t : State} (hs : s.TraceOrdered) {es : List Event} (hc : t.cutAt = s.cutAt)
    (ht : t.trace = s.trace ++ es) (hm : monitor .quiet es = some .quiet) : t.TraceOrdered where
  cutInTrace := by
    rw [hc, ht, List.length_append]
    exact Nat.le_add_right_of_le hs.cutInTrace
  orderedSince := by
    rw [hc, ht, List.drop_append_of_le_length hs.cutInTrace, monitor_append, hs.orderedSince]
    exact hm

/-- Without an event more the trace stays ordered. -/
theorem State.TraceOrdered.of_same {s t : State} (hs : s.TraceOrdered) (hc : t.cutAt = s.cutAt) (ht : t.trace = s.trace) :
    t.TraceOrdered :=
  hs.append (es := []) hc (by rw [ht, List.append_nil]) rfl

/-- A reset that cuts no command off leaves the trace and its mark. -/
theorem applyReset_ordered_of_free {s : State} (hb : s.busy = false) (hs : s.TraceOrdered) : s.applyReset.TraceOrdered :=
  hs.of_same (by simp [hb]) rfl

/-- A reset that cuts a command off begins the order anew, whatever the command had done (70_reset_and_hazards.md R151). -/
theorem applyReset_ordered_of_busy {s : State} (hb : s.busy = true) : s.applyReset.TraceOrdered where
  cutInTrace := by simp [hb]
  orderedSince := by simp [hb, monitor]

/-- An instruction that completes leaves an ordered trace ordered. -/
theorem Did.ordered {s t : State} (h : Did s t) (hs : s.TraceOrdered) : t.TraceOrdered := by
  cases h with
  | answered r c h => subst h; exact hs.of_same rfl rfl
  | initFailed h => subst h; exact hs.of_same rfl rfl
  | initDone w v hf hv h =>
    subst h
    exact hs.append (es := [.pin .csN .high, .pin .ldacN .high]) rfl (by simp) rfl
  | sent a bytes c hr hp h =>
    subst h
    have hh := handshake_handshaken s.accept a bytes c
    obtain ⟨es, ht, hm⟩ := hh.ordered
    exact hs.append hh.cutAt ht hm
  | received bytes h => subst h; exact hs.of_same rfl rfl

/-- A reset that cuts an instruction off at a command boundary leaves an ordered trace. -/
theorem execCut_ordered {s t : State} {k : ℕ} {i : Instr} (h : execCut k i s = .next t) (hb : s.busy = false)
    (hs : s.TraceOrdered) : t.TraceOrdered := by
  obtain ⟨-, m, es, hm, rfl⟩ | ⟨-, bytes, rfl⟩ := execCut_did h
  · exact applyReset_ordered_of_busy hm.busy
  · exact applyReset_ordered_of_free (s := s.deviceReceives bytes) hb (hs.of_same rfl rfl)

/-! SUPPORT. Safety is the three together. -/

/-- What waits at the ports is no part of safety. -/
theorem State.Safe.withInputs {s : State} (hs : s.Safe) (rest : List Input) : { s with inputs := rest }.Safe :=
  ⟨hs.boundary.withInputs rest, hs.inStep, hs.ordered.of_same rfl rfl⟩

/-- An instruction that completes keeps a safe state safe. -/
theorem Did.safe {s t : State} (h : Did s t) (hs : s.Safe) : t.Safe :=
  ⟨h.boundary hs.boundary, h.inStep hs.inStep, h.ordered hs.ordered⟩

/-- A reset of a safe state leaves a safe one. -/
theorem State.Safe.applyReset {s : State} (hs : s.Safe) : s.applyReset.Safe :=
  ⟨applyReset_boundary s, .of_notReady rfl, applyReset_ordered_of_free hs.boundary.notBusy hs.ordered⟩

/-- A reset that cuts an instruction off in a safe state leaves a safe one. -/
theorem execCut_safe {s t : State} {k : ℕ} {i : Instr} (h : execCut k i s = .next t) (hs : s.Safe) : t.Safe where
  boundary := execCut_boundary h
  inStep := by
    obtain ⟨-, m, -, -, rfl⟩ | ⟨-, bytes, rfl⟩ := execCut_did h <;> exact .of_notReady rfl
  ordered := execCut_ordered h hs.boundary.notBusy hs.ordered

/-- Settles O48: each thing a step can do keeps a safe state safe. -/
theorem stepKeepsSafe : Obligations.StepKeepsSafe := by
  intro s t hs h
  cases step_did h with
  | waited h => exact h ▸ hs
  | reset rest hi h => exact h ▸ (hs.withInputs rest).applyReset
  | ran p rest i hi hd h => exact (exec_did h).safe (hs.withInputs rest)
  | resetWhileWaiting p k rest hi h => exact h ▸ (hs.withInputs (.word p :: rest)).applyReset
  | cut p k rest i hi hd h => exact execCut_safe h (hs.withInputs rest)

/-- Settles O49: the block is not ready after reset, and its trace is empty. -/
theorem resetIsSafe : Obligations.ResetIsSafe :=
  ⟨⟨.of_notReady rfl rfl rfl, .of_notReady rfl, ⟨Nat.le_refl 0, rfl⟩⟩, rfl, rfl, rfl, rfl⟩

/-! SUPPORT. What each command can answer (10_state.md R20, 60_exceptions.md R130). -/

/-- What a VTOC does that answers: it gives its response, without a code unless it succeeds. -/
theorem vtocBody_next {s t : State} {v : FpBits} (h : vtocBody v s = .next t) :
    ∃ r c, t = s.respond r c ∧ (r = .success ∨ (r = .notReady ∨ r = .nanOperand) ∧ c = 0) := by
  obtain ⟨-, hc⟩ | ⟨-, -, hc⟩ | ⟨hr, hv, -⟩ := conversion_cases s v
  · rw [vtocBody_error hc] at h; cases h; exact ⟨_, _, rfl, .inr ⟨.inl rfl, rfl⟩⟩
  · rw [vtocBody_error hc] at h; cases h; exact ⟨_, _, rfl, .inr ⟨.inr rfl, rfl⟩⟩
  · rw [vtocBody_code hr hv] at h; cases h; exact ⟨_, _, rfl, .inl rfl⟩

/-- What a SENDCODE does that answers: it is not ready, or it runs a whole handshake. -/
theorem sendcodeBody_next {s t : State} {c : Code} (h : sendcodeBody c s = .next t) :
    t = s.respond .notReady 0 ∨ ∃ a, Handshaken s t ⟨Answer.result a, 0⟩ := by
  cases hr : s.ready with
  | false => rw [sendcodeBody_notReady c hr] at h; cases h; exact .inl rfl
  | true => rw [sendcodeBody_ready c hr] at h; exact .inr (sendFrame_handshaken h)

/-- What a SETVOLTAGE does that answers: an error of its conversion, or a whole handshake. -/
theorem setvoltageBody_next {s t : State} {v : FpBits} (h : setvoltageBody v s = .next t) :
    (∃ r, (r = .notReady ∨ r = .nanOperand) ∧ t = s.respond r 0) ∨ ∃ a c, Handshaken s t ⟨Answer.result a, c⟩ := by
  obtain ⟨-, hc⟩ | ⟨-, -, hc⟩ | ⟨hr, hv, -⟩ := conversion_cases s v
  · rw [setvoltageBody_error hc] at h; cases h; exact .inl ⟨_, .inl rfl, rfl⟩
  · rw [setvoltageBody_error hc] at h; cases h; exact .inl ⟨_, .inr rfl, rfl⟩
  · rw [setvoltageBody_code hr hv] at h
    obtain ⟨a, hh⟩ := sendFrame_handshaken h
    exact .inr ⟨a, _, hh⟩

/-- The results that 60_exceptions.md R130 lists for an instruction; a frame has no response. -/
def listedResults : Instr → List Res
  | .init32 _ _ | .init64 _ _ => [.success, .invalidConfiguration]
  | .vtoc32 _ _ | .vtoc64 _ _ => [.success, .notReady, .nanOperand]
  | .sendcode32 _ _ | .sendcode64 _ _ _ => [.success, .transferFailure, .notReady]
  | .setvoltage32 _ _ | .setvoltage64 _ _ => [.success, .transferFailure, .notReady, .nanOperand]
  | .frame24 _ _ | .frame16 _ => []

/-- The responses that carry a code: of a VTOC that succeeds, and of a SETVOLTAGE that sent (10_state.md R20). -/
def carriesCode : Instr → Res → Bool
  | .vtoc32 _ _, .success | .vtoc64 _ _, .success => true
  | .setvoltage32 _ _, .success | .setvoltage64 _ _, .success => true
  | .setvoltage32 _ _, .transferFailure | .setvoltage64 _ _, .transferFailure => true
  | _, _ => false

/-- From `s` to `t` the instruction gave exactly one response, one that is listed for it. -/
def AnsweredOnce (i : Instr) (s t : State) : Prop :=
  ∃ r : Response, t.responses = s.responses ++ [r] ∧ r.res ∈ listedResults i ∧ (carriesCode i r.res = false → r.code = 0)

@[simp] theorem listedResults_initOf (w : Width) (v : FpBits) :
    listedResults (.initOf w v) = [.success, .invalidConfiguration] := by cases v <;> rfl
@[simp] theorem listedResults_vtocOf (x : BitVec 1) (v : FpBits) :
    listedResults (.vtocOf x v) = [.success, .notReady, .nanOperand] := by cases v <;> rfl
@[simp] theorem listedResults_sendcodeOf (f : Fmt) (x : BitVec 1) (hi : BitVec 32) (c : Code) :
    listedResults (.sendcodeOf f x hi c) = [.success, .transferFailure, .notReady] := by cases f <;> rfl
@[simp] theorem listedResults_setvoltageOf (x : BitVec 1) (v : FpBits) :
    listedResults (.setvoltageOf x v) = [.success, .transferFailure, .notReady, .nanOperand] := by cases v <;> rfl

@[simp] theorem carriesCode_initOf (w : Width) (v : FpBits) (r : Res) : carriesCode (.initOf w v) r = false := by cases v <;> rfl
@[simp] theorem carriesCode_sendcodeOf (f : Fmt) (x : BitVec 1) (hi : BitVec 32) (c : Code) (r : Res) :
    carriesCode (.sendcodeOf f x hi c) r = false := by cases f <;> rfl
theorem carriesCode_vtocOf_success (x : BitVec 1) (v : FpBits) : carriesCode (.vtocOf x v) .success = true := by cases v <;> rfl
theorem carriesCode_setvoltageOf_answer (x : BitVec 1) (v : FpBits) (a : Answer) :
    carriesCode (.setvoltageOf x v) (Answer.result a) = true := by cases v <;> cases a <;> rfl

/-- An answer that found nothing to send or to convert carries no code. -/
theorem carriesCode_of_error (i : Instr) {r : Res} (h : r = .invalidConfiguration ∨ r = .notReady ∨ r = .nanOperand) :
    carriesCode i r = false := by
  obtain rfl | rfl | rfl := h <;> cases i <;> rfl

/-- The two results of a transfer (60_exceptions.md R132). -/
theorem answerResult_cases (a : Answer) : Answer.result a = .success ∨ Answer.result a = .transferFailure := by
  cases a with
  | ok => exact .inl rfl
  | fail => exact .inr rfl

/-- An INIT answers once. -/
theorem initBody_answeredOnce {s t : State} {w : Width} {v : FpBits} (h : initBody w v s = .next t) :
    AnsweredOnce (.initOf w v) s t := by
  unfold initBody at h
  split at h <;> cases h
  · exact ⟨⟨.success, 0⟩, rfl, by simp, fun _ => rfl⟩
  · exact ⟨⟨.invalidConfiguration, 0⟩, rfl, by simp, fun _ => rfl⟩

/-- A VTOC answers once. -/
theorem vtocBody_answeredOnce {s t : State} {x : BitVec 1} {v : FpBits} (h : vtocBody v s = .next t) :
    AnsweredOnce (.vtocOf x v) s t := by
  obtain ⟨r, c, rfl, rfl | ⟨hr, rfl⟩⟩ := vtocBody_next h
  · exact ⟨_, rfl, by simp, by simp [carriesCode_vtocOf_success]⟩
  · exact ⟨_, rfl, by simp [hr], fun _ => rfl⟩

/-- A SENDCODE answers once. -/
theorem sendcodeBody_answeredOnce {s t : State} {f : Fmt} {x : BitVec 1} {hi : BitVec 32} {c : Code}
    (h : sendcodeBody c s = .next t) : AnsweredOnce (.sendcodeOf f x hi c) s t := by
  obtain rfl | ⟨a, hh⟩ := sendcodeBody_next h
  · exact ⟨_, rfl, by simp, fun _ => rfl⟩
  · refine ⟨_, hh.responses, ?_, fun _ => rfl⟩
    obtain ha | ha := answerResult_cases a <;> simp [ha]

/-- A SETVOLTAGE answers once. -/
theorem setvoltageBody_answeredOnce {s t : State} {x : BitVec 1} {v : FpBits} (h : setvoltageBody v s = .next t) :
    AnsweredOnce (.setvoltageOf x v) s t := by
  obtain ⟨r, hr, rfl⟩ | ⟨a, c, hh⟩ := setvoltageBody_next h
  · exact ⟨_, rfl, by simp [hr], fun _ => rfl⟩
  · refine ⟨_, hh.responses, ?_, by simp [carriesCode_setvoltageOf_answer]⟩
    obtain ha | ha := answerResult_cases a <;> simp [ha]

/-- Accepting a command gives no response, so its body's answer is the command's. -/
theorem onPort_answeredOnce {i : Instr} {s t : State} {f : Fmt} {body : State → Outcome State Fault Refusal}
    (h : s.onPort f body = .next t) (hbody : body s.accept = .next t → AnsweredOnce i s.accept t) : AnsweredOnce i s t :=
  hbody (onPort_next h).2

/-- Every command that completes answers once. -/
theorem exec_answeredOnce {i : Instr} {s t : State} (hcmd : i.isCommand = true) (h : exec i s = .next t) :
    AnsweredOnce i s t := by
  cases i with
  | init32 w v => exact onPort_answeredOnce h (initBody_answeredOnce (v := .b32 v))
  | init64 w v => exact onPort_answeredOnce h (initBody_answeredOnce (v := .b64 v))
  | vtoc32 x v => exact onPort_answeredOnce h (vtocBody_answeredOnce (x := x) (v := .b32 v))
  | vtoc64 x v => exact onPort_answeredOnce h (vtocBody_answeredOnce (x := x) (v := .b64 v))
  | sendcode32 x c => exact onPort_answeredOnce h (sendcodeBody_answeredOnce (f := .binary32) (x := x) (hi := 0))
  | sendcode64 x hi c => exact onPort_answeredOnce h (sendcodeBody_answeredOnce (f := .binary64) (x := x) (hi := hi))
  | setvoltage32 x v => exact onPort_answeredOnce h (setvoltageBody_answeredOnce (x := x) (v := .b32 v))
  | setvoltage64 x v => exact onPort_answeredOnce h (setvoltageBody_answeredOnce (x := x) (v := .b64 v))
  | frame24 d p => cases hcmd
  | frame16 d => cases hcmd

/-- Settles O33: the one response is listed for the command and carries a code only where one is meant; the statement's clauses
read this off for each command. -/
theorem everyCommandAnswersOnce : Obligations.EveryCommandAnswersOnce := by
  intro i s t hcmd h
  obtain ⟨r, hresp, hres, hcode⟩ := exec_answeredOnce hcmd h
  refine ⟨r, hresp, fun he => hcode (carriesCode_of_error i he), ?_, ?_, ?_, ?_⟩
  · rintro w v rfl
    exact ⟨by simpa using hres, hcode (carriesCode_initOf w v r.res)⟩
  · rintro x v rfl
    simpa using hres
  · rintro f x hi c rfl
    exact ⟨by simpa using hres, hcode (carriesCode_sendcodeOf f x hi c r.res)⟩
  · rintro x v rfl
    simpa using hres

/-! SUPPORT. What the commands leave of the configuration and of the lines (10_state.md R14, R22). -/

/-- From `s` to `t` the configuration and READY are the same. -/
structure KeepsConfig (s t : State) : Prop where
  cfgVref : t.cfgVref = s.cfgVref
  cfgWidth : t.cfgWidth = s.cfgWidth
  ready : t.ready = s.ready

/-- A response writes no configuration. -/
theorem respond_keepsConfig (s : State) (r : Res) (c : Code) : KeepsConfig s (s.respond r c) := ⟨rfl, rfl, rfl⟩

/-- A whole handshake writes no configuration. -/
theorem Handshaken.keepsConfig {s t : State} {r : Response} (h : Handshaken s t r) : KeepsConfig s t :=
  ⟨h.cfgVref, h.cfgWidth, h.ready⟩

/-- VTOC writes no configuration. -/
theorem vtocBody_keepsConfig {s t : State} {v : FpBits} (h : vtocBody v s = .next t) : KeepsConfig s t := by
  obtain ⟨r, c, rfl, -⟩ := vtocBody_next h
  exact respond_keepsConfig s r c

/-- SENDCODE writes no configuration. -/
theorem sendcodeBody_keepsConfig {s t : State} {c : Code} (h : sendcodeBody c s = .next t) : KeepsConfig s t := by
  obtain rfl | ⟨a, hh⟩ := sendcodeBody_next h
  · exact respond_keepsConfig s _ _
  · exact hh.keepsConfig

/-- SETVOLTAGE writes no configuration. -/
theorem setvoltageBody_keepsConfig {s t : State} {v : FpBits} (h : setvoltageBody v s = .next t) : KeepsConfig s t := by
  obtain ⟨r, -, rfl⟩ | ⟨a, c, hh⟩ := setvoltageBody_next h
  · exact respond_keepsConfig s r 0
  · exact hh.keepsConfig

/-- Accepting a command writes no configuration, so what its body keeps the command keeps. -/
theorem onPort_keepsConfig {s t : State} {f : Fmt} {body : State → Outcome State Fault Refusal} (h : s.onPort f body = .next t)
    (hbody : body s.accept = .next t → KeepsConfig s.accept t) : KeepsConfig s t := by
  obtain ⟨hv, hw, hr⟩ := hbody (onPort_next h).2
  exact ⟨hv, hw, hr⟩

/-- Every instruction but INIT keeps the configuration and READY. -/
theorem exec_keepsConfig {i : Instr} {s t : State} (hi : i.isInit = false) (h : exec i s = .next t) : KeepsConfig s t := by
  cases i with
  | init32 w v => cases hi
  | init64 w v => cases hi
  | vtoc32 x v => exact onPort_keepsConfig h vtocBody_keepsConfig
  | vtoc64 x v => exact onPort_keepsConfig h vtocBody_keepsConfig
  | sendcode32 x c => exact onPort_keepsConfig h sendcodeBody_keepsConfig
  | sendcode64 x hi c => exact onPort_keepsConfig h sendcodeBody_keepsConfig
  | setvoltage32 x v => exact onPort_keepsConfig h setvoltageBody_keepsConfig
  | setvoltage64 x v => exact onPort_keepsConfig h setvoltageBody_keepsConfig
  | frame24 d p => cases h; exact ⟨rfl, rfl, rfl⟩
  | frame16 d => cases h; exact ⟨rfl, rfl, rfl⟩

/-- Settles O39: no body but that of INIT writes the configuration or READY, a response does not, and a frame is not the block's. -/
theorem onlyInitWritesTheConfiguration : Obligations.OnlyInitWritesTheConfiguration := by
  intro i s t hi h
  obtain ⟨hv, hw, hr⟩ := exec_keepsConfig hi h
  exact ⟨hv, hw, hr⟩

/-- An instruction that completes leaves the lines as they were, or both high. -/
theorem Did.lines {s t : State} (h : Did s t) : (t.csN = s.csN ∧ t.ldacN = s.ldacN) ∨ (t.csN = .high ∧ t.ldacN = .high) := by
  cases h with
  | answered r c h => subst h; exact .inl ⟨rfl, rfl⟩
  | initFailed h => subst h; exact .inl ⟨rfl, rfl⟩
  | initDone w v hf hv h => subst h; exact .inr ⟨rfl, rfl⟩
  | sent a bytes c hr hp h =>
    subst h
    have hh := handshake_handshaken s.accept a bytes c
    exact .inr ⟨hh.csN, hh.ldacN⟩
  | received bytes h => subst h; exact .inl ⟨rfl, rfl⟩

/-- Settles O40: a command that leaves the lines leaves those of a ready boundary, which are high (10_state.md R29). -/
theorem linesAreIdleAfterEveryCommand : Obligations.LinesAreIdleAfterEveryCommand := by
  intro i s t hs hr _ h
  obtain ⟨hc, hl⟩ | hhigh := (exec_did h).lines
  · exact ⟨hc.trans (hs.csIdle hr), hl.trans (hs.ldacIdle hr)⟩
  · exact hhigh

/-- Settles O41: each step sets its own position and line and leaves the other line, and SENDCODE is the steps one after the other. -/
theorem sequencePositionsAndPins : Obligations.SequencePositionsAndPins := by
  intro s bytes x hi c hl
  refine ⟨by simp [hl], fun hr hp => ?_, fun hr hp => ?_⟩
  · rw [exec_sendcodeOf_answers hr hp, afterFrame_ok, Answer.result]
  · rw [exec_sendcodeOf_answers hr hp, afterFrame_fail, Answer.result]

end Sys2Proof.Machine

namespace Sys2Proof.Machine

/-! SUPPORT. What one event does to the device (20_memory.md R40; its places are log 5): an equation for each event in order, and one
for each that violates the order. -/

/-- The device after a latch pulse with its hold: it commits what `DEV_SHIFT` holds, if that came since the last violation
(93_implementation_defined.md U7). -/
def Device.pulsed (n : ℕ) (d : Device) : Device :=
  { d with latch := .high, out := if d.fresh then .commit n d.shift else .lost (Config.freeOut n) }

section Observed

variable (n : ℕ) {d : Device} (bytes : List Byte)

/-- Chip-select falls in order: the latch is not low. -/
theorem onCsLow_inOrder (hc : d.cs = .high ∨ d.cs = .unknown) (hl : d.latch.isLow = false) :
    d.onCsLow n = { d with cs := .fallen } := by
  obtain hc | hc := hc <;> simp [Device.onCsLow, hc, hl]

/-- Chip-select falls while the latch is low. -/
theorem onCsLow_latchLow (hc : d.cs = .high ∨ d.cs = .unknown) (hl : d.latch.isLow = true) :
    d.onCsLow n = { d.violated n with cs := .fallen } := by
  obtain hc | hc := hc <;> simp [Device.onCsLow, hc, hl]

/-- Chip-select rises after a whole frame. -/
theorem onCsHigh_framed (hc : d.cs = .framed bytes) :
    d.onCsHigh n = { d with cs := .high, fresh := true, shift := .known bytes } := by
  simp [Device.onCsHigh, hc]

/-- Chip-select rises where no frame has begun. -/
theorem onCsHigh_noFrame (hc : d.cs = .unknown ∨ d.cs = .spent) : d.onCsHigh n = { d with cs := .high } := by
  obtain hc | hc := hc <;> simp [Device.onCsHigh, hc]

/-- Chip-select rises after a period without a transfer. -/
theorem onCsHigh_empty (hc : d.cs = .fallen) : d.onCsHigh n = { d.violated n with cs := .high } := by
  simp [Device.onCsHigh, hc]

/-- The latch falls in order: chip-select is high. -/
theorem onLdacLow_inOrder (hl : d.latch = .high ∨ d.latch = .unknown) (hc : d.cs = .high) :
    d.onLdacLow n = { d with latch := .fallen } := by
  obtain hl | hl := hl <;> simp [Device.onLdacLow, hl, hc]

/-- The latch falls where chip-select is not known to be high. -/
theorem onLdacLow_notHigh (hl : d.latch = .high ∨ d.latch = .unknown) (hc : d.cs ≠ .high) :
    d.onLdacLow n = { d.violated n with latch := .spent } := by
  obtain hl | hl := hl <;> simp [Device.onLdacLow, hl, hc]

/-- The latch rises after its hold. -/
theorem onLdacHigh_held (hl : d.latch = .held) : d.onLdacHigh n = d.pulsed n := by
  simp [Device.onLdacHigh, Device.pulsed, hl]

/-- The latch rises without its hold. -/
theorem onLdacHigh_notHeld (hl : d.latch = .unknown ∨ d.latch = .fallen ∨ d.latch = .spent) :
    d.onLdacHigh n = { d.violated n with latch := .high } := by
  obtain hl | hl | hl := hl <;> simp [Device.onLdacHigh, hl]

/-- The transfer of a chip-select period. -/
theorem onXfer_ok_inOrder (hc : d.cs = .fallen) : d.onXfer n bytes .ok = { d with cs := .framed bytes } := by
  simp [Device.onXfer, hc]

/-- A good transfer that is not the one of its chip-select period. -/
theorem onXfer_ok_notFallen (hc : d.cs ≠ .fallen) : d.onXfer n bytes .ok = d.violated n := by
  simp [Device.onXfer, hc]

/-- The transfer of a chip-select period fails. -/
theorem onXfer_fail_inOrder (hc : d.cs = .fallen) :
    d.onXfer n bytes .fail = { d with cs := .spent, shift := .lost (Config.freeFrame n) } := by
  simp [Device.onXfer, hc]

/-- A transfer that is not the one of its chip-select period fails. -/
theorem onXfer_fail_notFallen (hc : d.cs ≠ .fallen) :
    d.onXfer n bytes .fail = { d.violated n with shift := .lost (Config.freeFrame n) } := by
  simp [Device.onXfer, hc]

/-- The hold of a latch pulse. -/
theorem onDelay_inOrder {t : ℕ} (hl : d.latch = .fallen) (ht : Config.tLdpwMin ≤ t) :
    d.onDelay n t = { d with latch := .held } := if_pos ⟨hl, ht⟩

/-- A time that is no hold. -/
theorem onDelay_noHold {t : ℕ} (h : d.latch ≠ .fallen ∨ t < Config.tLdpwMin) : d.onDelay n t = d.violated n :=
  if_neg fun ⟨hl, ht⟩ => h.elim (· hl) ht.not_gt

end Observed

/-- Settles O46: each of these events is a violation, which loses `DEV_OUT` and does not touch `DEV_SHIFT`. -/
theorem violatedOrderLosesTheCode : Obligations.ViolatedOrderLosesTheCode := by
  intro d n
  refine ⟨fun hc hl => ?_, fun hl hc => ?_, fun bytes hc => ?_, fun hc => ?_, fun hl => ?_, fun t h => ?_⟩
  · have hhigh : d.cs ≠ .high := by obtain hc | ⟨bytes, hc⟩ | hc := hc <;> simp [hc]
    rw [observe_ldacN_low, onLdacLow_notHigh n hl hhigh]
    exact ⟨rfl, rfl⟩
  · have hlow : d.latch.isLow = true := by obtain hl | hl | hl := hl <;> rw [hl] <;> rfl
    rw [observe_csN_low, onCsLow_latchLow n hc hlow]
    exact ⟨rfl, rfl⟩
  · rw [observe_xfer, onXfer_ok_notFallen n bytes hc]
    exact ⟨rfl, rfl⟩
  · rw [observe_csN_high, onCsHigh_empty n hc]
    exact ⟨rfl, rfl⟩
  · rw [observe_ldacN_high, onLdacHigh_notHeld n (.inr hl)]
    exact ⟨rfl, rfl⟩
  · rw [observe_delay, onDelay_noHold n h]
    exact ⟨rfl, rfl⟩

/-! SUPPORT. The three lines of the device's rule (20_memory.md R40). -/

/-- Chip-select falls at a device that is not selected: a frame begins, in order or not. -/
theorem onCsLow_cs (n : ℕ) {d : Device} (hc : d.cs = .high ∨ d.cs = .unknown) : (d.onCsLow n).cs = .fallen := by
  cases hl : d.latch.isLow with
  | false => rw [onCsLow_inOrder n hc hl]
  | true => rw [onCsLow_latchLow n hc hl]

/-- Line 1: a chip-select period with one good transfer writes its bytes to `DEV_SHIFT`. -/
theorem watch_frame_shift {d : Device} (n1 n2 n3 : ℕ) (bytes : List Byte) (hc : d.cs = .high ∨ d.cs = .unknown) :
    (d.watch [(n1, .pin .csN .low), (n2, .xfer bytes .ok), (n3, .pin .csN .high)]).shift = .known bytes := by
  simp only [Device.watch, observe_csN_low, observe_xfer, observe_csN_high]
  rw [onXfer_ok_inOrder n2 bytes (onCsLow_cs n1 hc), onCsHigh_framed n3 bytes rfl]

/-- Line 2: a latch pulse in order with its hold. -/
theorem watch_pulse_held {d : Device} (n1 n2 n3 : ℕ) {t : ℕ} (hc : d.cs = .high) (hl : d.latch = .high ∨ d.latch = .unknown)
    (ht : Config.tLdpwMin ≤ t) :
    d.watch [(n1, .pin .ldacN .low), (n2, .delay t), (n3, .pin .ldacN .high)] = d.pulsed n3 := by
  simp only [Device.watch, observe_ldacN_low, observe_delay, observe_ldacN_high]
  rw [onLdacLow_inOrder n1 hl hc, onDelay_inOrder n2 rfl ht, onLdacHigh_held n3 rfl]
  rfl

/-- Line 3: a latch pulse whose hold is too short loses `DEV_OUT` and keeps the frame. -/
theorem watch_pulse_short {d : Device} (n1 n2 n3 : ℕ) {t : ℕ} (hc : d.cs = .high) (hl : d.latch = .high ∨ d.latch = .unknown)
    (ht : t < Config.tLdpwMin) :
    (d.watch [(n1, .pin .ldacN .low), (n2, .delay t), (n3, .pin .ldacN .high)]).shift = d.shift
    ∧ (d.watch [(n1, .pin .ldacN .low), (n2, .delay t), (n3, .pin .ldacN .high)]).out.defined = false := by
  simp only [Device.watch, observe_ldacN_low, observe_delay, observe_ldacN_high]
  rw [onLdacLow_inOrder n1 hl hc, onDelay_noHold n2 (.inr ht), onLdacHigh_notHeld n3 (.inr (.inr rfl))]
  exact ⟨rfl, rfl⟩

/-- A commit gives a code exactly where the frame is defined and unpacks to it. -/
theorem commit_eq_known_iff (n : ℕ) (shift : DevReg (List Byte)) (c : BitVec 20) :
    DevReg.commit n shift = .known c ↔ shift.defined = true ∧ unpack shift.value = some c := by
  unfold DevReg.commit
  split
  · next hd => cases unpack shift.value <;> simp [hd, DevReg.known, DevReg.lost]
  · next hd => simp [hd, DevReg.known, DevReg.lost]

/-- The code that a pulse commits is the one that a frame unpacks to which came since the last violation. -/
theorem pulsed_out_eq_known_iff (n : ℕ) (d : Device) (c : BitVec 20) :
    (d.pulsed n).out = .known c ↔ d.fresh = true ∧ d.shift.defined = true ∧ unpack d.shift.value = some c := by
  rw [← commit_eq_known_iff n d.shift c, Device.pulsed]
  cases hf : d.fresh with
  | false => simp [DevReg.known, DevReg.lost]
  | true => simp

/-- A register that is defined is known to hold its value. -/
theorem DevReg.eq_known {α : Type} {r : DevReg α} (h : r.defined = true) : r = .known r.value := by
  rw [DevReg.known, ← h]

/-- A failed transfer of a chip-select period keeps `DEV_OUT` (93_implementation_defined.md U6). -/
theorem onXfer_fail_out (n : ℕ) {d : Device} (bytes : List Byte) (hc : d.cs = .fallen) : (d.onXfer n bytes .fail).out = d.out := by
  rw [onXfer_fail_inOrder n bytes hc]

/-- Settles O57: lines 1 and 2 are the frame and the pulse above; that nothing else writes `DEV_SHIFT` is `observe_shift`. -/
theorem deviceFollowsTheThreeLines : Obligations.DeviceFollowsTheThreeLines := by
  intro d n1 n2 n3 bytes t e
  refine ⟨watch_frame_shift n1 n2 n3 bytes, fun hc hl => ?_, ?_⟩
  · obtain ht | ht := Nat.lt_or_ge t Config.tLdpwMin
    · obtain ⟨hshift, hout⟩ := watch_pulse_short n1 n2 n3 hc hl ht
      exact ⟨hshift, fun c hmin => absurd hmin ht.not_ge, fun _ => hout⟩
    · intro after
      have hafter : after = d.pulsed n3 := watch_pulse_held n1 n2 n3 hc hl ht
      rw [hafter]
      refine ⟨rfl, fun c _ hfresh hdef hunpack => (pulsed_out_eq_known_iff n3 d c).2 ⟨hfresh, hdef, hunpack⟩, fun hnone => ?_⟩
      rw [← Bool.not_eq_true]
      intro hout
      obtain ⟨hfresh, hdef, hunpack⟩ := (pulsed_out_eq_known_iff n3 d _).1 (DevReg.eq_known hout)
      obtain hshort | hold | hundef | hbad := hnone
      · exact absurd hshort ht.not_gt
      · simp [hfresh] at hold
      · simp [hdef] at hundef
      · simp [hunpack] at hbad
  · obtain h | ⟨b, rfl, hc, h⟩ | ⟨b, rfl, h⟩ := observe_shift n1 d e
    · exact .inl h
    · exact .inr (.inl ⟨b, rfl, hc, h⟩)
    · exact .inr (.inr ⟨b, rfl, by rw [h]; rfl, onXfer_fail_out n1 b⟩)

/-! SUPPORT. Everything an event can do to the device (20_memory.md R40; log 5). -/

/-- A device with no code, no frame since the last violation, and neither a frame nor a pulse under way that can still complete. -/
structure Device.Blank (d : Device) : Prop where
  noFrame : ∀ bytes, d.cs ≠ .framed bytes
  noPulse : ¬ (d.latch = .fallen ∨ d.latch = .held)
  notFresh : d.fresh = false
  noCode : d.out.defined = false

/-- A frame that was interrupted cannot complete. -/
theorem interrupted_ne_framed (c : CsPhase) (bytes : List Byte) : c.interrupted ≠ .framed bytes := by
  cases c <;> nofun

/-- A latch pulse that was interrupted cannot complete. -/
theorem interrupted_noPulse (l : LatchPhase) : ¬ (l.interrupted = .fallen ∨ l.interrupted = .held) := by
  cases l <;> nofun

/-- A violation leaves the device blank. -/
theorem violated_blank (n : ℕ) (d : Device) : (d.violated n).Blank :=
  ⟨interrupted_ne_framed d.cs, interrupted_noPulse d.latch, rfl, rfl⟩

/-- What one event did to the device: nothing, since the line has that level already; a violation; or a step in order. -/
inductive Observed (n : ℕ) (d : Device) : Event → Device → Prop where
  | same (p : Pin) (l : Level) : Observed n d (.pin p l) d
  | violated {e : Event} {d' : Device} (h : d'.Blank) : Observed n d e d'
  | selected (hc : d.cs = .high ∨ d.cs = .unknown) (hl : d.latch.isLow = false) :
      Observed n d (.pin .csN .low) { d with cs := .fallen }
  | deselected (hc : d.cs = .unknown ∨ d.cs = .spent) : Observed n d (.pin .csN .high) { d with cs := .high }
  | framed (bytes : List Byte) (hc : d.cs = .framed bytes) :
      Observed n d (.pin .csN .high) { d with cs := .high, fresh := true, shift := .known bytes }
  | latched (hl : d.latch = .high ∨ d.latch = .unknown) (hc : d.cs = .high) :
      Observed n d (.pin .ldacN .low) { d with latch := .fallen }
  | pulsed (hl : d.latch = .held) : Observed n d (.pin .ldacN .high) (d.pulsed n)
  | sent (bytes : List Byte) (hc : d.cs = .fallen) : Observed n d (.xfer bytes .ok) { d with cs := .framed bytes }
  | sendFailed (bytes : List Byte) (hc : d.cs = .fallen) :
      Observed n d (.xfer bytes .fail) { d with cs := .spent, shift := .lost (Config.freeFrame n) }
  | timed (t : ℕ) (hl : d.latch = .fallen) (ht : Config.tLdpwMin ≤ t) : Observed n d (.delay t) { d with latch := .held }

section ObservedEvents

variable (n : ℕ) (d : Device)

/-- What chip-select falling does. -/
theorem onCsLow_observed : Observed n d (.pin .csN .low) (d.onCsLow n) := by
  have hfalls (hc : d.cs = .high ∨ d.cs = .unknown) : Observed n d (.pin .csN .low) (d.onCsLow n) := by
    cases hl : d.latch.isLow with
    | false => rw [onCsLow_inOrder n hc hl]; exact .selected hc hl
    | true => rw [onCsLow_latchLow n hc hl]; exact .violated { violated_blank n d with noFrame := nofun }
  cases hc : d.cs with
  | unknown => exact hfalls (.inr hc)
  | high => exact hfalls (.inl hc)
  | fallen | framed bytes | spent => rw [Device.onCsLow, hc]; exact .same .csN .low

/-- What chip-select rising does. -/
theorem onCsHigh_observed : Observed n d (.pin .csN .high) (d.onCsHigh n) := by
  cases hc : d.cs with
  | unknown => rw [onCsHigh_noFrame n (.inl hc)]; exact .deselected (.inl hc)
  | high => rw [Device.onCsHigh, hc]; exact .same .csN .high
  | fallen => rw [onCsHigh_empty n hc]; exact .violated { violated_blank n d with noFrame := nofun }
  | framed bytes => rw [onCsHigh_framed n bytes hc]; exact .framed bytes hc
  | spent => rw [onCsHigh_noFrame n (.inr hc)]; exact .deselected (.inr hc)

/-- What the latch falling does. -/
theorem onLdacLow_observed : Observed n d (.pin .ldacN .low) (d.onLdacLow n) := by
  have hfalls (hl : d.latch = .high ∨ d.latch = .unknown) : Observed n d (.pin .ldacN .low) (d.onLdacLow n) := by
    by_cases hc : d.cs = .high
    · rw [onLdacLow_inOrder n hl hc]; exact .latched hl hc
    · rw [onLdacLow_notHigh n hl hc]; exact .violated { violated_blank n d with noPulse := nofun }
  cases hl : d.latch with
  | unknown => exact hfalls (.inr hl)
  | high => exact hfalls (.inl hl)
  | fallen | held | spent => rw [Device.onLdacLow, hl]; exact .same .ldacN .low

/-- What the latch rising does. -/
theorem onLdacHigh_observed : Observed n d (.pin .ldacN .high) (d.onLdacHigh n) := by
  have hunheld (hl : d.latch = .unknown ∨ d.latch = .fallen ∨ d.latch = .spent) :
      Observed n d (.pin .ldacN .high) (d.onLdacHigh n) := by
    rw [onLdacHigh_notHeld n hl]; exact .violated { violated_blank n d with noPulse := nofun }
  cases hl : d.latch with
  | unknown => exact hunheld (.inl hl)
  | high => rw [Device.onLdacHigh, hl]; exact .same .ldacN .high
  | fallen => exact hunheld (.inr (.inl hl))
  | held => rw [onLdacHigh_held n hl]; exact .pulsed hl
  | spent => exact hunheld (.inr (.inr hl))

/-- What a transfer does. -/
theorem onXfer_observed (bytes : List Byte) (a : Answer) : Observed n d (.xfer bytes a) (d.onXfer n bytes a) := by
  by_cases hc : d.cs = .fallen
  · cases a with
    | ok => rw [onXfer_ok_inOrder n bytes hc]; exact .sent bytes hc
    | fail => rw [onXfer_fail_inOrder n bytes hc]; exact .sendFailed bytes hc
  · cases a with
    | ok => rw [onXfer_ok_notFallen n bytes hc]; exact .violated (violated_blank n d)
    | fail => rw [onXfer_fail_notFallen n bytes hc]; exact .violated { violated_blank n d with }

/-- What time passing does. -/
theorem onDelay_observed (t : ℕ) : Observed n d (.delay t) (d.onDelay n t) := by
  by_cases h : d.latch = .fallen ∧ Config.tLdpwMin ≤ t
  · rw [onDelay_inOrder n h.1 h.2]; exact .timed t h.1 h.2
  · rw [Device.onDelay, if_neg h]; exact .violated (violated_blank n d)

/-- Everything an event can do to the device. -/
theorem observe_observed (e : Event) : Observed n d e (d.observe n e) := by
  cases e with
  | pin p l =>
    cases p with
    | csN => cases l with
      | low => exact onCsLow_observed n d
      | high => exact onCsHigh_observed n d
    | ldacN => cases l with
      | low => exact onLdacLow_observed n d
      | high => exact onLdacHigh_observed n d
  | xfer bytes a => exact onXfer_observed n d bytes a
  | delay t => exact onDelay_observed n d t

end ObservedEvents

/-- No event brings a latch pulse out of order that can still commit. -/
theorem Observed.pulseInOrder {n : ℕ} {d d' : Device} {e : Event} (h : Observed n d e d') (hp : d.PulseInOrder) :
    d'.PulseInOrder := by
  have hnotHigh (hc : d.cs ≠ .high) (hl : d.latch = .fallen ∨ d.latch = .held) : False := hc (hp hl)
  cases h with
  | same p l => exact hp
  | violated h => exact fun hl => absurd hl h.noPulse
  | selected hc hl => intro hlow; obtain hlow | hlow := hlow <;> rw [show d.latch = _ from hlow] at hl <;> cases hl
  | deselected hc => exact fun _ => rfl
  | framed bytes hc => exact fun _ => rfl
  | latched hl hc => exact fun _ => hc
  | pulsed hl => exact nofun
  | sent bytes hc => exact fun hl => (hnotHigh (by simp [hc]) hl).elim
  | sendFailed bytes hc => exact fun hl => (hnotHigh (by simp [hc]) hl).elim
  | timed t hl ht => exact fun _ => hp (.inl hl)

/-- Settles O58: a device of which nothing is known has no pulse, and each thing an event can do keeps the order. -/
theorem deviceKeepsPulsesInOrder : Obligations.DeviceKeepsPulsesInOrder :=
  ⟨nofun, fun d n e hp => (observe_observed n d e).pulseInOrder hp⟩

/-! SUPPORT. Where a code comes from: what the events so far say of what the device holds (20_memory.md R40,
93_implementation_defined.md U7, U8). -/

/-- Among the events `h`, `rest` is what came after the last transfer, which delivered `bytes`. -/
def SinceTransfer (h : List Event) (bytes : List Byte) (rest : List Event) : Prop :=
  (∃ before, h = before ++ .xfer bytes .ok :: rest) ∧ ∀ other a, .xfer other a ∉ rest

/-- A transfer that has just ended. -/
theorem sinceTransfer_append_xfer (h : List Event) (bytes : List Byte) : SinceTransfer (h ++ [.xfer bytes .ok]) bytes [] :=
  ⟨⟨h, rfl⟩, fun _ _ => List.not_mem_nil⟩

/-- An event more that is no transfer. -/
theorem SinceTransfer.append {h rest : List Event} {bytes : List Byte} {e : Event} (hs : SinceTransfer h bytes rest)
    (he : ∀ other a, e ≠ .xfer other a) : SinceTransfer (h ++ [e]) bytes (rest ++ [e]) := by
  obtain ⟨⟨before, rfl⟩, hno⟩ := hs
  refine ⟨⟨before, by simp⟩, fun other a hmem => ?_⟩
  obtain hmem | hmem := List.mem_append.1 hmem
  · exact hno other a hmem
  · exact he other a (List.mem_singleton.1 hmem).symm

/-- The events since a transfer bring the device to the place `l` of its latch pulse, chip-select having risen before. -/
def PulseSince : LatchPhase → List Event → Prop
  | .fallen, rest => List.Sublist [.pin .csN .high, .pin .ldacN .low] rest
  | .held, rest => ∃ t, Config.tLdpwMin ≤ t ∧ List.Sublist [.pin .csN .high, .pin .ldacN .low, .delay t] rest
  | .unknown, rest | .high, rest | .spent, rest => List.Sublist [.pin .csN .high] rest

/-- Chip-select has risen, whatever the place. -/
theorem PulseSince.risen {l : LatchPhase} {rest : List Event} (h : PulseSince l rest) : List.Sublist [.pin .csN .high] rest := by
  cases l with
  | unknown | high | spent => exact h
  | fallen => exact .trans (by simp) h
  | held => obtain ⟨t, -, h⟩ := h; exact .trans (by simp) h

/-- Outside a pulse that can still commit it is enough that chip-select has risen. -/
theorem pulseSince_of_noPulse {l : LatchPhase} {rest : List Event} (hl : ¬ (l = .fallen ∨ l = .held))
    (h : List.Sublist [.pin .csN .high] rest) : PulseSince l rest := by
  cases l with
  | unknown | high | spent => exact h
  | fallen => exact absurd (.inl rfl) hl
  | held => exact absurd (.inr rfl) hl

/-- A place reached stays reached. -/
theorem PulseSince.append {l : LatchPhase} {rest : List Event} (h : PulseSince l rest) (more : List Event) :
    PulseSince l (rest ++ more) := by
  cases l with
  | unknown | high | spent | fallen => exact .trans h (List.sublist_append_left rest more)
  | held => obtain ⟨t, ht, h⟩ := h; exact ⟨t, ht, .trans h (List.sublist_append_left rest more)⟩

/-- Among the events `h` a transfer delivered the code `c` and the latch pulse after it committed it. -/
def Committed (h : List Event) (c : BitVec 20) : Prop :=
  ∃ (before pulse after : List Event) (bytes : List Byte) (t : ℕ),
    h = before ++ .xfer bytes .ok :: pulse ++ after
    ∧ unpack bytes = some c
    ∧ (∀ other a, .xfer other a ∉ pulse)
    ∧ Config.tLdpwMin ≤ t
    ∧ List.Sublist [.pin .csN .high, .pin .ldacN .low, .delay t, .pin .ldacN .high] pulse

/-- A code committed stays committed. -/
theorem Committed.append {h : List Event} {c : BitVec 20} (hc : Committed h c) (more : List Event) : Committed (h ++ more) c := by
  obtain ⟨before, pulse, after, bytes, t, rfl, hrest⟩ := hc
  exact ⟨before, pulse, after ++ more, bytes, t, by simp, hrest⟩

/-- The rise of the latch after its hold completes the commit. -/
theorem SinceTransfer.committed {h rest : List Event} {bytes : List Byte} {c : BitVec 20} (hs : SinceTransfer h bytes rest)
    (hheld : PulseSince .held rest) (hu : unpack bytes = some c) : Committed (h ++ [.pin .ldacN .high]) c := by
  obtain ⟨⟨before, hh⟩, hno⟩ := hs.append (e := .pin .ldacN .high) nofun
  obtain ⟨t, ht, hpulse⟩ := hheld
  exact ⟨before, rest ++ [.pin .ldacN .high], [], bytes, t, by simp [hh], hu, hno, ht, hpulse.append (.refl _)⟩

/-- The events `h` account for what the device holds: its frame under way is of the last transfer; the frame in `DEV_SHIFT`, unless the
next one is under way, came with the last transfer, and the pulse under way came after it; its code was committed. -/
structure AccountsFor (h : List Event) (d : Device) : Prop where
  frame : ∀ bytes, d.cs = .framed bytes → ∃ rest, SinceTransfer h bytes rest
  shift : (∀ bytes, d.cs ≠ .framed bytes) → d.fresh = true → d.shift.defined = true →
    ∃ rest, SinceTransfer h d.shift.value rest ∧ PulseSince d.latch rest
  out : d.out.defined = true → Committed h d.out.value

/-- Nothing has to be accounted for where the device holds no code and no frame that could become one. -/
theorem accountsFor_of_nothing (h : List Event) {d : Device} (hc : ∀ bytes, d.cs ≠ .framed bytes)
    (hf : d.fresh = false ∨ d.shift.defined = false) (ho : d.out.defined = false) : AccountsFor h d where
  frame bytes hb := absurd hb (hc bytes)
  shift _ hfresh hdef := by simp [hfresh, hdef] at hf
  out hdef := by simp [ho] at hdef

/-- An event that is no transfer and leaves the latch's place, chip-select and the registers leaves the account. -/
theorem AccountsFor.append {h : List Event} {d : Device} {e : Event} (ha : AccountsFor h d) (he : ∀ other a, e ≠ .xfer other a) :
    AccountsFor (h ++ [e]) d where
  frame bytes hb := (ha.frame bytes hb).imp' (· ++ [e]) fun _ hs => hs.append he
  shift hc hfresh hdef := (ha.shift hc hfresh hdef).imp' (· ++ [e]) fun _ hs => ⟨hs.1.append he, hs.2.append [e]⟩
  out hdef := (ha.out hdef).append [e]

/-- Chip-select moves where no frame is under way. -/
theorem AccountsFor.withCs {h : List Event} {d : Device} {c : CsPhase} (ha : AccountsFor h d) (hd : ∀ bytes, d.cs ≠ .framed bytes)
    (hc : ∀ bytes, c ≠ .framed bytes) : AccountsFor h { d with cs := c } where
  frame bytes hb := absurd hb (hc bytes)
  shift _ := ha.shift hd
  out := ha.out

/-- One event more keeps the account, of a device whose pulse is in order. -/
theorem Observed.accountsFor {n : ℕ} {d d' : Device} {e : Event} {h : List Event} (ho : Observed n d e d') (hp : d.PulseInOrder)
    (ha : AccountsFor h d) : AccountsFor (h ++ [e]) d' := by
  cases ho with
  | same p l => exact ha.append nofun
  | violated h => exact accountsFor_of_nothing _ h.noFrame (.inl h.notFresh) h.noCode
  | selected hc hl =>
    have hd : ∀ bytes, d.cs ≠ .framed bytes := by obtain hc | hc := hc <;> simp [hc]
    exact (ha.withCs hd (by simp)).append nofun
  | deselected hc =>
    have hd : ∀ bytes, d.cs ≠ .framed bytes := by obtain hc | hc := hc <;> simp [hc]
    exact (ha.withCs hd (by simp)).append nofun
  | framed bytes hc =>
    obtain ⟨rest, hs⟩ := ha.frame bytes hc
    have hnoPulse : ¬ (d.latch = .fallen ∨ d.latch = .held) := fun hl => by simp [hp hl] at hc
    exact {
      frame := nofun
      shift _ _ _ := ⟨_, hs.append nofun, pulseSince_of_noPulse hnoPulse (List.sublist_append_right _ _)⟩
      out hdef := (ha.out hdef).append _ }
  | latched hl hc =>
    refine { frame := fun bytes hb => by simp [hc] at hb, shift := fun hd hfresh hdef => ?_, out := fun hdef => (ha.out hdef).append _ }
    obtain ⟨rest, hs, hrisen⟩ := ha.shift hd hfresh hdef
    exact ⟨_, hs.append nofun, hrisen.risen.append (.refl _)⟩
  | pulsed hl =>
    have hc : d.cs = .high := hp (.inr hl)
    have hd : ∀ bytes, d.cs ≠ .framed bytes := by simp [hc]
    refine { frame := fun bytes hb => absurd hb (hd bytes), shift := fun _ hfresh hdef => ?_, out := fun hdef => ?_ }
    · obtain ⟨rest, hs, hheld⟩ := ha.shift hd hfresh hdef
      exact ⟨_, hs.append nofun, PulseSince.append (l := .high) hheld.risen _⟩
    · obtain ⟨hfresh, hdef, hu⟩ := (pulsed_out_eq_known_iff n d _).1 (DevReg.eq_known hdef)
      obtain ⟨rest, hs, hheld⟩ := ha.shift hd hfresh hdef
      exact hs.committed (hl ▸ hheld) hu
  | sent bytes hc =>
    exact {
      frame b hb := by cases hb; exact ⟨[], sinceTransfer_append_xfer h bytes⟩
      shift hd := absurd rfl (hd bytes)
      out hdef := (ha.out hdef).append _ }
  | sendFailed bytes hc =>
    exact { frame := nofun, shift := nofun, out hdef := (ha.out hdef).append _ }
  | timed t hl ht =>
    have hc : d.cs = .high := hp (.inl hl)
    refine { frame := fun bytes hb => by simp [hc] at hb, shift := fun hd hfresh hdef => ?_, out := fun hdef => (ha.out hdef).append _ }
    obtain ⟨rest, hs, hfallen⟩ := ha.shift hd hfresh hdef
    rw [hl] at hfallen
    exact ⟨_, hs.append nofun, t, ht, List.Sublist.append hfallen (.refl [Event.delay t])⟩

/-- Whatever events come, they account for what the device holds after them. -/
theorem watch_accountsFor (es : List (ℕ × Event)) {d : Device} {h : List Event} (hp : d.PulseInOrder) (ha : AccountsFor h d) :
    AccountsFor (h ++ es.map Prod.snd) (d.watch es) := by
  induction es generalizing d h with
  | nil => simpa [Device.watch] using ha
  | cons ne rest ih =>
    obtain ⟨n, e⟩ := ne
    have ho := observe_observed n d e
    simpa [Device.watch] using ih (ho.pulseInOrder hp) (ho.accountsFor hp ha)

/-- Settles O45: at first there is nothing to account for, and the events account for the code at the end. -/
theorem deviceShowsOnlyDeliveredCodes : Obligations.DeviceShowsOnlyDeliveredCodes := by
  intro d es hp hout hfresh hcs hdef
  exact (watch_accountsFor es hp (accountsFor_of_nothing [] hcs hfresh hout)).out hdef

end Sys2Proof.Machine

namespace Sys2Proof.Machine
open Host (Outcome)

/-! SUPPORT. What a whole handshake leaves in a device at rest (20_memory.md R40). -/

/-- SETVOLTAGE of a voltage that is not NaN in a ready block whose provider answers is the handshake of its packed code. -/
theorem exec_setvoltageOf_answers {s : State} {x : BitVec 1} {v : FpBits} {a : Answer} (hf : v.fmt = s.fmt) (hr : s.ready = true)
    (hv : v.value.isNan = false) (hp : s.provider (pack s.cfgWidth (s.codeFor v)) = .answers a) :
    exec (.setvoltageOf x v) s = .next
      ((afterFrame a (hsStep3 (hsStep2 (pack s.cfgWidth (s.codeFor v)) a (hsStep1 s.accept)))).respond (Answer.result a)
        (s.codeFor v)) :=
  calc exec (.setvoltageOf x v) s = setvoltageBody v s.accept := exec_setvoltageOf hf
    _ = sendFrame (pack s.cfgWidth (s.codeFor v)) (s.codeFor v) s.accept := setvoltageBody_code hr hv
    _ = _ := sendFrame_answers _ hp

/-- The latch commits a packed code modulo `2^w`. -/
theorem commit_pack_mod (n : ℕ) (w : Width) (c : Code) :
    DevReg.commit n (.known (pack w c)) = .known (BitVec.ofNat 20 (c.toNat % 2 ^ w.bits)) := by
  rw [commit_pack]
  cases w with
  | w20 => exact congrArg _ (BitVec.eq_of_toNat_eq (by simp [Width.bits]))
  | w16 => exact congrArg _ (BitVec.eq_of_toNat_eq (by simp [Width.bits]))

/-- A code of a valid configuration is in range (40_quantizer.md R82). -/
theorem quantize_le_maxCode {b : FpBits} (w : Width) {v : Fp} (hb : configValid b = true) (hv : v.isNan = false) :
    quantize b.fmt b.value w v ≤ w.maxCode := by
  obtain ⟨r, hr, hpos⟩ := (configValid_iff b).1 hb
  rw [quantize_eq_saturate hr hpos w hv]
  exact saturate_le w _

/-- The response's code of a voltage is its code of the Quantizer, already modulo `2^w`. -/
theorem codeFor_toNat_mod {s : State} {v : FpBits} (hc : configValid s.cfgVref = true) (hv : v.value.isNan = false) :
    (s.codeFor v).toNat % 2 ^ s.cfgWidth.bits = quantize s.fmt s.cfgVref.value s.cfgWidth v.value := by
  have hle : quantize s.fmt s.cfgVref.value s.cfgWidth v.value ≤ s.cfgWidth.maxCode := quantize_le_maxCode s.cfgWidth hc hv
  have hbits : 0 < 2 ^ s.cfgWidth.bits := Nat.two_pow_pos _
  rw [State.codeFor, zextCode, BitVec.toNat_ofNat, Nat.mod_eq_of_lt (hle.trans_lt (maxCode_lt _)), Nat.mod_eq_of_lt]
  exact hle.trans_lt (Nat.sub_lt hbits Nat.one_pos)

/-- A successful handshake commits its packed code. -/
theorem handshake_ok_dev_pack {s : State} (c r : Code) (h : s.dev.AtRest) :
    ((afterFrame .ok (hsStep3 (hsStep2 (pack s.cfgWidth c) .ok (hsStep1 s)))).respond (Answer.result .ok) r).dev
      = { cs := .high, latch := .high, fresh := true, shift := .known (pack s.cfgWidth c)
          out := .known (BitVec.ofNat 20 (c.toNat % 2 ^ s.cfgWidth.bits)) } := by
  rw [handshake_ok_dev s _ r h, commit_pack_mod]

/-- Settles O42: both commands are one handshake, which commits the packed code; the code of a voltage is in range. -/
theorem handshakeCommitsTheCode : Obligations.HandshakeCommitsTheCode := by
  intro s x hi c v hr hd
  refine ⟨fun hp => ⟨_, exec_sendcodeOf_answers hr hp, handshake_ok_dev_pack (s := s.accept) c 0 hd⟩, fun hf hv hc hp => ?_⟩
  refine ⟨_, exec_setvoltageOf_answers hf hr hv hp, ?_⟩
  rw [← codeFor_toNat_mod hc hv]
  exact handshake_ok_dev_pack (s := s.accept) (s.codeFor v) _ hd

/-- A failed handshake loses the frame and keeps the committed code. -/
theorem handshake_fail_keepsOut {s : State} (bytes : List Byte) (code : Code) (h : s.dev.AtRest) :
    let t := (afterFrame .fail (hsStep3 (hsStep2 bytes .fail (hsStep1 s)))).respond (Answer.result .fail) code
    t.dev.AtRest ∧ t.dev.shift.defined = false ∧ t.dev.out = s.dev.out := by
  intro t
  have hdev : t.dev = { s.dev with shift := .lost (Config.freeFrame (s.draws + 1)) } := handshake_fail_dev s bytes code h
  rw [hdev]
  exact ⟨h, rfl, rfl⟩

/-- Settles O43: both commands are one handshake, whose failed transfer loses the frame only. -/
theorem failedTransferKeepsTheCommittedCode : Obligations.FailedTransferKeepsTheCommittedCode := by
  intro s x hi c v hr hd
  exact ⟨fun hp => ⟨_, exec_sendcodeOf_answers hr hp, handshake_fail_keepsOut (s := s.accept) _ 0 hd⟩,
    fun hf hv hp => ⟨_, exec_setvoltageOf_answers hf hr hv hp, handshake_fail_keepsOut (s := s.accept) _ _ hd⟩⟩

/-! SUPPORT. A valid INIT and the commands after it (20_memory.md R48, 30_encoding.md R55). -/

/-- A valid INIT loads the configuration and makes the block ready. -/
theorem exec_initOf_valid {s : State} {w : Width} {v : FpBits} (hf : v.fmt = s.fmt) (hv : configValid v = true) :
    ∃ t, exec (.initOf w v) s = .next t ∧ t.cfgVref = v ∧ t.cfgWidth = w ∧ t.ready = true := by
  rw [exec_initOf hf, initBody, if_pos hv]
  exact ⟨_, rfl, rfl, rfl, rfl⟩

/-- A SENDCODE whose transfer succeeds appends the events of a good handshake. -/
theorem exec_sendcodeOf_ok_trace {s : State} {x : BitVec 1} {hi : BitVec 32} {c : Code} (hr : s.ready = true)
    (hp : s.provider (pack s.cfgWidth c) = .answers .ok) :
    ∃ t d, exec (.sendcodeOf s.fmt x hi c) s = .next t ∧ t.trace = s.trace ++ goodHandshake (pack s.cfgWidth c) d := by
  obtain ⟨t, d, ht, -, heq⟩ := handshake_ok s.accept (pack s.cfgWidth c) 0
  exact ⟨t, d, by rw [exec_sendcodeOf_answers hr hp, ht], by rw [heq]; rfl⟩

/-- VTOC of a voltage that is not NaN in a ready block answers its code. -/
theorem exec_vtocOf_code {s : State} {x : BitVec 1} {v : FpBits} (hf : v.fmt = s.fmt) (hr : s.ready = true)
    (hv : v.value.isNan = false) : exec (.vtocOf x v) s = .next (s.answered .success (s.codeFor v)) := by
  rw [exec_vtocOf hf, vtocBody_code (s := s.accept) hr hv]
  rfl

/-- Settles O35: the state after INIT holds the new configuration, and both commands read it there. -/
theorem newConfigurationIsUsedNext : Obligations.NewConfigurationIsUsedNext := by
  intro s w v hf hv
  obtain ⟨t, ht, rfl, rfl, hr⟩ := exec_initOf_valid (w := w) hf hv
  rw [← hf]
  exact ⟨t, ht, fun x hi c hp => exec_sendcodeOf_ok_trace hr hp, fun x v' hf' hv' => exec_vtocOf_code hf' hr hv'⟩

/-! SUPPORT. The histories (20_memory.md R34, 70_reset_and_hazards.md R165; log 16). -/

/-- From `s` to `t` both histories were only appended to. -/
structure HistoriesGrow (s t : State) : Prop where
  trace : s.trace <+: t.trace
  responses : s.responses <+: t.responses

/-- Histories that did not change. -/
theorem historiesGrow_of_same {s t : State} (ht : t.trace = s.trace) (hr : t.responses = s.responses) : HistoriesGrow s t :=
  ⟨by rw [ht], by rw [hr]⟩

/-- A moment of a running command has appended its events and no response. -/
theorem Running.historiesGrow {s m : State} {es : List Event} (h : Running s m es) : HistoriesGrow s m :=
  ⟨⟨es, h.trace.symm⟩, by rw [h.responses]⟩

/-- A whole handshake appends its events and one response. -/
theorem Handshaken.historiesGrow {s t : State} {r : Response} (h : Handshaken s t r) : HistoriesGrow s t := by
  obtain ⟨es, ht, -⟩ := h.ordered
  exact ⟨⟨es, ht.symm⟩, ⟨[r], h.responses.symm⟩⟩

/-- An instruction that completes appends to the histories. -/
theorem Did.historiesGrow {s t : State} (h : Did s t) : HistoriesGrow s t := by
  cases h with
  | answered r c h => subst h; exact ⟨List.prefix_rfl, List.prefix_append _ _⟩
  | initFailed h => subst h; exact ⟨List.prefix_rfl, List.prefix_append _ _⟩
  | initDone w v hf hv h => subst h; exact ⟨⟨[.pin .csN .high, .pin .ldacN .high], by simp⟩, List.prefix_append _ _⟩
  | sent a bytes c hr hp h =>
    subst h
    obtain ⟨ht, hresp⟩ := (handshake_handshaken s.accept a bytes c).historiesGrow
    exact ⟨ht, hresp⟩
  | received bytes h => subst h; exact historiesGrow_of_same rfl rfl

/-- A reset that cuts an instruction off keeps the histories as they were in that moment. -/
theorem execCut_historiesGrow {s t : State} {k : ℕ} {i : Instr} (h : execCut k i s = .next t) : HistoriesGrow s t := by
  obtain ⟨-, m, es, hm, rfl⟩ | ⟨-, bytes, rfl⟩ := execCut_did h
  · obtain ⟨ht, hr⟩ := hm.historiesGrow
    exact ⟨ht, hr⟩
  · exact historiesGrow_of_same rfl rfl

/-- A step appends to the histories. -/
theorem Took.historiesGrow {s t : State} (h : Took s t) : HistoriesGrow s t := by
  cases h with
  | waited h => exact h ▸ historiesGrow_of_same rfl rfl
  | reset rest hi h => subst h; exact historiesGrow_of_same rfl rfl
  | ran p rest i hi hd h =>
    obtain ⟨ht, hr⟩ := (exec_did h).historiesGrow
    exact ⟨ht, hr⟩
  | resetWhileWaiting p k rest hi h => subst h; exact historiesGrow_of_same rfl rfl
  | cut p k rest i hi hd h =>
    obtain ⟨ht, hr⟩ := execCut_historiesGrow h
    exact ⟨ht, hr⟩

/-- Settles O54: each thing a step can do appends to the histories or leaves them. -/
theorem historiesOnlyGrow : Obligations.HistoriesOnlyGrow := by
  intro s t h
  obtain ⟨ht, hr⟩ := (step_did h).historiesGrow
  exact ⟨ht, hr⟩

/-! SUPPORT. The block never reads the device (20_memory.md R42). -/

/-- Two outcomes that differ in the device of the next state only. -/
inductive SameButDevice : Outcome State Fault Refusal → Outcome State Fault Refusal → Prop where
  | next (t : State) (d : Device) : SameButDevice (.next t) (.next { t with dev := d })
  | fault (r : Fault) : SameButDevice (.fault r) (.fault r)
  | refused (r : Refusal) : SameButDevice (.refused r) (.refused r)

/-- With another device the outcome differs in the device only. -/
def IgnoresDevice (f : State → Outcome State Fault Refusal) : Prop :=
  ∀ (s : State) (d : Device), SameButDevice (f s) (f { s with dev := d })

/-- The port does not read the device. -/
theorem onPort_ignoresDevice (f : Fmt) {body : State → Outcome State Fault Refusal} (h : IgnoresDevice body) :
    IgnoresDevice (State.onPort · f body) := by
  intro s d
  show SameButDevice (s.onPort f body) ({ s with dev := d }.onPort f body)
  by_cases hf : f = s.fmt
  · rw [onPort_own s f body hf, onPort_own { s with dev := d } f body hf]
    exact h s.accept d
  · rw [onPort_foreign s f body hf, onPort_foreign { s with dev := d } f body hf]
    exact .refused _

/-- INIT does not read the device. -/
theorem initBody_ignoresDevice (w : Width) (v : FpBits) : IgnoresDevice (initBody w v) := by
  intro s d
  unfold initBody
  split
  · exact .next _ _
  · exact .next _ _

/-- VTOC does not read the device. -/
theorem vtocBody_ignoresDevice (v : FpBits) : IgnoresDevice (vtocBody v) := by
  intro s d
  obtain ⟨-, hc⟩ | ⟨-, -, hc⟩ | ⟨hr, hv, -⟩ := conversion_cases s v
  · rw [vtocBody_error hc, vtocBody_error (s := { s with dev := d }) hc]; exact .next _ d
  · rw [vtocBody_error hc, vtocBody_error (s := { s with dev := d }) hc]; exact .next _ d
  · rw [vtocBody_code hr hv, vtocBody_code (s := { s with dev := d }) hr hv]; exact .next _ d

/-- Sending a frame does not read the device. -/
theorem sendFrame_ignoresDevice (bytes : List Byte) (code : Code) : IgnoresDevice (sendFrame bytes code) := by
  intro s d
  cases hp : s.provider bytes with
  | silent =>
    rw [sendFrame_silent code hp, sendFrame_silent (s := { s with dev := d }) code hp]
    exact .fault _
  | answers a =>
    rw [sendFrame_answers code hp, sendFrame_answers (s := { s with dev := d }) code hp]
    cases a with
    | ok => exact .next _ _
    | fail => exact .next _ _

/-- SENDCODE does not read the device. -/
theorem sendcodeBody_ignoresDevice (c : Code) : IgnoresDevice (sendcodeBody c) := by
  intro s d
  by_cases hr : s.ready = true
  · rw [sendcodeBody_ready c hr, sendcodeBody_ready (s := { s with dev := d }) c hr]
    exact sendFrame_ignoresDevice _ 0 s d
  · rw [Bool.not_eq_true] at hr
    rw [sendcodeBody_notReady c hr, sendcodeBody_notReady (s := { s with dev := d }) c hr]
    exact .next _ d

/-- SETVOLTAGE does not read the device. -/
theorem setvoltageBody_ignoresDevice (v : FpBits) : IgnoresDevice (setvoltageBody v) := by
  intro s d
  obtain ⟨-, hc⟩ | ⟨-, -, hc⟩ | ⟨hr, hv, -⟩ := conversion_cases s v
  · rw [setvoltageBody_error hc, setvoltageBody_error (s := { s with dev := d }) hc]; exact .next _ d
  · rw [setvoltageBody_error hc, setvoltageBody_error (s := { s with dev := d }) hc]; exact .next _ d
  · rw [setvoltageBody_code hr hv, setvoltageBody_code (s := { s with dev := d }) hr hv]
    exact sendFrame_ignoresDevice _ _ s d

/-- No instruction reads the device. -/
theorem exec_ignoresDevice (i : Instr) : IgnoresDevice (exec i) := by
  cases i with
  | init32 w v => exact onPort_ignoresDevice _ (initBody_ignoresDevice w (.b32 v))
  | init64 w v => exact onPort_ignoresDevice _ (initBody_ignoresDevice w (.b64 v))
  | vtoc32 x v => exact onPort_ignoresDevice _ (vtocBody_ignoresDevice (.b32 v))
  | vtoc64 x v => exact onPort_ignoresDevice _ (vtocBody_ignoresDevice (.b64 v))
  | sendcode32 x c => exact onPort_ignoresDevice _ (sendcodeBody_ignoresDevice c)
  | sendcode64 x hi c => exact onPort_ignoresDevice _ (sendcodeBody_ignoresDevice c)
  | setvoltage32 x v => exact onPort_ignoresDevice _ (setvoltageBody_ignoresDevice (.b32 v))
  | setvoltage64 x v => exact onPort_ignoresDevice _ (setvoltageBody_ignoresDevice (.b64 v))
  | frame24 data pad => exact fun s d => .next _ _
  | frame16 data => exact fun s d => .next _ _

/-- An outcome that differs in the device only from a next state. -/
theorem SameButDevice.of_next {t : State} {o : Outcome State Fault Refusal} (h : SameButDevice (.next t) o) :
    ∃ d, o = .next { t with dev := d } := by
  cases h; exact ⟨_, rfl⟩

/-- A fault is the same fault. -/
theorem SameButDevice.of_fault {r : Fault} {o : Outcome State Fault Refusal} (h : SameButDevice (.fault r) o) : o = .fault r := by
  cases h; rfl

/-- A refusal is the same refusal. -/
theorem SameButDevice.of_refused {r : Refusal} {o : Outcome State Fault Refusal} (h : SameButDevice (.refused r) o) :
    o = .refused r := by
  cases h; rfl

/-- Settles O55: no instruction reads the device, so its outcome with another device differs in the device only. -/
theorem deviceIsNeverRead : Obligations.DeviceIsNeverRead := by
  intro i s d
  have h := exec_ignoresDevice i s d
  exact ⟨fun t ht => (ht ▸ h).of_next, fun r hr => (hr ▸ h).of_fault, fun r hr => (hr ▸ h).of_refused⟩

end Sys2Proof.Machine

namespace Sys2Proof

/-! SUPPORT. The decoder on the encoder's words, and what it can answer (30_encoding.md R51, R56, R57, R60 to R62). -/

/-- A 35-bit command word, field by field. -/
theorem decodeCmd35_append (op : BitVec 2) (w : BitVec 1) (arg : BitVec 32) :
    decodeCmd35 (op ++ w ++ arg) =
      if op = 0b00#2 then .init32 (Width.ofBit w) arg
      else if op = 0b01#2 then .vtoc32 w arg
      else if op = 0b10#2 then .sendcode32 w arg
      else .setvoltage32 w arg := by
  simp only [decodeCmd35, op_of_cmd35, w_of_cmd35, arg_of_cmd35]

/-- A 67-bit command word, field by field. -/
theorem decodeCmd67_append (op : BitVec 2) (w : BitVec 1) (arg : BitVec 64) :
    decodeCmd67 (op ++ w ++ arg) =
      if op = 0b00#2 then .init64 (Width.ofBit w) arg
      else if op = 0b01#2 then .vtoc64 w arg
      else if op = 0b10#2 then .sendcode64 w (arg.extractLsb' 32 32) (arg.extractLsb' 0 32)
      else .setvoltage64 w arg := by
  simp only [decodeCmd67, op_of_cmd67, w_of_cmd67, arg_of_cmd67]

/-- A 24-bit frame, field by field. -/
theorem decodeFrame24_append (data : BitVec 20) (pad : BitVec 4) : decodeFrame24 (data ++ pad) = .frame24 data pad := by
  rw [decodeFrame24, data_of_frame24, pad_of_frame24]

/-- Everything the decoder can answer: a number of each format's bits has the meaning of its bits, a larger one of that length has
stray bits, and no other length is a format's. -/
inductive Decodes : PortWord → Except DecodeError Instr → Prop where
  | frame16 (b : BitVec 16) : Decodes ⟨2, b.toNat⟩ (.ok (decodeFrame16 b))
  | frame24 (b : BitVec 24) : Decodes ⟨3, b.toNat⟩ (.ok (decodeFrame24 b))
  | cmd35 (b : BitVec 35) : Decodes ⟨5, b.toNat⟩ (.ok (decodeCmd35 b))
  | cmd67 (b : BitVec 67) : Decodes ⟨9, b.toNat⟩ (.ok (decodeCmd67 b))
  | strayBits {len bits val : ℕ} (hf : (len, bits) ∈ [(2, 16), (3, 24), (5, 35), (9, 67)]) (hv : ¬ val < 2 ^ bits) :
      Decodes ⟨len, val⟩ (.error .strayBits)
  | noSuchLength {len val : ℕ} (hl : len ≠ 2 ∧ len ≠ 3 ∧ len ≠ 5 ∧ len ≠ 9) : Decodes ⟨len, val⟩ (.error .noSuchLength)

/-- A raw word of a format's length decodes to the meaning of its bits, or has stray bits. -/
theorem decodes_of_format {len bits : ℕ} {meaning : BitVec bits → Instr} (hf : (len, bits) ∈ [(2, 16), (3, 24), (5, 35), (9, 67)])
    (h : ∀ b, Decodes ⟨len, b.toNat⟩ (.ok (meaning b))) (v : ℕ) :
    Decodes ⟨len, v⟩ (if v < 2 ^ bits then .ok (meaning (BitVec.ofNat bits v)) else .error .strayBits) := by
  split_ifs with hv
  · have hb : (BitVec.ofNat bits v).toNat = v := (BitVec.toNat_ofNat v bits).trans (Nat.mod_eq_of_lt hv)
    simpa only [hb] using h (BitVec.ofNat bits v)
  · exact .strayBits hf hv

/-- The decoder answers as listed. -/
theorem decode_decodes (p : PortWord) : Decodes p (decode p) := by
  obtain ⟨len, v⟩ := p
  unfold decode
  dsimp only
  split
  · exact decodes_of_format (by decide) .frame16 v
  · exact decodes_of_format (by decide) .frame24 v
  · exact decodes_of_format (by decide) .cmd35 v
  · exact decodes_of_format (by decide) .cmd67 v
  · next h2 h3 h5 h9 => exact .noSuchLength ⟨h2, h3, h5, h9⟩

/-- A raw word of 24 bits is the frame of its bits. -/
theorem decode_bits24 (b : BitVec 24) : decode ⟨3, b.toNat⟩ = .ok (decodeFrame24 b) := by
  simp only [decode, BitVec.ofNat_toNat, BitVec.setWidth_eq]
  rw [if_pos b.isLt]

/-- A raw word of 16 bits is the frame of its bits. -/
theorem decode_bits16 (b : BitVec 16) : decode ⟨2, b.toNat⟩ = .ok (decodeFrame16 b) := by
  simp only [decode, BitVec.ofNat_toNat, BitVec.setWidth_eq]
  rw [if_pos b.isLt]

/-- Settles O1: the encoder puts the fields side by side, and the decoder reads each field where the encoder put it. -/
theorem decodeOfEncodeIsTheInstruction : Obligations.DecodeOfEncodeIsTheInstruction := by
  intro i
  cases i with
  | init32 w v => rw [encode, decode_cmd35, decodeCmd35_append, if_pos rfl, Width.ofBit_toBit]
  | vtoc32 x v => rw [encode, decode_cmd35, decodeCmd35_append]; rfl
  | sendcode32 x c => rw [encode, decode_cmd35, decodeCmd35_append]; rfl
  | setvoltage32 x v => rw [encode, decode_cmd35, decodeCmd35_append]; rfl
  | init64 w v => rw [encode, decode_cmd67, decodeCmd67_append, if_pos rfl, Width.ofBit_toBit]
  | vtoc64 x v => rw [encode, decode_cmd67, decodeCmd67_append]; rfl
  | sendcode64 x hi c => rw [encode, decode_cmd67, decodeCmd67_append, hi_of_arg64, lo_of_arg64]; rfl
  | setvoltage64 x v => rw [encode, decode_cmd67, decodeCmd67_append]; rfl
  | frame24 d pad => rw [encode, decode_bits24, decodeFrame24_append]
  | frame16 d => rw [encode, decode_bits16, decodeFrame16]

/-- Settles O2: the fields of a word of each format, side by side, are the word. -/
theorem encodeOfDecodeIsTheWord : Obligations.EncodeOfDecodeIsTheWord := by
  intro p i h
  have hd := decode_decodes p
  rw [h] at hd
  cases hd with
  | frame16 b => rfl
  | frame24 b => rw [decodeFrame24, encode, fields_of_frame24]
  | cmd35 b => exact encode_decodeCmd35 b
  | cmd67 b => exact encode_decodeCmd67 b

/-- A raw word of a format: of its length, with no bit above its width (log 3). -/
def PortWord.IsOfAFormat (p : PortWord) : Prop :=
  (p.len = 2 ∧ p.val < 2 ^ 16) ∨ (p.len = 3 ∧ p.val < 2 ^ 24) ∨ (p.len = 5 ∧ p.val < 2 ^ 35) ∨ (p.len = 9 ∧ p.val < 2 ^ 67)

/-- A raw word decodes exactly if it is one of a format. -/
theorem decode_ok_iff (p : PortWord) : (∃ i, decode p = .ok i) ↔ p.IsOfAFormat := by
  have hd := decode_decodes p
  generalize decode p = r at hd ⊢
  cases hd with
  | frame16 b => exact iff_of_true ⟨_, rfl⟩ (.inl ⟨rfl, b.isLt⟩)
  | frame24 b => exact iff_of_true ⟨_, rfl⟩ (.inr (.inl ⟨rfl, b.isLt⟩))
  | cmd35 b => exact iff_of_true ⟨_, rfl⟩ (.inr (.inr (.inl ⟨rfl, b.isLt⟩)))
  | cmd67 b => exact iff_of_true ⟨_, rfl⟩ (.inr (.inr (.inr ⟨rfl, b.isLt⟩)))
  | strayBits hf hv =>
    refine iff_of_false nofun fun hw => hv ?_
    simp only [List.mem_cons, Prod.mk.injEq, List.not_mem_nil, or_false] at hf
    unfold PortWord.IsOfAFormat at hw
    obtain ⟨rfl, rfl⟩ | ⟨rfl, rfl⟩ | ⟨rfl, rfl⟩ | ⟨rfl, rfl⟩ := hf <;> simpa using hw
  | noSuchLength hl =>
    obtain ⟨h2, h3, h5, h9⟩ := hl
    exact iff_of_false nofun fun hw => by unfold PortWord.IsOfAFormat at hw; simp [h2, h3, h5, h9] at hw

/-- A raw word is refused for its length exactly if no format has that length (30_encoding.md R62). -/
theorem decode_noSuchLength_iff (p : PortWord) :
    decode p = .error .noSuchLength ↔ p.len ≠ 2 ∧ p.len ≠ 3 ∧ p.len ≠ 5 ∧ p.len ≠ 9 := by
  have hd := decode_decodes p
  generalize decode p = r at hd ⊢
  cases hd with
  | frame16 b => exact iff_of_false nofun fun hl => hl.1 rfl
  | frame24 b => exact iff_of_false nofun fun ⟨_, h3, _⟩ => h3 rfl
  | cmd35 b => exact iff_of_false nofun fun ⟨_, _, h5, _⟩ => h5 rfl
  | cmd67 b => exact iff_of_false nofun fun ⟨_, _, _, h9⟩ => h9 rfl
  | strayBits hf hv =>
    refine iff_of_false nofun fun hl => ?_
    obtain ⟨h2, h3, h5, h9⟩ := hl
    simp [h2, h3, h5, h9] at hf
  | noSuchLength hl => exact iff_of_true rfl hl

/-- Settles O3, both halves read off the list of what the decoder can answer. -/
theorem exactlyTheWordsOfAFormatDecode : Obligations.ExactlyTheWordsOfAFormatDecode :=
  fun p => ⟨decode_ok_iff p, decode_noSuchLength_iff p⟩

/-- Settles O4: each word is a closed one, which the decoder is run on. -/
theorem wordsOfTheSpecDecode : Obligations.WordsOfTheSpecDecode := by
  unfold Obligations.WordsOfTheSpecDecode
  decide

end Sys2Proof

namespace Sys2Proof.Machine

/-! SUPPORT. The bytes of the frames (30_encoding.md R56 to R58). -/

/-- Settles O22: the frame is the code's low bits, whose slices are those of the code. -/
theorem frameBytesAreTheSlicesOfTheCode : Obligations.FrameBytesAreTheSlicesOfTheCode := by
  intro c
  constructor
  · rw [pack_w20, bytes24_append, BitVec.extractLsb'_setWidth_of_le (by decide), BitVec.extractLsb'_setWidth_of_le (by decide),
      BitVec.extractLsb'_setWidth_of_le (by decide)]
  · rw [pack_w16, bytes16, BitVec.extractLsb'_setWidth_of_le (by decide), BitVec.extractLsb'_setWidth_of_le (by decide)]

/-! SUPPORT. A frame by itself at the device (20_memory.md R40; log 4, log 5). -/

/-- The latch line is known to be low in the three places of a pulse. -/
theorem LatchPhase.isLow_iff (l : LatchPhase) : l.isLow = true ↔ l = .fallen ∨ l = .held ∨ l = .spent := by
  cases l <;> simp [LatchPhase.isLow]

/-- The latch line is not known to be low where it is high or has not been seen. -/
theorem LatchPhase.isLow_eq_false_iff (l : LatchPhase) : l.isLow = false ↔ l = .high ∨ l = .unknown := by
  cases l <;> simp [LatchPhase.isLow]

/-- A device that is not selected takes the frame into `DEV_SHIFT`; `DEV_OUT` stays unless the latch line is low. -/
theorem receive_notSelected (n : ℕ) {d : Device} (bytes : List Byte) (hc : d.cs = .high ∨ d.cs = .unknown) :
    (d.receive n bytes).cs = .high ∧ (d.receive n bytes).shift = .known bytes
    ∧ (d.latch = .high ∨ d.latch = .unknown → (d.receive n bytes).latch = d.latch ∧ (d.receive n bytes).out = d.out)
    ∧ (d.latch = .fallen ∨ d.latch = .held ∨ d.latch = .spent → (d.receive n bytes).out.defined = false) := by
  rw [receive_eq n d bytes hc]
  refine ⟨rfl, rfl, fun hl => ?_, fun hl => ?_⟩
  · rw [if_neg (by simp [(LatchPhase.isLow_eq_false_iff _).mpr hl])]
    exact ⟨rfl, rfl⟩
  · rw [if_pos ((LatchPhase.isLow_iff _).mpr hl)]
    rfl

/-- Settles O44: a frame row is the device's taking of its bytes, and the bytes are the slices of the frame. -/
theorem framesReachTheDevice : Obligations.FramesReachTheDevice := by
  refine ⟨fun s data pad => ⟨_, rfl, rfl, fun hc => ?_, ?_⟩, fun s data => ⟨_, rfl, rfl, fun hc => ?_, ?_⟩⟩
  · rw [← bytes24_append]
    exact receive_notSelected s.draws _ hc
  · rw [unpack, unpackW20_slices]
  · exact receive_notSelected s.draws _ hc
  · rw [unpack, unpackW16_slices]

/-! SUPPORT. The command and the response words (30_encoding.md R51, R53, R60, R62). -/

/-- Settles O5: the command's body has no such bit. -/
theorem ignoredBitsChangeNothing : Obligations.IgnoredBitsChangeNothing := by
  intro s x x' hi hi' f c v
  refine ⟨?_, ?_, ?_⟩
  · cases v <;> rfl
  · cases f <;> rfl
  · cases v <;> rfl

/-- The numbers 5, 6 and 7 are no result's (60_exceptions.md R130). -/
theorem number_lt (r : Res) : r.number.toNat < 5 := by cases r <;> decide

/-- Settles O6: the response word is the number beside the code. -/
theorem responseWordHasTheResultAndTheCode : Obligations.ResponseWordHasTheResultAndTheCode :=
  ⟨fun r => ⟨BitVec.extractLsb'_append_eq_left, BitVec.extractLsb'_append_eq_right, number_lt r.res⟩, rfl, rfl, rfl, rfl, rfl⟩

/-- Settles O38: each of these commands is at the port of its own format, which is not the block's. -/
theorem foreignFormatIsRefused : Obligations.ForeignFormatIsRefused := by
  intro s x hi c w v f hv hf
  refine ⟨?_, ?_, ?_, ?_⟩
  · cases v <;> exact onPort_foreign s _ _ hv
  · cases v <;> exact onPort_foreign s _ _ hv
  · cases f <;> exact onPort_foreign s _ _ hf
  · cases v <;> exact onPort_foreign s _ _ hv

end Sys2Proof.Machine

namespace Sys2Proof

/-! SUPPORT. The members of a format, and rounding to the nearest of them (40_quantizer.md R70, R71). -/

section Members

variable {f : Fmt} {m : ℕ} {e k : ℤ} {a : ℚ}

theorem pow2_toNat (h : 0 ≤ k) : ((2 ^ k.toNat : ℕ) : ℚ) = pow2 k := by
  conv_rhs => rw [← Int.toNat_of_nonneg h, pow2_natCast]
  push_cast
  rfl

theorem pow2_succ (k : ℤ) : pow2 (k + 1) = 2 * pow2 k := by
  rw [pow2_add, mul_comm]
  congr 1

theorem two_le_precision (f : Fmt) : 2 ≤ f.precision := by cases f <;> decide

theorem precision_nonneg (f : Fmt) : 0 ≤ f.precision := by cases f <;> decide

/-- The number of bits of the fraction. -/
theorem precision_sub_one_toNat (f : Fmt) : (f.precision - 1).toNat = f.precision.toNat - 1 := by cases f <;> rfl

/-- The leading bit of a significand as a power of two. -/
theorem leadingBit_eq (f : Fmt) : ((2 ^ (f.precision.toNat - 1) : ℕ) : ℚ) = pow2 (f.precision - 1) := by
  rw [← precision_sub_one_toNat, pow2_toNat (sub_nonneg.mpr (one_le_precision f))]

/-- The exponents of a format are balanced (40_quantizer.md R70). -/
theorem emin_add_emax (f : Fmt) : f.emin + f.emax = 1 := by cases f <;> rfl

theorem emin_lt_emax (f : Fmt) : f.emin < f.emax := by cases f <;> decide

/-- Twice the least significand with a leading bit is the first one too large. -/
theorem two_mul_leadingBit (f : Fmt) : 2 * 2 ^ (f.precision.toNat - 1) = 2 ^ f.precision.toNat := by cases f <;> rfl

/-- The significands are the naturals below `2 ^ p`. -/
theorem lt_two_pow_precision_iff : m < 2 ^ f.precision.toNat ↔ (m : ℚ) < pow2 f.precision := by
  rw [← pow2_toNat (precision_nonneg f), Nat.cast_lt]

/-- A significand times the last place of the exponent `e` lies below `2 ^ (e + 1)`. -/
theorem mul_lastPlace_lt (hm : m < 2 ^ f.precision.toNat) : m * pow2 (e - f.precision + 1) < pow2 (e + 1) := by
  calc m * pow2 (e - f.precision + 1) < pow2 f.precision * pow2 (e - f.precision + 1) :=
        mul_lt_mul_of_pos_right (lt_two_pow_precision_iff.mp hm) (pow2_pos _)
    _ = pow2 (e + 1) := by rw [← pow2_add]; congr 1; ring

/-- The bound of 40_quantizer.md R71 in last places of the largest exponent: half of one above the largest number. -/
theorem overflowBound_eq (f : Fmt) : f.overflowBound = (pow2 f.precision - 1 / 2) * pow2 (f.emax - f.precision + 1) := by
  have h1 : pow2 f.precision * pow2 (f.emax - f.precision + 1) = 2 * pow2 f.emax := by
    rw [← pow2_add, ← pow2_succ]; congr 1; ring
  have h2 : pow2 (f.emax - f.precision + 1) = 2 * (pow2 (-f.precision) * pow2 f.emax) := by
    rw [← pow2_add, ← pow2_succ]; congr 1; ring
  unfold Fmt.overflowBound
  linear_combination h1.symm + h2 / 2

/-- No member reaches the bound. -/
theorem mul_lastPlace_lt_overflowBound (hm : m < 2 ^ f.precision.toNat) (he : e ≤ f.emax) :
    m * pow2 (e - f.precision + 1) < f.overflowBound := by
  have hm' : (m : ℚ) + 1 ≤ pow2 f.precision := by
    rw [← pow2_toNat (precision_nonneg f)]
    exact_mod_cast hm
  rw [overflowBound_eq]
  calc m * pow2 (e - f.precision + 1) ≤ m * pow2 (f.emax - f.precision + 1) :=
        mul_le_mul_of_nonneg_left (pow2_le (by omega)) (Nat.cast_nonneg m)
    _ < _ := mul_lt_mul_of_pos_right (by linarith) (pow2_pos _)

theorem floorLog2_le_of_lt (ha : 0 < a) (h : a < pow2 (e + 1)) : floorLog2 a ≤ e := by
  by_contra hc
  have := pow2_le (show e + 1 ≤ floorLog2 a by omega)
  linarith [(floorLog2_spec ha).1]

/-- A significand of the format at an exponent of the format rounds to itself, normalised or not. -/
theorem round_eq_self (hpos : 0 < m) (hm : m < 2 ^ f.precision.toNat) (hlo : f.emin ≤ e) (hhi : e ≤ f.emax) :
    Fp.round f (m * pow2 (e - f.precision + 1)) = .fin (m * pow2 (e - f.precision + 1)) := by
  have hx : 0 < m * pow2 (e - f.precision + 1) := mul_pos (Nat.cast_pos.mpr hpos) (pow2_pos _)
  have hulp : f.ulpExp (m * pow2 (e - f.precision + 1)) ≤ e - f.precision + 1 := by
    have := floorLog2_le_of_lt hx (mul_lastPlace_lt (f := f) (e := e) hm)
    unfold Fmt.ulpExp
    omega
  rw [Fp.round, if_neg hx.ne', abs_of_pos hx, if_neg (not_le.mpr (mul_lastPlace_lt_overflowBound hm hhi)),
    roundMag_exact f m _ hulp, if_neg hx.ne', if_neg hx.not_gt]

/-- The significand to which a magnitude is rounded, in its own last places. -/
def Fmt.roundSig (f : Fmt) (a : ℚ) : ℕ := roundHalfEven (a / pow2 (f.ulpExp a))

theorem roundMag_eq_roundSig (f : Fmt) (a : ℚ) : f.roundMag a = f.roundSig a * pow2 (f.ulpExp a) := rfl

/-- No natural is nearer to `q` than what `roundHalfEven` answers, which is even where another one is as near. -/
theorem roundHalfEven_nearest {q : ℚ} (hq : 0 ≤ q) (n : ℕ) :
    |q - roundHalfEven q| ≤ |q - n|
    ∧ (|q - roundHalfEven q| = |q - n| → n ≠ roundHalfEven q → roundHalfEven q % 2 = 0) := by
  obtain ⟨hhalf, heven⟩ := roundHalfEven_spec hq
  have hfar : n ≠ roundHalfEven q → 1 / 2 ≤ |q - n| := fun hne => by
    have hone : (1 : ℚ) ≤ |(roundHalfEven q : ℚ) - n| := by
      exact_mod_cast Int.one_le_abs (sub_ne_zero.mpr (Nat.cast_injective.ne hne.symm))
    have := abs_sub_le (roundHalfEven q : ℚ) q n
    rw [abs_sub_comm _ q] at this
    linarith
  refine ⟨?_, fun htie hne => heven (le_antisymm hhalf (htie ▸ hfar hne))⟩
  obtain rfl | hne := eq_or_ne n (roundHalfEven q)
  · exact le_rfl
  · exact hhalf.trans (hfar hne)

/-- No multiple of its last place is nearer to a magnitude than the rounded one. -/
theorem roundMag_nearest_multiple (f : Fmt) (ha : 0 ≤ a) (n : ℕ) :
    |a - f.roundMag a| ≤ |a - n * pow2 (f.ulpExp a)|
    ∧ (|a - f.roundMag a| = |a - n * pow2 (f.ulpExp a)| → n * pow2 (f.ulpExp a) ≠ f.roundMag a → f.roundSig a % 2 = 0) := by
  have hu := pow2_pos (f.ulpExp a)
  have hscale : ∀ k : ℕ, |a - k * pow2 (f.ulpExp a)| = |a / pow2 (f.ulpExp a) - k| * pow2 (f.ulpExp a) := fun k => by
    rw [← abs_of_pos hu, ← abs_mul, abs_of_pos hu, sub_mul, div_mul_cancel₀ _ hu.ne']
  obtain ⟨hle, heven⟩ := roundHalfEven_nearest (div_nonneg ha hu.le) n
  rw [roundMag_eq_roundSig, hscale, hscale]
  refine ⟨mul_le_mul_of_nonneg_right hle hu.le, fun htie hne => heven (mul_right_cancel₀ hu.ne' htie) fun h => hne ?_⟩
  rw [h, Fmt.roundSig]

/-- A member is a whole number of every power of two up to its last place. -/
theorem Fmt.Represents.exists_multiple (h : f.Represents m e a) (hk : k ≤ e - f.precision + 1) : ∃ n : ℕ, a = n * pow2 k := by
  obtain ⟨j, hj⟩ := Int.eq_ofNat_of_zero_le (sub_nonneg.mpr hk)
  refine ⟨m * 2 ^ j, ?_⟩
  rw [h.value, show e - f.precision + 1 = j + k by omega, pow2_add, pow2_natCast]
  push_cast
  ring

/-- A member is a whole number of the last places of `b`, or lies below the power of two under `b`. -/
theorem represents_multiple_or_lt (h : f.Represents m e a) (b : ℚ) :
    (∃ n : ℕ, a = n * pow2 (f.ulpExp b)) ∨ f.emin < floorLog2 b ∧ a < pow2 (floorLog2 b) := by
  by_cases hu : f.ulpExp b ≤ e - f.precision + 1
  · exact .inl (h.exists_multiple hu)
  · have hlo := h.lower
    unfold Fmt.ulpExp at hu
    rw [h.value]
    exact .inr ⟨by omega, (mul_lastPlace_lt h.fits).trans_le (pow2_le (by omega))⟩

/-- No member is nearer to a magnitude than the rounded one, whose significand is even where another member is as near. -/
theorem roundMag_nearest {c : ℚ} (ha : 0 < a) (h : f.Represents m e c) :
    |a - f.roundMag a| ≤ |a - c| ∧ (|a - f.roundMag a| = |a - c| → c ≠ f.roundMag a → f.roundSig a % 2 = 0) := by
  obtain ⟨n, rfl⟩ | ⟨hnormal, hlt⟩ := represents_multiple_or_lt h a
  · exact roundMag_nearest_multiple f ha.le n
  · -- the power of two under `a` is a whole number of last places, and nearer
    have hpow : pow2 (floorLog2 a) = ((2 ^ (f.precision.toNat - 1) : ℕ) : ℚ) * pow2 (f.ulpExp a) := by
      rw [leadingBit_eq, ← pow2_add]
      congr 1
      unfold Fmt.ulpExp
      omega
    have hbelow := (floorLog2_spec ha).1
    have hnear : |a - f.roundMag a| < |a - c| := by
      calc |a - f.roundMag a| ≤ |a - pow2 (floorLog2 a)| := hpow ▸ (roundMag_nearest_multiple f ha.le _).1
        _ < |a - c| := by rw [abs_of_nonneg (by linarith), abs_of_pos (by linarith)]; linarith
    exact ⟨hnear.le, fun htie => absurd htie hnear.ne⟩

/-- A magnitude from the least normal number on is rounded to a significand with the leading bit. -/
theorem leadingBit_le_roundSig (ha : 0 < a) (h : f.emin ≤ floorLog2 a) : 2 ^ (f.precision.toNat - 1) ≤ f.roundSig a := by
  have hq : ((2 ^ (f.precision.toNat - 1) : ℕ) : ℚ) ≤ a / pow2 (f.ulpExp a) := by
    rw [leadingBit_eq, le_div_iff₀ (pow2_pos _), ← pow2_add]
    refine le_trans (pow2_le ?_) (floorLog2_spec ha).1
    unfold Fmt.ulpExp
    omega
  have := roundHalfEven_mono (Nat.cast_nonneg _) hq
  rwa [roundHalfEven_natCast] at this

/-- Rounding carries into the next power of two at most. -/
theorem roundSig_le (ha : 0 < a) : f.roundSig a ≤ 2 ^ f.precision.toNat := by
  have hq : a / pow2 (f.ulpExp a) ≤ ((2 ^ f.precision.toNat : ℕ) : ℚ) := by
    rw [pow2_toNat (precision_nonneg f)]
    exact (div_ulp_lt f ha).le
  have := roundHalfEven_mono (div_nonneg ha.le (pow2_pos _).le) hq
  rwa [roundHalfEven_natCast] at this

/-- Below the overflow bound a rounded magnitude of the largest exponent does not carry. -/
theorem roundSig_lt_of_emax (ha : 0 < a) (hb : a < f.overflowBound) (he : f.ulpExp a = f.emax - f.precision + 1) :
    f.roundSig a < 2 ^ f.precision.toNat := by
  have hq : a / pow2 (f.ulpExp a) < pow2 f.precision - 1 / 2 := by
    rwa [div_lt_iff₀ (pow2_pos _), he, ← overflowBound_eq]
  have := (abs_le.mp (roundHalfEven_spec (div_nonneg ha.le (pow2_pos (f.ulpExp a)).le)).1).1
  rw [lt_two_pow_precision_iff, Fmt.roundSig]
  linarith

/-- A rounded magnitude below the overflow bound is a member, even where the rounded last places are. -/
theorem roundMag_represents (ha : 0 < a) (hb : a < f.overflowBound) :
    ∃ m e, f.Represents m e (f.roundMag a) ∧ (f.roundSig a % 2 = 0 → m % 2 = 0) := by
  have hmax : floorLog2 a ≤ f.emax := by
    refine floorLog2_le_of_lt ha (hb.trans ?_)
    rw [Fmt.overflowBound, pow2_succ]
    exact mul_lt_mul_of_pos_right (by linarith [pow2_pos (-f.precision)]) (pow2_pos _)
  have hem := emin_lt_emax f
  have hulp : f.ulpExp a = max (floorLog2 a) f.emin - f.precision + 1 := rfl
  obtain hlt | hcarry := (roundSig_le (f := f) ha).lt_or_eq
  · refine ⟨f.roundSig a, max (floorLog2 a) f.emin, ⟨hlt, le_max_right _ _, by omega, by rw [← hulp]; rfl, ?_⟩, id⟩
    obtain hle | hgt := le_or_gt f.emin (floorLog2 a)
    · exact .inl (leadingBit_le_roundSig ha hle)
    · exact .inr (max_eq_right hgt.le)
  · have hne : max (floorLog2 a) f.emin ≠ f.emax := fun h =>
      (roundSig_lt_of_emax ha hb (by rw [hulp, h])).ne hcarry
    have htwo := two_mul_leadingBit f
    refine ⟨2 ^ (f.precision.toNat - 1), max (floorLog2 a) f.emin + 1,
      ⟨by have := Nat.two_pow_pos (f.precision.toNat - 1); omega, by omega, by omega, ?_, .inl le_rfl⟩, fun _ => ?_⟩
    · rw [roundMag_eq_roundSig, hcarry, ← htwo, hulp,
        show max (floorLog2 a) f.emin + 1 - f.precision + 1 = max (floorLog2 a) f.emin - f.precision + 1 + 1 by ring,
        pow2_succ (_ + 1)]
      push_cast
      ring
    · have := two_le_precision f
      rw [show f.precision.toNat - 1 = f.precision.toNat - 2 + 1 by omega, pow_succ, Nat.mul_mod_left]

end Members

/-! SUPPORT. Rounding a signed number (40_quantizer.md R71). -/

/-- Below the overflow bound rounding keeps the sign and rounds the magnitude. -/
theorem round_of_lt {f : Fmt} {x : ℚ} (hx : x ≠ 0) (hb : |x| < f.overflowBound) :
    ∃ y : ℚ, (Fp.round f x = .fin y ∧ 0 < x * y ∨ Fp.round f x = .zero (decide (x < 0)) ∧ y = 0)
      ∧ |y| = f.roundMag |x| := by
  have hmag := roundMag_nonneg f |x|
  rw [Fp.round, if_neg hx, if_neg (not_le.mpr hb)]
  split_ifs with h0 hneg
  · exact ⟨0, .inr ⟨rfl, rfl⟩, by rw [h0, abs_zero]⟩
  · exact ⟨-f.roundMag |x|, .inl ⟨rfl, mul_pos_of_neg_of_neg hneg (neg_neg_of_pos (hmag.lt_of_ne' h0))⟩,
      by rw [abs_neg, abs_of_nonneg hmag]⟩
  · exact ⟨f.roundMag |x|, .inl ⟨rfl, mul_pos ((not_lt.mp hneg).lt_of_ne' hx) (hmag.lt_of_ne' h0)⟩, abs_of_nonneg hmag⟩

/-- Of numbers that do not differ in sign the difference is that of the magnitudes. -/
theorem abs_sub_of_mul_nonneg {x y : ℚ} (h : 0 ≤ x * y) : |x - y| = abs (|x| - |y|) := by
  obtain ⟨hx, hy⟩ | ⟨hx, hy⟩ := mul_nonneg_iff.mp h
  · rw [abs_of_nonneg hx, abs_of_nonneg hy]
  · rw [abs_of_nonpos hx, abs_of_nonpos hy, neg_sub_neg, abs_sub_comm]

/-- Of two equally near numbers of one magnitude, one of which has the sign of `x`, the other is the same. -/
theorem eq_of_equally_near {x y z : ℚ} (hx : x ≠ 0) (hxy : 0 ≤ x * y) (hmag : |z| = |y|) (hnear : |x - y| = |x - z|) :
    z = y := by
  obtain h | h := abs_eq_abs.mp hmag
  · exact h
  · rw [h, sub_neg_eq_add, ← sq_eq_sq_iff_abs_eq_abs] at hnear
    obtain h0 | h0 := mul_eq_zero.mp (show x * y = 0 by linarith)
    · exact absurd h0 hx
    · rw [h, h0, neg_zero]

/-- Settles O7: a member of the other sign is farther away than its magnitude, and no member's magnitude is nearer than the
rounded one. -/
theorem roundIsNearestTiesToEven : Obligations.RoundIsNearestTiesToEven := by
  intro f x hx
  refine ⟨fun hb => by rw [Fp.round, if_neg hx, if_pos hb], fun hb => ?_⟩
  obtain ⟨y, hy, hmag⟩ := round_of_lt hx hb
  obtain ⟨m, e, hrep, heven⟩ := roundMag_represents (abs_pos.mpr hx) hb
  have hxy : 0 ≤ x * y := by
    obtain ⟨-, hpos⟩ | ⟨-, rfl⟩ := hy
    · exact hpos.le
    · rw [mul_zero]
  have hdist : |x - y| = abs (|x| - f.roundMag |x|) := by rw [abs_sub_of_mul_nonneg hxy, hmag]
  refine ⟨y, m, e, hy, hmag ▸ hrep, fun z m' e' hz => ?_⟩
  obtain ⟨hle, htie⟩ := roundMag_nearest (abs_pos.mpr hx) hz
  have hz : abs (|x| - |z|) ≤ |x - z| := abs_abs_sub_abs_le x z
  refine ⟨hdist ▸ hle.trans hz, fun heq hne => heven (htie ?_ fun hzy => hne ?_)⟩
  · exact le_antisymm hle (hdist ▸ heq ▸ hz)
  · exact eq_of_equally_near hx hxy (hzy.trans hmag.symm) heq

end Sys2Proof

namespace Sys2Proof

/-! SUPPORT. The fields of a bit pattern (30_encoding.md R52, 40_quantizer.md R70). -/

/-- The significand that the fields of a number stand for: with the hidden bit, except in the zeros and subnormal numbers. -/
def Fmt.fieldSig (f : Fmt) (expo frac : ℕ) : ℕ := if expo = 0 then frac else 2 ^ (f.precision - 1).toNat + frac

/-- The exponent that the biased exponent of a number stands for: the subnormal numbers have the least one. -/
def Fmt.fieldExp (f : Fmt) (expo : ℕ) : ℤ := max (expo : ℤ) 1 - f.emax

/-- The factor of a sign. -/
def Fp.sign (neg : Bool) : ℚ := if neg then -1 else 1

/-- A sign does not change a magnitude. -/
theorem abs_sign_mul (neg : Bool) (y : ℚ) : |Fp.sign neg * y| = |y| := by cases neg <;> simp [Fp.sign]

/-- A positive number has no sign. -/
theorem neg_eq_false_of_pos {neg : Bool} {y : ℚ} (hy : 0 ≤ y) (h : 0 < Fp.sign neg * y) : neg = false := by
  cases neg with
  | false => rfl
  | true =>
    rw [Fp.sign, if_pos rfl] at h
    linarith

/-- A number is its magnitude with its sign. -/
theorem sign_mul_abs (x : ℚ) : Fp.sign (decide (x < 0)) * |x| = x := by
  obtain hneg | hpos := lt_or_ge x 0
  · simp [Fp.sign, hneg, abs_of_neg]
  · simp [Fp.sign, hpos.not_gt, abs_of_nonneg hpos]

section Fields

variable {f : Fmt} {expo frac : ℕ}

/-- Only the fields of a zero have no significand. -/
theorem fieldSig_eq_zero_iff : f.fieldSig expo frac = 0 ↔ expo = 0 ∧ frac = 0 := by
  unfold Fmt.fieldSig
  split_ifs with h
  · simp [h]
  · simp [h]

/-- The three kinds of fields: infinities and NaNs, zeros, and finite numbers. -/
theorem ofFields_eq (f : Fmt) (neg : Bool) (expo frac : ℕ) :
    Fp.ofFields f neg expo frac =
      if (expo : ℤ) = 2 * f.emax + 1 then (if frac = 0 then .inf neg else .nan)
      else if f.fieldSig expo frac = 0 then .zero neg
      else .fin (Fp.sign neg * (f.fieldSig expo frac * pow2 (f.fieldExp expo - f.precision + 1))) := by
  have hb := emin_add_emax f
  unfold Fp.ofFields
  dsimp only
  rcases eq_or_ne expo 0 with rfl | h0
  · have he : f.fieldExp 0 = f.emin := by unfold Fmt.fieldExp; omega
    rw [he]
    rfl
  · have he : f.fieldExp expo = expo - f.emax := by unfold Fmt.fieldExp; omega
    have hs : f.fieldSig expo frac = 2 ^ (f.precision - 1).toNat + frac := if_neg h0
    rw [if_neg h0, he, hs, if_neg (Nat.add_pos_left (Nat.two_pow_pos _) _).ne']
    rfl

/-- The fields of a number are those of a member of the format. -/
theorem fieldSig_represents (hexpo : (expo : ℤ) < 2 * f.emax + 1) (hfrac : frac < 2 ^ (f.precision - 1).toNat) :
    f.Represents (f.fieldSig expo frac) (f.fieldExp expo) (f.fieldSig expo frac * pow2 (f.fieldExp expo - f.precision + 1)) := by
  have hb := emin_add_emax f
  have hlt := emin_lt_emax f
  have htwo := two_mul_leadingBit f
  rw [← precision_sub_one_toNat] at htwo
  refine ⟨?_, by unfold Fmt.fieldExp; omega, by unfold Fmt.fieldExp; omega, rfl, ?_⟩
  · unfold Fmt.fieldSig
    split_ifs <;> omega
  · rw [← precision_sub_one_toNat]
    unfold Fmt.fieldSig Fmt.fieldExp
    split_ifs with h0
    · right; omega
    · left; omega

/-- Every member of the format has fields. -/
theorem exists_fields {m : ℕ} {e : ℤ} {a : ℚ} (h : f.Represents m e a) :
    ∃ expo frac : ℕ, (expo : ℤ) < 2 * f.emax + 1 ∧ frac < 2 ^ (f.precision - 1).toNat
      ∧ f.fieldSig expo frac = m ∧ f.fieldExp expo = e := by
  have hb := emin_add_emax f
  have hlt := emin_lt_emax f
  have htwo := two_mul_leadingBit f
  obtain ⟨hfits, hlo, hhi, -, hnormal⟩ := h
  rw [← precision_sub_one_toNat] at htwo hnormal
  obtain hm | hm := lt_or_ge m (2 ^ (f.precision - 1).toNat)
  · have he : e = f.emin := hnormal.resolve_left (not_le.mpr hm)
    exact ⟨0, m, by omega, hm, rfl, by unfold Fmt.fieldExp; omega⟩
  · refine ⟨(e + f.emax).toNat, m - 2 ^ (f.precision - 1).toNat, by omega, by omega, ?_, by unfold Fmt.fieldExp; omega⟩
    rw [Fmt.fieldSig, if_neg (by omega)]
    omega

end Fields

/-- The exponent field between the sign and the fraction. -/
theorem expo_of_fields {p q : ℕ} (s : BitVec 1) (e : BitVec p) (m : BitVec q) : (s ++ e ++ m).extractLsb' q p = e := by
  ext i hi
  simp [BitVec.getLsbD_append, hi]

/-- The sign bit in front of the fields. -/
theorem sign_of_fields {p q : ℕ} (neg : Bool) (e : BitVec p) (m : BitVec q) :
    (BitVec.ofBool neg ++ e ++ m).getLsbD (p + q) = neg := by
  rw [BitVec.append_assoc, BitVec.getLsbD_cast, BitVec.getLsbD_append, if_neg (lt_irrefl _), Nat.sub_self]
  cases neg <;> rfl

/-- The pattern with these fields. -/
def FpBits.assemble (f : Fmt) (neg : Bool) (expo frac : ℕ) : FpBits :=
  match f with
  | .binary32 => .b32 (BitVec.ofBool neg ++ BitVec.ofNat 8 expo ++ BitVec.ofNat 23 frac)
  | .binary64 => .b64 (BitVec.ofBool neg ++ BitVec.ofNat 11 expo ++ BitVec.ofNat 52 frac)

/-- The bit pattern as a number. -/
def FpBits.pattern : FpBits → ℕ
  | .b32 b => b.toNat
  | .b64 b => b.toNat

@[simp] theorem assemble_fmt (f : Fmt) (neg : Bool) (expo frac : ℕ) : (FpBits.assemble f neg expo frac).fmt = f := by
  cases f <;> rfl

/-- The value of a pattern is that of its fields. -/
theorem assemble_value {f : Fmt} (neg : Bool) {expo frac : ℕ} (hexpo : (expo : ℤ) ≤ 2 * f.emax + 1)
    (hfrac : frac < 2 ^ (f.precision - 1).toNat) : (FpBits.assemble f neg expo frac).value = .ofFields f neg expo frac := by
  cases f with
  | binary32 =>
    have he : expo < 2 ^ 8 := by simp only [Fmt.emax] at hexpo; omega
    simp only [FpBits.assemble, FpBits.value]
    rw [expo_of_fields, BitVec.extractLsb'_append_eq_right, BitVec.toNat_ofNat, BitVec.toNat_ofNat, Nat.mod_eq_of_lt he,
      Nat.mod_eq_of_lt (show frac < 2 ^ 23 from hfrac)]
    exact congrArg (Fp.ofFields .binary32 · expo frac) (sign_of_fields neg _ _)
  | binary64 =>
    have he : expo < 2 ^ 11 := by simp only [Fmt.emax] at hexpo; omega
    simp only [FpBits.assemble, FpBits.value]
    rw [expo_of_fields, BitVec.extractLsb'_append_eq_right, BitVec.toNat_ofNat, BitVec.toNat_ofNat, Nat.mod_eq_of_lt he,
      Nat.mod_eq_of_lt (show frac < 2 ^ 52 from hfrac)]
    exact congrArg (Fp.ofFields .binary64 · expo frac) (sign_of_fields neg _ _)

/-- Without its first bit a pattern is the exponent field before the fraction. -/
theorem toNat_of_fields {p q : ℕ} (b : BitVec (p + q + 1)) (h : b.getLsbD (p + q) = false) :
    b.toNat = (b.extractLsb' q p).toNat * 2 ^ q + (b.extractLsb' 0 q).toNat := by
  have hlt : b.toNat / 2 ^ q < 2 ^ p := by
    have hsign : b.toNat / 2 ^ (p + q) < 2 := Nat.div_lt_of_lt_mul (by rw [← pow_succ]; exact b.isLt)
    rw [BitVec.getLsbD, Nat.testBit_eq_decide_div_mod_eq, Nat.mod_eq_of_lt hsign, decide_eq_false_iff_not] at h
    rw [Nat.div_lt_iff_lt_mul (Nat.two_pow_pos q), ← pow_add]
    exact (Nat.div_lt_one_iff (Nat.two_pow_pos _)).mp ((Nat.le_of_lt_succ hsign).lt_of_ne h)
  rw [BitVec.extractLsb'_toNat, BitVec.extractLsb'_toNat, Nat.shiftRight_eq_div_pow, Nat.shiftRight_zero, Nat.mod_eq_of_lt hlt,
    Nat.div_add_mod']

/-- Every pattern has fields; without the sign bit its number is the exponent field before the fraction. -/
theorem value_eq_ofFields (b : FpBits) :
    ∃ (neg : Bool) (expo frac : ℕ), b.value = .ofFields b.fmt neg expo frac ∧ (expo : ℤ) ≤ 2 * b.fmt.emax + 1
      ∧ frac < 2 ^ (b.fmt.precision - 1).toNat
      ∧ (neg = false → b.pattern = expo * 2 ^ (b.fmt.precision - 1).toNat + frac) := by
  cases b with
  | b32 b =>
    refine ⟨_, _, _, rfl, ?_, (b.extractLsb' 0 23).isLt, fun h => ?_⟩
    · have := (b.extractLsb' 23 8).isLt
      simp only [FpBits.fmt, Fmt.emax]; omega
    · exact toNat_of_fields (p := 8) (q := 23) b h
  | b64 b =>
    refine ⟨_, _, _, rfl, ?_, (b.extractLsb' 0 52).isLt, fun h => ?_⟩
    · have := (b.extractLsb' 52 11).isLt
      simp only [FpBits.fmt, Fmt.emax]; omega
    · exact toNat_of_fields (p := 11) (q := 52) b h

/-- The fields of a pattern that stands for a finite number. -/
theorem fields_of_value_fin {b : FpBits} {x : ℚ} (h : b.value = .fin x) :
    ∃ (neg : Bool) (expo frac : ℕ),
      x = Fp.sign neg * (b.fmt.fieldSig expo frac * pow2 (b.fmt.fieldExp expo - b.fmt.precision + 1))
      ∧ b.fmt.fieldSig expo frac ≠ 0 ∧ (expo : ℤ) < 2 * b.fmt.emax + 1 ∧ frac < 2 ^ (b.fmt.precision - 1).toNat
      ∧ (neg = false → b.pattern = expo * 2 ^ (b.fmt.precision - 1).toNat + frac) := by
  obtain ⟨neg, expo, frac, hval, hexpo, hfrac, hpat⟩ := value_eq_ofFields b
  rw [h, ofFields_eq] at hval
  split_ifs at hval with h1 h2 h3
  exact ⟨neg, expo, frac, Fp.fin.inj hval, h3, by omega, hfrac, hpat⟩

/-- A finite value is a member of the format. -/
theorem value_represents {b : FpBits} {x : ℚ} (h : b.value = .fin x) : x ≠ 0 ∧ ∃ m e, b.fmt.Represents m e |x| := by
  obtain ⟨neg, expo, frac, rfl, h0, hexpo, hfrac, -⟩ := fields_of_value_fin h
  have hpos : (0 : ℚ) < b.fmt.fieldSig expo frac * pow2 (b.fmt.fieldExp expo - b.fmt.precision + 1) :=
    mul_pos (Nat.cast_pos.mpr (Nat.pos_of_ne_zero h0)) (pow2_pos _)
  rw [← abs_pos, abs_sign_mul, abs_of_pos hpos]
  exact ⟨hpos, _, _, fieldSig_represents hexpo hfrac⟩

/-- Fields in their ranges are those of a pattern. -/
theorem exists_value_ofFields {f : Fmt} (neg : Bool) {expo frac : ℕ} (hexpo : (expo : ℤ) ≤ 2 * f.emax + 1)
    (hfrac : frac < 2 ^ (f.precision - 1).toNat) : ∃ b : FpBits, b.fmt = f ∧ b.value = .ofFields f neg expo frac :=
  ⟨.assemble f neg expo frac, assemble_fmt .., assemble_value neg hexpo hfrac⟩

/-- Every member of the format but zero has a pattern. -/
theorem exists_value_fin {f : Fmt} {x : ℚ} {m : ℕ} {e : ℤ} (hx : x ≠ 0) (h : f.Represents m e |x|) :
    ∃ b : FpBits, b.fmt = f ∧ b.value = .fin x := by
  obtain ⟨expo, frac, hexpo, hfrac, rfl, rfl⟩ := exists_fields h
  have h0 : f.fieldSig expo frac ≠ 0 := fun h0 => hx (by simpa [h0] using h.value)
  have hb := exists_value_ofFields (decide (x < 0)) hexpo.le hfrac
  rwa [ofFields_eq, if_neg hexpo.ne, if_neg h0, ← h.value, sign_mul_abs] at hb

/-- The largest exponent field, which the infinities and NaNs have. -/
theorem maxField_cast (f : Fmt) : (((2 * f.emax + 1).toNat : ℕ) : ℤ) = 2 * f.emax + 1 := by cases f <;> rfl

theorem exists_value_zero (f : Fmt) (neg : Bool) : ∃ b : FpBits, b.fmt = f ∧ b.value = .zero neg := by
  have hmax := maxField_cast f
  have h := exists_value_ofFields (f := f) neg (expo := 0) (by omega) (Nat.two_pow_pos _)
  rwa [ofFields_eq, if_neg (by omega), if_pos (fieldSig_eq_zero_iff.mpr ⟨rfl, rfl⟩)] at h

theorem exists_value_inf (f : Fmt) (neg : Bool) : ∃ b : FpBits, b.fmt = f ∧ b.value = .inf neg := by
  have h := exists_value_ofFields neg (maxField_cast f).le (Nat.two_pow_pos _)
  rwa [ofFields_eq, if_pos (maxField_cast f), if_pos rfl] at h

theorem exists_value_nan (f : Fmt) : ∃ b : FpBits, b.fmt = f ∧ b.value = .nan := by
  have hone : 1 < 2 ^ (f.precision - 1).toNat := Nat.one_lt_two_pow (by have := two_le_precision f; omega)
  have h := exists_value_ofFields false (maxField_cast f).le hone
  rwa [ofFields_eq, if_pos (maxField_cast f), if_neg one_ne_zero] at h

/-- Settles O8: the fields of a pattern are a significand and an exponent of the format, and every such pair has fields. -/
theorem bitPatternsAreTheFormat : Obligations.BitPatternsAreTheFormat :=
  ⟨fun _ _ h => value_represents h, fun _ _ _ _ hx h => exists_value_fin hx h,
    fun f neg => ⟨exists_value_zero f neg, exists_value_inf f neg⟩, exists_value_nan⟩

end Sys2Proof

namespace Sys2Proof

/-! SUPPORT. The operations on numbers and infinities (40_quantizer.md R72, R74, R75). -/

/-- What compares is no NaN (40_quantizer.md R75). -/
theorem Fp.isNan_of_le {a b : Fp} (h : Fp.le a b = true) : a.isNan = false ∧ b.isNan = false := by
  simp only [Fp.le, Bool.and_eq_true, Bool.not_eq_true'] at h
  exact h.1

/-- A finite number is no NaN. -/
theorem Fp.isNan_of_isFinite {a : Fp} (h : a.isFinite = true) : a.isNan = false := by cases a <;> trivial

/-- The opposite of a finite number is finite. -/
theorem Fp.isFinite_neg {a : Fp} (h : a.isFinite = true) : a.neg.isFinite = true := by cases a <;> trivial

/-- A finite number is not below zero as its rational is not. -/
theorem Fp.zero_le_of_num {a : Fp} (s : Bool) (h : a.isFinite = true) (hn : 0 ≤ a.num) : Fp.le (.zero s) a = true := by
  cases a with
  | nan | inf => cases h
  | zero t => exact Fp.le_zero_zero s t
  | fin x => exact (Fp.le_zero_fin s x).mpr hn

/-- A number and its opposite add up to `+0` (40_quantizer.md R72). -/
theorem Fp.add_neg_self (f : Fmt) {a : Fp} (h : a.isFinite = true) : Fp.add f a.neg a = .zero false := by
  cases a with
  | nan | inf => cases h
  | zero s => cases s <;> rfl
  | fin x => rw [Fp.neg, Fp.add, neg_add_cancel, Fp.round_zero]

/-- An infinity stays with any finite number added. -/
theorem Fp.add_inf_finite (f : Fmt) (neg : Bool) {a : Fp} (h : a.isFinite = true) : Fp.add f (.inf neg) a = .inf neg := by
  cases a with
  | nan | inf => cases h
  | zero | fin => rfl

/-- An infinity stays with any positive factor. -/
theorem Fp.mul_inf_pos (f : Fmt) (neg : Bool) {y : ℚ} (hy : 0 < y) : Fp.mul f (.inf neg) (.fin y) = .inf neg := by
  simp [Fp.mul, hy.not_gt]

/-- An infinity stays over any positive divisor. -/
theorem Fp.div_inf_pos (f : Fmt) (neg : Bool) {y : ℚ} (hy : 0 < y) : Fp.div f (.inf neg) (.fin y) = .inf neg := by
  simp [Fp.div, hy.not_gt]

/-- Settles O10: each clause is one row of the definition; only a NaN on the right has one per kind of value. -/
theorem comparisonIsOrdered : Obligations.ComparisonIsOrdered :=
  ⟨fun a => ⟨rfl, by cases a <;> rfl⟩, fun _ _ => rfl, fun _ => ⟨rfl, rfl, rfl, rfl⟩, fun _ => ⟨rfl, rfl, rfl, rfl⟩,
    ⟨rfl, rfl, rfl, rfl⟩, fun _ _ => rfl, fun _ _ => ⟨rfl, rfl⟩⟩

/-- Settles O11: each clause is one row of the operation's table, and a sum that is exactly 0 rounds to `+0`. -/
theorem operationsFollowTheTable : Obligations.OperationsFollowTheTable := by
  intro f a s t x y
  have hinf : Fp.add f (.inf s) (.inf s) = .inf s := if_pos rfl
  have hopp : Fp.add f (.inf s) (.inf (!s)) = .nan := if_neg (by simp)
  refine ⟨⟨rfl, by cases a <;> rfl, rfl, by cases a <;> rfl, rfl, by cases a <;> rfl⟩, ⟨rfl, rfl, rfl, rfl, hinf, hopp⟩,
    fun hxy => ?_, ⟨rfl, rfl, rfl⟩, ⟨rfl, rfl, rfl⟩, ⟨rfl, rfl, rfl, rfl, rfl, rfl, rfl, rfl⟩,
    ⟨rfl, rfl, rfl, rfl, rfl, rfl, rfl⟩⟩
  rw [Fp.add, hxy, Fp.round_zero]

end Sys2Proof

namespace Sys2Proof.Machine

/-- Settles O9: the constants are those of the two widths and 2, and the two patterns are evaluated. -/
theorem integerConstantsAreExact : Obligations.IntegerConstantsAreExact :=
  ⟨fun f => ⟨ofNat_maxCode f .w16, ofNat_maxCode f .w20, ofNat_two f⟩, fun _ _ => rfl, by decide +kernel, by decide +kernel⟩

/-! SUPPORT. The code over a valid reference voltage (40_quantizer.md R80, R82, R87 to R90). -/

section Code

variable {b : FpBits} {r : ℚ}

/-- The code is within the width (40_quantizer.md R87). -/
theorem quantize_le (hr : b.value = .fin r) (hpos : 0 < r) (w : Width) {v : Fp} (hv : v.isNan = false) :
    quantize b.fmt b.value w v ≤ w.maxCode := by
  rw [quantize_eq_saturate hr hpos w hv]
  exact saturate_le w _

/-- The code keeps the order of the voltages (40_quantizer.md R90). -/
theorem quantize_mono (hr : b.value = .fin r) (hpos : 0 < r) (w : Width) {v1 v2 : Fp} (h : Fp.le v1 v2 = true) :
    quantize b.fmt b.value w v1 ≤ quantize b.fmt b.value w v2 := by
  obtain ⟨h1, h2⟩ := Fp.isNan_of_le h
  rw [quantize_eq_saturate hr hpos w h1, quantize_eq_saturate hr hpos w h2]
  exact saturate_mono w (quantRaw_mono hr hpos w h)

/-- At minus half of the reference every later step is a zero, and so is the code (40_quantizer.md R88). -/
theorem quantize_neg_half (hr : b.value = .fin r) (hpos : 0 < r) (w : Width) :
    quantize b.fmt b.value w (quantHalf b.fmt b.value).neg = 0 := by
  obtain ⟨-, hfin, -⟩ := quantHalf_spec hr hpos
  have hshifted : quantShifted b.fmt b.value (quantHalf b.fmt b.value).neg = .zero false := Fp.add_neg_self b.fmt hfin
  rw [quantize_eq_saturate hr hpos w (Fp.isNan_of_isFinite (Fp.isFinite_neg hfin)), quantRaw, quantProd, hshifted,
    ofNat_maxCode, hr]
  rfl

/-- An infinite voltage makes `shifted` the same infinity (40_quantizer.md R82). -/
theorem quantShifted_inf (hr : b.value = .fin r) (hpos : 0 < r) (neg : Bool) : quantShifted b.fmt b.value (.inf neg) = .inf neg :=
  Fp.add_inf_finite b.fmt neg (quantHalf_spec hr hpos).2.1

/-- An infinite `shifted` makes `prod` the same infinity. -/
theorem quantProd_of_shifted_inf {v : Fp} {neg : Bool} (w : Width) (h : quantShifted b.fmt b.value v = .inf neg) :
    quantProd b.fmt b.value w v = .inf neg := by
  rw [quantProd, h, ofNat_maxCode]
  exact Fp.mul_inf_pos b.fmt neg (by exact_mod_cast maxCode_pos w)

/-- An infinite `prod` makes `raw` the same infinity. -/
theorem quantRaw_of_prod_inf (hr : b.value = .fin r) (hpos : 0 < r) {w : Width} {v : Fp} {neg : Bool}
    (h : quantProd b.fmt b.value w v = .inf neg) : quantRaw b.fmt b.value w v = .inf neg := by
  rw [quantRaw, h, hr]
  exact Fp.div_inf_pos b.fmt neg hpos

/-- An infinity at any of the three places reaches `raw`. -/
theorem quantRaw_of_inf (hr : b.value = .fin r) (hpos : 0 < r) {w : Width} {v : Fp} {neg : Bool}
    (h : v = .inf neg ∨ quantShifted b.fmt b.value v = .inf neg ∨ quantProd b.fmt b.value w v = .inf neg) :
    quantRaw b.fmt b.value w v = .inf neg := by
  obtain rfl | h | h := h
  · exact quantRaw_of_prod_inf hr hpos (quantProd_of_shifted_inf w (quantShifted_inf hr hpos neg))
  · exact quantRaw_of_prod_inf hr hpos (quantProd_of_shifted_inf w h)
  · exact quantRaw_of_prod_inf hr hpos h

end Code

/-- Settles O12: the code is saturated, at `2^w - 1` at most. -/
theorem quantizeStaysInRange : Obligations.QuantizeStaysInRange := by
  intro vref v w _ hc hv
  obtain ⟨r, hr, hpos⟩ := (configValid_iff vref).mp hc
  exact quantize_le hr hpos w hv

/-- Settles O13: the code at `-half` is 0, and no lower voltage has a higher one. -/
theorem quantizeIsZeroFromMinusHalfDown : Obligations.QuantizeIsZeroFromMinusHalfDown := by
  intro vref w hc
  obtain ⟨r, hr, hpos⟩ := (configValid_iff vref).mp hc
  have h0 := quantize_neg_half hr hpos w
  exact ⟨h0, fun v _ hv => Nat.le_zero.mp (h0 ▸ quantize_mono hr hpos w hv)⟩

/-- Settles O16: each step keeps the order. -/
theorem quantizeIsMonotone : Obligations.QuantizeIsMonotone := by
  intro vref v1 v2 w _ _ hc h
  obtain ⟨r, hr, hpos⟩ := (configValid_iff vref).mp hc
  exact quantize_mono hr hpos w h

/-- Settles O17: `half` is finite, so an infinity passes through the steps after the one where it appears and is saturated. -/
theorem infiniteVoltagesSaturate : Obligations.InfiniteVoltagesSaturate := by
  intro vref v w _ hc hv
  obtain ⟨r, hr, hpos⟩ := (configValid_iff vref).mp hc
  obtain ⟨-, hfin, hnum⟩ := quantHalf_spec hr hpos
  obtain ⟨hs, hp, hw⟩ := quant_isNan hr hpos w hv
  refine ⟨quantize_le hr hpos w hv, Fp.zero_le_of_num false hfin hnum, fun h => ?_, hs, hp, hw, fun neg h => ?_, fun h => ?_,
    fun h => ?_⟩
  · rw [h] at hfin
    cases hfin
  · rw [h]
    have hshifted := quantShifted_inf hr hpos neg
    exact ⟨hshifted, quantProd_of_shifted_inf w hshifted, quantRaw_of_inf hr hpos (.inl rfl)⟩
  · rw [quantize_eq_saturate hr hpos w hv, quantRaw_of_inf hr hpos h]
    rfl
  · rw [quantize_eq_saturate hr hpos w hv, quantRaw_of_inf hr hpos h]
    rfl

/-! SUPPORT. The ideal quantizer over the reals (40_quantizer.md R77, R91). -/

section Ideal

variable {vref v : ℝ} (w : Width)

/-- The ideal quantizer keeps the order. -/
theorem quantizeReal_mono (hpos : 0 < vref) {v1 v2 : ℝ} (h : v1 ≤ v2) : quantizeReal vref w v1 ≤ quantizeReal vref w v2 := by
  unfold quantizeReal
  gcongr

/-- From `vref/2` up the ideal code is `M`. -/
theorem quantizeReal_top (hpos : 0 < vref) (h : vref / 2 ≤ v) : quantizeReal vref w v = w.maxCode := by
  have hm : (w.maxCode : ℝ) ≤ (v + vref / 2) * w.maxCode / vref := by
    rw [le_div_iff₀ hpos, mul_comm]
    gcongr
    linarith
  rw [quantizeReal, min_eq_left (le_max_of_le_right hm), Int.floor_natCast]

/-- From `-vref/2` down the ideal code is 0. -/
theorem quantizeReal_bottom (hpos : 0 < vref) (h : v ≤ -(vref / 2)) : quantizeReal vref w v = 0 := by
  have hz : (v + vref / 2) * w.maxCode / vref ≤ 0 :=
    div_nonpos_of_nonpos_of_nonneg (mul_nonpos_of_nonpos_of_nonneg (by linarith) (Nat.cast_nonneg _)) hpos.le
  rw [quantizeReal, max_eq_left hz, min_eq_right (Nat.cast_nonneg _), Int.floor_zero]

/-- At 0 the ideal code is the half of `M`, rounded down. -/
theorem quantizeReal_zero (hpos : 0 < vref) : quantizeReal vref w 0 = 2 ^ (w.bits - 1) - 1 := by
  have hmid : (0 + vref / 2) * (w.maxCode : ℝ) / vref = w.maxCode / 2 := by field_simp; ring
  have hm : (0 : ℝ) ≤ w.maxCode := Nat.cast_nonneg _
  rw [quantizeReal, hmid, max_eq_right (by linarith), min_eq_right (by linarith), Int.floor_eq_iff]
  cases w <;> norm_num [Width.maxCode, Width.bits]

end Ideal

/-- Settles O18: the code saturates at both ends, and the one division is monotone. -/
theorem idealQuantizerLaws : Obligations.IdealQuantizerLaws := by
  intro vref w hpos
  exact ⟨quantizeReal_bottom w hpos le_rfl, quantizeReal_top w hpos le_rfl, quantizeReal_zero w hpos,
    fun _ h => quantizeReal_top w hpos h, fun _ h => quantizeReal_bottom w hpos h, fun _ _ h => quantizeReal_mono w hpos h⟩

/-! SUPPORT. VTOC (40_quantizer.md R85). -/

/-- VTOC whose conversion has an error only answers. -/
theorem exec_vtocOf_error {s : State} {x : BitVec 1} {v : FpBits} {r : Res} (hf : v.fmt = s.fmt) (h : s.conversion v = .error r) :
    exec (.vtocOf x v) s = .next (s.answered r 0) := by
  rw [exec_vtocOf hf, vtocBody_error (s := s.accept) h, respond_accept]

/-- Settles O23: the three cases of the conversion, each of which only answers. -/
theorem vtocAnswersTheCode : Obligations.VtocAnswersTheCode := by
  intro s x v hf
  obtain ⟨hr, h⟩ | ⟨hr, hv, h⟩ | ⟨hr, hv, -⟩ := conversion_cases s v
  · rw [if_pos hr, exec_vtocOf_error hf h]
  · rw [if_neg (by simp [hr]), if_pos hv, exec_vtocOf_error hf h]
  · rw [if_neg (by simp [hr]), if_neg (by simp [hv]), exec_vtocOf_code hf hr hv]

/-- The code of a voltage is read off the configuration alone. -/
theorem codeFor_congr {s s' : State} (v : FpBits) (href : s'.cfgVref = s.cfgVref) (hw : s'.cfgWidth = s.cfgWidth) :
    s'.codeFor v = s.codeFor v := by
  rw [State.codeFor, State.codeFor, State.fmt, State.fmt, href, hw]

/-- Settles O24: the case of the conversion depends on READY and the voltage, and the code on the configuration. -/
theorem vtocDependsOnTheConfigurationOnly : Obligations.VtocDependsOnTheConfigurationOnly := by
  intro s s' x v hf href hw hready
  have hf' : v.fmt = s'.fmt := by rw [hf, State.fmt, State.fmt, href]
  obtain ⟨hr, h⟩ | ⟨hr, hv, h⟩ | ⟨hr, hv, -⟩ := conversion_cases s v
  · exact ⟨⟨.notReady, 0⟩, exec_vtocOf_error hf h, exec_vtocOf_error hf' (conversion_notReady v (hready.trans hr))⟩
  · exact ⟨⟨.nanOperand, 0⟩, exec_vtocOf_error hf h, exec_vtocOf_error hf' (conversion_nan (hready.trans hr) hv)⟩
  · refine ⟨⟨.success, s.codeFor v⟩, exec_vtocOf_code hf hr hv, ?_⟩
    rw [exec_vtocOf_code hf' (hready.trans hr) hv, codeFor_congr v href hw]

end Sys2Proof.Machine

namespace Sys2Proof

/-! SUPPORT. Numbers that differ by a relative error, as rounding makes them (40_quantizer.md R92). -/

/-- The relative error of one rounding, in the less precise format. -/
def roundoff : ℚ := 1 / 2 ^ 24

theorem pow2_neg_precision_le (f : Fmt) : pow2 (-f.precision) ≤ roundoff := by cases f <;> decide +kernel

/-- `x` is `y` up to a relative error of `ε`. -/
def Near (ε x y : ℚ) : Prop := |x - y| ≤ |y| * ε

section NearNumbers

variable {ε δ x y z : ℚ}

theorem Near.refl (hε : 0 ≤ ε) (x : ℚ) : Near ε x x := by
  rw [Near, sub_self, abs_zero]
  positivity

theorem Near.mono (hle : δ ≤ ε) (h : Near δ x y) : Near ε x y := h.trans (mul_le_mul_of_nonneg_left hle (abs_nonneg y))

theorem Near.mul_right (h : Near ε x y) (c : ℚ) : Near ε (x * c) (y * c) := by
  rw [Near, ← sub_mul, abs_mul, abs_mul, mul_right_comm]
  exact mul_le_mul_of_nonneg_right h (abs_nonneg c)

theorem Near.div_right (h : Near ε x y) (c : ℚ) : Near ε (x / c) (y / c) := by
  rw [div_eq_mul_inv, div_eq_mul_inv]
  exact h.mul_right c⁻¹

/-- Relative errors one after another. -/
theorem Near.trans (hδ : 0 ≤ δ) (h : Near δ x y) (h' : Near ε y z) : Near (δ + ε + δ * ε) x z := by
  unfold Near at *
  have hy : |y| ≤ |z| + |z| * ε := by linarith [abs_sub_abs_le_abs_sub y z]
  calc |x - z| ≤ |x - y| + |y - z| := abs_sub_le x y z
    _ ≤ (|z| + |z| * ε) * δ + |z| * ε := add_le_add (h.trans (mul_le_mul_of_nonneg_right hy hδ)) h'
    _ = |z| * (δ + ε + δ * ε) := by ring

end NearNumbers

/-! SUPPORT. Rounding and halving the members of a format (40_quantizer.md R89). -/

/-- A significand of the format at an exponent of the format is rounded to the same number, zero included. -/
theorem round_num_eq_self {f : Fmt} {m : ℕ} {e : ℤ} (hm : m < 2 ^ f.precision.toNat) (hlo : f.emin ≤ e) (hhi : e ≤ f.emax) :
    (Fp.round f (m * pow2 (e - f.precision + 1))).isFinite = true
    ∧ (Fp.round f (m * pow2 (e - f.precision + 1))).num = m * pow2 (e - f.precision + 1) := by
  obtain rfl | hpos := m.eq_zero_or_pos
  · rw [Nat.cast_zero, zero_mul, Fp.round_zero]
    exact ⟨rfl, rfl⟩
  · rw [round_eq_self hpos hm hlo hhi]
    exact ⟨rfl, rfl⟩

/-- A positive number that does not overflow is rounded to its rounded magnitude. -/
theorem round_num_eq_roundMag {f : Fmt} {x : ℚ} (hx : 0 < x) (h : (Fp.round f x).isFinite = true) :
    (Fp.round f x).num = f.roundMag x := by
  unfold Fp.round at *
  rw [abs_of_pos hx] at *
  split_ifs at * with h0 hb hz hneg
  · exact absurd h0 hx.ne'
  · cases h
  · exact hz.symm
  · exact absurd hneg hx.not_gt
  · rfl

section Halving

variable {f : Fmt} {m : ℕ} {e : ℤ} {a : ℚ}

theorem Fmt.Represents.sig_pos (h : f.Represents m e a) (ha : 0 < a) : 0 < m := by
  refine Nat.pos_of_ne_zero fun h0 => ha.ne' ?_
  rw [h.value, h0, Nat.cast_zero, zero_mul]

/-- A member rounds to itself. -/
theorem Fmt.Represents.round_eq (h : f.Represents m e a) (ha : 0 < a) : Fp.round f a = .fin a := by
  rw [h.value]
  exact round_eq_self (h.sig_pos ha) h.fits h.lower h.upper

/-- The half of a member is a member unless the last bit is lost. -/
theorem Fmt.Represents.round_half_eq (h : f.Represents m e a) (ha : 0 < a) (hbit : f.emin < e ∨ m % 2 = 0) :
    Fp.round f (a / 2) = .fin (a / 2) := by
  have hm := h.sig_pos ha
  have hup := h.upper
  obtain he | heven := hbit
  · have hhalf : a / 2 = m * pow2 (e - 1 - f.precision + 1) := by
      rw [h.value, show e - f.precision + 1 = e - 1 - f.precision + 1 + 1 by ring, pow2_succ]
      ring
    rw [hhalf]
    exact round_eq_self hm h.fits (by omega) (by omega)
  · obtain ⟨j, rfl⟩ := Nat.dvd_of_mod_eq_zero heven
    have hhalf : a / 2 = j * pow2 (e - f.precision + 1) := by
      rw [h.value]
      push_cast
      ring
    have hfits := h.fits
    rw [hhalf]
    exact round_eq_self (by omega) (by omega) h.lower hup

/-- The half of a number of the least exponent is counted in the least last places. -/
theorem Fmt.Represents.half_ulpExp (h : f.Represents m f.emin a) (ha : 0 < a) : f.ulpExp (a / 2) = f.emin - f.precision + 1 := by
  have hlt : a / 2 < pow2 (f.emin + 1) := by
    have := mul_lastPlace_lt (e := f.emin) h.fits
    rw [← h.value] at this
    linarith
  rw [Fmt.ulpExp, max_eq_right (floorLog2_le_of_lt (half_pos ha) hlt)]

/-- The half of a member of the least exponent is rounded to a significand of the format. -/
theorem Fmt.Represents.half_roundSig_lt (h : f.Represents m f.emin a) (ha : 0 < a) :
    f.roundSig (a / 2) < 2 ^ f.precision.toNat := by
  have hq : a / 2 / pow2 (f.ulpExp (a / 2)) = m / 2 := by
    rw [h.half_ulpExp ha, h.value, div_right_comm, mul_div_cancel_right₀ _ (pow2_pos _).ne']
  have hle := (abs_le.mp (roundHalfEven_spec (q := (m : ℚ) / 2) (by positivity)).1).1
  have hm : (1 : ℚ) ≤ m := by exact_mod_cast h.sig_pos ha
  rw [Fmt.roundSig, hq]
  refine lt_of_le_of_lt ?_ h.fits
  have : ((roundHalfEven ((m : ℚ) / 2) : ℕ) : ℚ) ≤ m := by linarith
  exact_mod_cast this

end Halving

end Sys2Proof

namespace Sys2Proof.Machine

section HalfExact

variable {b : FpBits} {r : ℚ} {m : ℕ} {e : ℤ}

/-- A valid reference voltage is a member of the format. -/
theorem represents_of_value (hr : b.value = .fin r) (hpos : 0 < r) : ∃ m e, b.fmt.Represents m e r := by
  obtain ⟨-, m, e, h⟩ := value_represents hr
  exact ⟨m, e, abs_of_pos hpos ▸ h⟩

/-- Step 1a is exact unless the last bit is lost. -/
theorem quantHalf_eq (hr : b.value = .fin r) (hpos : 0 < r) (h : b.fmt.Represents m e r) (hbit : b.fmt.emin < e ∨ m % 2 = 0) :
    quantHalf b.fmt b.value = .fin (r / 2) :=
  (quantHalf_spec hr hpos).1.trans (h.round_half_eq hpos hbit)

/-- Twice the half of a number whose last bit is lost is another number: its significand is even. -/
theorem not_halfExact_of_odd (hr : b.value = .fin r) (hpos : 0 < r) (h : b.fmt.Represents m b.fmt.emin r) (hodd : m % 2 = 1) :
    ¬ HalfExact b.fmt b.value := by
  intro hexact
  obtain ⟨hround, hfin, -⟩ := quantHalf_spec hr hpos
  have hhalf : (quantHalf b.fmt b.value).num = b.fmt.roundSig (r / 2) * pow2 (b.fmt.emin - b.fmt.precision + 1) := by
    rw [hround, round_num_eq_roundMag (half_pos hpos) (hround ▸ hfin), roundMag_eq_roundSig, h.half_ulpExp hpos]
  have htwice : (quantHalf b.fmt b.value).num + (quantHalf b.fmt b.value).num
      = b.fmt.roundSig (r / 2) * pow2 (b.fmt.emin + 1 - b.fmt.precision + 1) := by
    rw [hhalf, show b.fmt.emin + 1 - b.fmt.precision + 1 = b.fmt.emin - b.fmt.precision + 1 + 1 by ring, pow2_succ (_ + 1)]
    ring
  obtain ⟨hsum, -⟩ := (Fp.add_finite b.fmt hfin hfin).num_eq
  have hmax := emin_lt_emax b.fmt
  rw [htwice, (round_num_eq_self (h.half_roundSig_lt hpos) (by omega) (by omega)).2, ← htwice, hhalf, ← two_mul, ← mul_assoc,
    hexact, hr, Fp.num_fin] at hsum
  have : m = 2 * b.fmt.roundSig (r / 2) := by exact_mod_cast mul_right_cancel₀ (pow2_pos _).ne' (h.value.symm.trans hsum)
  omega

/-- Where `HalfExact` holds (40_quantizer.md R89). -/
theorem halfExact_iff (hr : b.value = .fin r) (hpos : 0 < r) (h : b.fmt.Represents m e r) :
    HalfExact b.fmt b.value ↔ b.fmt.emin < e ∨ m % 2 = 0 := by
  refine ⟨fun hexact => ?_, fun hbit => ?_⟩
  · by_contra hc
    push Not at hc
    obtain ⟨he, hodd⟩ := hc
    obtain rfl : e = b.fmt.emin := le_antisymm he h.lower
    exact not_halfExact_of_odd hr hpos h (by omega) hexact
  · rw [HalfExact, quantHalf_eq hr hpos h hbit, hr, Fp.add, add_halves]
    exact h.round_eq hpos

/-- The last bit of a pattern is lost by halving where it is set and the pattern is among the least ones. -/
theorem keepsLastBit_iff_pattern (hr : b.value = .fin r) (hpos : 0 < r) :
    ∃ m e, b.fmt.Represents m e r
      ∧ (b.fmt.emin < e ∨ m % 2 = 0 ↔ 2 ^ b.fmt.precision.toNat ≤ b.pattern ∨ b.pattern % 2 = 0) := by
  obtain ⟨neg, expo, frac, hval, -, hexpo, hfrac, hpat⟩ := fields_of_value_fin hr
  have hrep := fieldSig_represents hexpo hfrac
  have hneg : neg = false :=
    neg_eq_false_of_pos (mul_nonneg (Nat.cast_nonneg _) (pow2_pos _).le) (hval ▸ hpos)
  rw [hneg, Fp.sign, if_neg Bool.false_ne_true, one_mul] at hval
  refine ⟨b.fmt.fieldSig expo frac, b.fmt.fieldExp expo, hval ▸ hrep, ?_⟩
  have hb := emin_add_emax b.fmt
  rw [hpat hneg, ← two_mul_leadingBit, ← precision_sub_one_toNat]
  obtain rfl | rfl | hbig : expo = 0 ∨ expo = 1 ∨ 2 ≤ expo := by omega
  · have he : b.fmt.fieldExp 0 = b.fmt.emin := by unfold Fmt.fieldExp; omega
    rw [he, Fmt.fieldSig, if_pos rfl]
    omega
  · have he : b.fmt.fieldExp 1 = b.fmt.emin := by unfold Fmt.fieldExp; omega
    rw [he, Fmt.fieldSig, if_neg one_ne_zero]
    omega
  · refine iff_of_true (.inl (by unfold Fmt.fieldExp; omega)) (.inl ?_)
    exact (Nat.mul_le_mul_right _ hbig).trans (Nat.le_add_right _ _)

/-- `HalfExact` read off the pattern. -/
theorem halfExact_iff_pattern (hc : configValid b = true) :
    HalfExact b.fmt b.value ↔ 2 ^ b.fmt.precision.toNat ≤ b.pattern ∨ b.pattern % 2 = 0 := by
  obtain ⟨r, hr, hpos⟩ := (configValid_iff b).mp hc
  obtain ⟨m, e, hrep, hiff⟩ := keepsLastBit_iff_pattern hr hpos
  rw [halfExact_iff hr hpos hrep, hiff]

end HalfExact

/-- Settles O15: halving loses nothing but the last bit of a number of the least exponent, whose significand is its pattern. -/
theorem halfIsExactUnlessTheLastBitIsLost : Obligations.HalfIsExactUnlessTheLastBitIsLost :=
  ⟨fun _ hc => halfExact_iff_pattern hc, fun _ hc => halfExact_iff_pattern hc⟩

/-! SUPPORT. The rounding errors of the Quantizer (40_quantizer.md R89, R92). -/

/-- A value in the normal range is rounded to a number with one rounding's relative error. -/
theorem near_of_normalRange {f : Fmt} {a : Fp} {x : ℚ} (ha : a.SameNumber (.round f x)) (hx : f.NormalRange x) :
    a.isFinite = true ∧ Near roundoff a.num x := by
  obtain ⟨hnum, hfin⟩ := ha.num_eq
  obtain ⟨h1, h2⟩ := round_error f hx
  rw [hnum, hfin]
  exact ⟨h1, h2.trans (mul_le_mul_of_nonneg_left (pow2_neg_precision_le f) (abs_nonneg x))⟩

/-- A whole number of the least last places is rounded with no more than that error below the normal range, too. -/
theorem near_of_multiple {f : Fmt} {a : Fp} {n : ℕ} (ha : a.SameNumber (.round f (n * pow2 (f.emin - f.precision + 1))))
    (hb : n * pow2 (f.emin - f.precision + 1) < f.overflowBound) :
    a.isFinite = true ∧ Near roundoff a.num (n * pow2 (f.emin - f.precision + 1)) := by
  obtain hle | hlt := le_or_gt (pow2 f.emin) (n * pow2 (f.emin - f.precision + 1))
  · exact near_of_normalRange ha (.inr (by rw [abs_of_nonneg ((pow2_pos _).le.trans hle)]; exact ⟨hle, hb⟩))
  · have hfits : n < 2 ^ f.precision.toNat := by
      rw [lt_two_pow_precision_iff]
      refine lt_of_mul_lt_mul_right (hlt.trans ?_) (pow2_pos (f.emin - f.precision + 1)).le
      rw [← pow2_add]
      exact pow2_lt (by omega)
    obtain ⟨hnum, hfin⟩ := ha.num_eq
    obtain ⟨hfin', hnum'⟩ := round_num_eq_self hfits le_rfl (emin_lt_emax f).le
    rw [hnum, hfin, hnum']
    exact ⟨hfin', Near.refl (by norm_num [roundoff]) _⟩

end Sys2Proof.Machine

namespace Sys2Proof.Machine

/-! SUPPORT. The saturated code of a number close to another (40_quantizer.md R89, R92). -/

/-- The code of a finite number is the floor of the clamped number. -/
theorem saturate_of_isFinite (w : Width) {a : Fp} (h : a.isFinite = true) :
    (saturate w a : ℤ) = ⌊min (w.maxCode : ℚ) (max 0 a.num)⌋ := by
  cases a with
  | nan | inf => cases h
  | zero s => simp [saturate]
  | fin x =>
    rw [saturate, Fp.num_fin]
    exact Int.toNat_of_nonneg (Int.floor_nonneg.mpr (le_min (Nat.cast_nonneg _) (le_max_left _ _)))

/-- Clamping moves numbers no farther apart. -/
theorem abs_clamp_sub_le (M x y : ℚ) : |min M (max 0 x) - min M (max 0 y)| ≤ |x - y| := by
  have hmin : |min M (max 0 x) - min M (max 0 y)| ≤ |max 0 x - max 0 y| := by
    simpa using abs_min_sub_min_le_max M (max 0 x) M (max 0 y)
  have hmax : |max 0 x - max 0 y| ≤ |x - y| := by simpa using abs_max_sub_max_le_max 0 x 0 y
  exact hmin.trans hmax

/-- A relative error that is below one at `M` moves a clamped number by less than one. -/
theorem abs_clamp_sub_lt_one {M ε x y : ℚ} (hM : 1 ≤ M) (hε : 0 ≤ ε) (hMε : M * ε < 1) (h : Near ε x y) :
    |min M (max 0 x) - min M (max 0 y)| < 1 := by
  have hε1 : ε ≤ 1 := (le_mul_of_one_le_left hε hM).trans hMε.le
  obtain hy | hy := le_or_gt y 0
  · -- the sign stays, and both are clamped to 0
    have hx : x ≤ 0 := by
      have := (abs_le.mp (le_trans h (mul_le_of_le_one_right (abs_nonneg y) hε1))).2
      rw [abs_of_nonpos hy] at this
      linarith
    rw [max_eq_left hx, max_eq_left hy, sub_self, abs_zero]
    exact one_pos
  · unfold Near at h
    rw [abs_of_pos hy] at h
    obtain hyM | hyM := le_or_gt y M
    · calc _ ≤ |x - y| := abs_clamp_sub_le M x y
        _ ≤ y * ε := h
        _ ≤ M * ε := mul_le_mul_of_nonneg_right hyM hε
        _ < 1 := hMε
    · -- `y` is clamped to `M`, and `x` is not as low as `M - 1`
      have hx : M - 1 < x := by nlinarith [(abs_le.mp h).1]
      have h1 : M - 1 < min M (max 0 x) := lt_min (by linarith) (lt_max_of_lt_right hx)
      rw [min_eq_left (hyM.le.trans (le_max_right 0 y)), abs_lt]
      exact ⟨by linarith, by linarith [min_le_left M (max 0 x)]⟩

/-- Numbers less than one apart have floors at most one apart. -/
theorem abs_floor_sub_le_one {x y : ℚ} (h : |x - y| < 1) : |⌊x⌋ - ⌊y⌋| ≤ 1 := by
  have hle : ∀ a b : ℚ, a - b < 1 → ⌊a⌋ ≤ ⌊b⌋ + 1 := fun a b hab => by
    rw [← Int.floor_add_one]
    exact Int.floor_le_floor (by linarith)
  obtain ⟨hlo, hhi⟩ := abs_lt.mp h
  rw [abs_le]
  exact ⟨by linarith [hle y x (by linarith)], by linarith [hle x y hhi]⟩

theorem maxCode_cast_le (w : Width) : (w.maxCode : ℚ) ≤ 2 ^ 20 := by cases w <;> norm_num [Width.maxCode, Width.bits]

theorem one_le_maxCode (w : Width) : (1 : ℚ) ≤ w.maxCode := by exact_mod_cast maxCode_pos w

theorem roundoff_nonneg : 0 ≤ roundoff := by norm_num [roundoff]

/-- The relative error of two roundings, one after the other. -/
def twoRoundoffs : ℚ := roundoff + roundoff + roundoff * roundoff

/-- The relative error of three roundings, one after another. -/
def threeRoundoffs : ℚ := roundoff + twoRoundoffs + roundoff * twoRoundoffs

theorem threeRoundoffs_nonneg : 0 ≤ threeRoundoffs := by norm_num [threeRoundoffs, twoRoundoffs, roundoff]

theorem twoRoundoffs_le : twoRoundoffs ≤ threeRoundoffs := by norm_num [threeRoundoffs, twoRoundoffs, roundoff]

/-- Three roundings move `MAXCODE` by less than one code (40_quantizer.md R92). -/
theorem maxCode_mul_threeRoundoffs_lt (w : Width) : w.maxCode * threeRoundoffs < 1 := by
  refine (mul_le_mul_of_nonneg_right (maxCode_cast_le w) threeRoundoffs_nonneg).trans_lt ?_
  norm_num [threeRoundoffs, twoRoundoffs, roundoff]

section Errors

variable {b : FpBits} {r : ℚ}

/-- Step 2a of a finite `shifted` in the normal range. -/
theorem quantProd_near (w : Width) {v : Fp} (hs : (quantShifted b.fmt b.value v).isFinite = true)
    (hrange : b.fmt.NormalRange ((quantShifted b.fmt b.value v).num * w.maxCode)) :
    (quantProd b.fmt b.value w v).isFinite = true
    ∧ Near roundoff (quantProd b.fmt b.value w v).num ((quantShifted b.fmt b.value v).num * w.maxCode) := by
  rw [quantProd, ofNat_maxCode]
  exact near_of_normalRange (Fp.mul_finite b.fmt hs rfl) hrange

/-- Step 2b of a finite `prod` in the normal range. -/
theorem quantRaw_near (hr : b.value = .fin r) {w : Width} {v : Fp} (hp : (quantProd b.fmt b.value w v).isFinite = true)
    (hrange : b.fmt.NormalRange ((quantProd b.fmt b.value w v).num / r)) :
    (quantRaw b.fmt b.value w v).isFinite = true
    ∧ Near roundoff (quantRaw b.fmt b.value w v).num ((quantProd b.fmt b.value w v).num / r) := by
  have hdiv : quantRaw b.fmt b.value w v = Fp.div b.fmt (quantProd b.fmt b.value w v) (.fin r) := congrArg (Fp.div _ _) hr
  rw [hdiv]
  exact near_of_normalRange (Fp.div_finite b.fmt hp r) hrange

/-- The half of a member in the normal range is exact. -/
theorem quantHalf_of_normalRange (hr : b.value = .fin r) (hpos : 0 < r) (hrange : b.fmt.NormalRange (r / 2)) :
    quantHalf b.fmt b.value = .fin (r / 2) := by
  obtain ⟨m, e, hrep⟩ := represents_of_value hr hpos
  obtain h0 | ⟨hle, -⟩ := hrange
  · linarith
  · refine quantHalf_eq hr hpos hrep (.inl ?_)
    by_contra hc
    have hlt : r < pow2 (e + 1) := by rw [hrep.value]; exact mul_lastPlace_lt hrep.fits
    have := pow2_le (show e + 1 ≤ b.fmt.emin + 1 by omega)
    rw [abs_of_pos (half_pos hpos)] at hle
    rw [pow2_succ b.fmt.emin] at this
    linarith

end Errors

/-- The number that a finite value stands for. -/
theorem isFinite_num_of {a : Fp} {x : ℚ} (h : a = .fin x ∨ (∃ neg, a = .zero neg) ∧ x = 0) :
    a.isFinite = true ∧ a.num = x := by
  obtain rfl | ⟨⟨neg, rfl⟩, rfl⟩ := h
  · exact ⟨rfl, rfl⟩
  · exact ⟨rfl, rfl⟩

/-- Settles O19: `half` is exact, the three roundings after it move the ideal value by less than one code at `M`, and the clamp
moves numbers no farther apart. -/
theorem quantizeIsNearTheIdeal : Obligations.QuantizeIsNearTheIdeal := by
  intro vref v w r q h p _ hr hpos hv hhalf hh hsum hs hprod hraw
  obtain ⟨hvfin, rfl⟩ := isFinite_num_of hv
  obtain ⟨hsfin, rfl⟩ := isFinite_num_of hs
  have hexact := quantHalf_of_normalRange hr hpos hhalf
  obtain rfl : r / 2 = h := Fp.fin.inj (hexact.symm.trans hh)
  have hshifted : (quantShifted vref.fmt vref.value v.value).SameNumber (.round vref.fmt (v.value.num + r / 2)) := by
    rw [quantShifted, hexact]
    exact Fp.add_finite vref.fmt hvfin rfl
  obtain ⟨-, near1⟩ := near_of_normalRange hshifted hsum
  obtain ⟨hpfin, near2⟩ := quantProd_near w hsfin hprod
  have hrange : vref.fmt.NormalRange ((quantProd vref.fmt vref.value w v.value).num / r) := by
    generalize quantProd vref.fmt vref.value w v.value = g at hpfin hraw
    cases g with
    | nan | inf => cases hpfin
    | zero => exact .inl (zero_div r)
    | fin g => exact hraw g rfl
  obtain ⟨hrfin, near3⟩ := quantRaw_near hr hpfin hrange
  have hnear : Near threeRoundoffs (quantRaw vref.fmt vref.value w v.value).num ((v.value.num + r / 2) * w.maxCode / r) :=
    near3.trans roundoff_nonneg ((near2.div_right r).trans roundoff_nonneg ((near1.mul_right _).div_right r))
  rw [quantize_eq_saturate hr hpos w (Fp.isNan_of_isFinite hvfin), saturate_of_isFinite w hrfin]
  exact abs_floor_sub_le_one (abs_clamp_sub_lt_one (one_le_maxCode w) threeRoundoffs_nonneg
    (maxCode_mul_threeRoundoffs_lt w) hnear)

/-! SUPPORT. The code at plus half of the reference voltage (40_quantizer.md R89). -/

section Top

variable {b : FpBits} {r : ℚ}

/-- Where `HalfExact` holds, `raw` at `half` is what `TopExact` speaks of. -/
theorem quantRaw_half (h : HalfExact b.fmt b.value) (w : Width) :
    quantRaw b.fmt b.value w (quantHalf b.fmt b.value)
      = Fp.div b.fmt (Fp.mul b.fmt b.value (Fp.ofNat b.fmt w.maxCode)) b.value := by
  rw [quantRaw, quantProd, quantShifted, h]

/-- `TopExact` says that `raw` at `half` reaches `MAXCODE`. -/
theorem topExact_iff (h : HalfExact b.fmt b.value) (w : Width) :
    TopExact b.fmt b.value w ↔ Fp.le (.fin w.maxCode) (quantRaw b.fmt b.value w (quantHalf b.fmt b.value)) = true := by
  rw [quantRaw_half h, ← ofNat_maxCode b.fmt w]
  rfl

/-- Under both predicates the code at `half` is `MAXCODE`. -/
theorem quantize_half_of_topExact (hr : b.value = .fin r) (hpos : 0 < r) {w : Width} (h : HalfExact b.fmt b.value)
    (htop : TopExact b.fmt b.value w) : quantize b.fmt b.value w (quantHalf b.fmt b.value) = w.maxCode := by
  have hhalf := Fp.isNan_of_isFinite (quantHalf_spec hr hpos).2.1
  refine le_antisymm (quantize_le hr hpos w hhalf) ?_
  rw [quantize_eq_saturate hr hpos w hhalf]
  calc w.maxCode = saturate w (.fin w.maxCode) := (saturate_fin_of_big w le_rfl).symm
    _ ≤ _ := saturate_mono w ((topExact_iff h w).mp htop)

/-- A whole number of codes over a member is a whole number of the least last places. -/
theorem exists_multiple (hr : b.value = .fin r) (hpos : 0 < r) (w : Width) :
    ∃ n : ℕ, r * w.maxCode = n * pow2 (b.fmt.emin - b.fmt.precision + 1) := by
  obtain ⟨m, e, hrep⟩ := represents_of_value hr hpos
  have hlo := hrep.lower
  obtain ⟨n, hn⟩ := hrep.exists_multiple (k := b.fmt.emin - b.fmt.precision + 1) (by omega)
  refine ⟨n * w.maxCode, ?_⟩
  rw [hn]
  push_cast
  ring

/-- Without `TopExact` nothing overflows at `half`: an overflow would reach `MAXCODE`. -/
theorem lt_overflowBound_of_not_topExact (hr : b.value = .fin r) (hpos : 0 < r) {w : Width} (htop : ¬ TopExact b.fmt b.value w) :
    r * w.maxCode < b.fmt.overflowBound := by
  have hM : (0 : ℚ) < r * w.maxCode := mul_pos hpos (one_pos.trans_le (one_le_maxCode w))
  by_contra hc
  have hinf : Fp.round b.fmt (r * w.maxCode) = .inf false := by
    rw [Fp.round, if_neg hM.ne', abs_of_pos hM, if_pos (not_lt.mp hc), decide_eq_false hM.not_gt]
  refine htop ?_
  rw [TopExact, ofNat_maxCode, hr, Fp.mul, hinf, Fp.div_inf_pos b.fmt false hpos]
  rfl

/-- Numbers close to `MAXCODE` are in the normal range. -/
theorem normalRange_of_near_maxCode (f : Fmt) {w : Width} {x : ℚ} (h : Near roundoff x w.maxCode) : f.NormalRange x := by
  have h1 := one_le_maxCode w
  have h2 := maxCode_cast_le w
  have hlo : pow2 f.emin ≤ 1 / 2 := by cases f <;> decide +kernel
  have hhi : (2 : ℚ) ^ 21 ≤ pow2 f.emax := by cases f <;> decide +kernel
  have hover := pow2_emax_lt_overflowBound f
  unfold Near roundoff at h
  rw [Nat.abs_cast] at h
  obtain ⟨hl, hr⟩ := abs_le.mp h
  refine .inr ?_
  rw [abs_of_pos (by linarith)]
  exact ⟨by linarith, by linarith⟩

/-- A finite number that does not reach `x` is less. -/
theorem num_lt_of_not_le {a : Fp} {x : ℚ} (ha : a.isFinite = true) (h : ¬ Fp.le (.fin x) a = true) : a.num < x := by
  cases a with
  | nan | inf => cases ha
  | zero s => exact not_le.mp (mt (Fp.le_fin_zero x s).mpr h)
  | fin y => exact not_le.mp (mt (Fp.le_fin_fin x y).mpr h)

/-- Without `TopExact` the value at `half` is below `MAXCODE`, by less than one code. -/
theorem quantRaw_half_of_not_topExact (hr : b.value = .fin r) (hpos : 0 < r) {w : Width} (h : HalfExact b.fmt b.value)
    (htop : ¬ TopExact b.fmt b.value w) :
    (quantRaw b.fmt b.value w (quantHalf b.fmt b.value)).isFinite = true
    ∧ w.maxCode - 1 < (quantRaw b.fmt b.value w (quantHalf b.fmt b.value)).num
    ∧ (quantRaw b.fmt b.value w (quantHalf b.fmt b.value)).num < w.maxCode := by
  have hprod : (quantProd b.fmt b.value w (quantHalf b.fmt b.value)).SameNumber (.round b.fmt (r * w.maxCode)) := by
    rw [quantProd, quantShifted, h, hr, ofNat_maxCode]
    exact Fp.mul_finite b.fmt rfl rfl
  have hlt := lt_overflowBound_of_not_topExact hr hpos htop
  obtain ⟨n, hn⟩ := exists_multiple hr hpos w
  rw [hn] at hprod hlt
  obtain ⟨hpfin, hpnear⟩ := near_of_multiple hprod hlt
  rw [← hn] at hpnear
  have hquot := hpnear.div_right r
  rw [mul_div_cancel_left₀ _ hpos.ne'] at hquot
  obtain ⟨hrfin, hrnear⟩ := quantRaw_near hr hpfin (normalRange_of_near_maxCode b.fmt hquot)
  have hnear := (hrnear.trans roundoff_nonneg hquot).mono twoRoundoffs_le
  rw [Near, Nat.abs_cast] at hnear
  exact ⟨hrfin, by linarith [(abs_le.mp hnear).1, maxCode_mul_threeRoundoffs_lt w],
    num_lt_of_not_le hrfin (mt (topExact_iff h w).mpr htop)⟩

/-- Without `TopExact` the code at `half` is `MAXCODE - 1`. -/
theorem quantize_half_of_not_topExact (hr : b.value = .fin r) (hpos : 0 < r) {w : Width} (h : HalfExact b.fmt b.value)
    (htop : ¬ TopExact b.fmt b.value w) : quantize b.fmt b.value w (quantHalf b.fmt b.value) = w.maxCode - 1 := by
  obtain ⟨hfin, hlo, hhi⟩ := quantRaw_half_of_not_topExact hr hpos h htop
  have hM := maxCode_pos w
  have hM1 := one_le_maxCode w
  have hcode := saturate_of_isFinite w hfin
  have hfloor : ⌊(quantRaw b.fmt b.value w (quantHalf b.fmt b.value)).num⌋ = (w.maxCode : ℤ) - 1 := by
    rw [Int.floor_eq_iff]
    push_cast
    exact ⟨hlo.le, by linarith⟩
  rw [max_eq_right (by linarith), min_eq_right hhi.le, hfloor] at hcode
  rw [quantize_eq_saturate hr hpos w (Fp.isNan_of_isFinite (quantHalf_spec hr hpos).2.1)]
  omega

end Top

/-- Settles O14: from the code at `half` up, the order is kept. -/
theorem quantizeAtPlusHalf : Obligations.QuantizeAtPlusHalf := by
  intro vref w hc hexact
  obtain ⟨r, hr, hpos⟩ := (configValid_iff vref).mp hc
  refine ⟨fun htop v _ hle => ?_, fun htop => quantize_half_of_not_topExact hr hpos hexact htop⟩
  refine le_antisymm (quantize_le hr hpos w (Fp.isNan_of_le hle).2) ?_
  exact quantize_half_of_topExact hr hpos hexact htop ▸ quantize_mono hr hpos w hle

end Sys2Proof.Machine

namespace Sys2Proof.Machine

/-! SUPPORT. The frame of a code (41_transport.md R104, R105, R107). -/

/-- Unpacking the frame of a code gives the code modulo `2^w`. -/
theorem unpack_pack_mod (w : Width) (c : Code) : unpack (pack w c) = some (BitVec.ofNat 20 (c.toNat % 2 ^ w.bits)) := by
  rw [unpack_pack]
  cases w with
  | w20 => exact congrArg some (BitVec.eq_of_toNat_eq (by simp [Width.bits]))
  | w16 => exact congrArg some (BitVec.eq_of_toNat_eq (by simp [Width.bits]))

/-- A code up to `MAXCODE` is its own remainder (10_state.md R13). -/
theorem mod_two_pow_bits {w : Width} {n : ℕ} (h : n ≤ w.maxCode) : n % 2 ^ w.bits = n :=
  Nat.mod_eq_of_lt (h.trans_lt (Nat.sub_lt (Nat.two_pow_pos _) Nat.one_pos))

/-- Settles O20: a code within the width is its own remainder, and 20 bits hold it. -/
theorem unpackOfPackIsTheCode : Obligations.UnpackOfPackIsTheCode := by
  intro w c
  refine ⟨unpack_pack_mod w c, fun hc => ?_⟩
  have hbits : c.toNat < 2 ^ 20 := by
    calc c.toNat = c.toNat % 2 ^ w.bits := (mod_two_pow_bits hc).symm
      _ < 2 ^ w.bits := Nat.mod_lt _ (Nat.two_pow_pos _)
      _ ≤ 2 ^ 20 := Nat.pow_le_pow_right Nat.two_pos (bits_le w)
  rw [unpack_pack_mod, mod_two_pow_bits hc, Option.map_some, BitVec.toNat_ofNat, Nat.mod_eq_of_lt hbits]

/-- The frame reads the low bits of the code only. -/
theorem pack_mod (w : Width) (c : Code) : pack w (BitVec.ofNat 32 (c.toNat % 2 ^ w.bits)) = pack w c := by
  cases w with
  | w20 =>
    have hlow : (BitVec.ofNat 32 (c.toNat % 2 ^ Width.w20.bits)).setWidth 20 = c.setWidth 20 :=
      BitVec.eq_of_toNat_eq (by simp [Width.bits])
    rw [pack_w20, pack_w20, hlow]
  | w16 =>
    have hlow : (BitVec.ofNat 32 (c.toNat % 2 ^ Width.w16.bits)).setWidth 16 = c.setWidth 16 :=
      BitVec.eq_of_toNat_eq (by simp [Width.bits])
    rw [pack_w16, pack_w16, hlow]

/-- A frame has `NBYTES` bytes. -/
theorem length_pack (w : Width) (c : Code) : (pack w c).length = w.nbytes := by cases w <;> rfl

/-- Settles O21: only the low bits of the code are in the frame. -/
theorem packTruncatesToTheWidth : Obligations.PackTruncatesToTheWidth :=
  fun w c => ⟨(pack_mod w c).symm, length_pack w c⟩

/-! SUPPORT. What a trace can do at each place of the handshake (41_transport.md R113, R114). -/

/-- The transitions of the monitor: from a place by an event to the next place. -/
inductive Mon.Step : Mon → Event → Mon → Prop where
  | idle (p : Pin) : Step .quiet (.pin p .high) .quiet
  | select : Step .quiet (.pin .csN .low) .selected
  | send (bytes : List Byte) (a : Answer) : Step .selected (.xfer bytes a) (.sent a)
  | raise : Step (.sent .ok) (.pin .csN .high) .raised
  | giveUp : Step (.sent .fail) (.pin .csN .high) .quiet
  | latch : Step .raised (.pin .ldacN .low) .latched
  | hold {d : ℕ} (hd : Config.tLdpwMin ≤ d) : Step .latched (.delay d) .timed
  | release : Step .timed (.pin .ldacN .high) .quiet

/-- The monitor moves by these transitions only. -/
theorem Mon.step_of_next {m m' : Mon} {e : Event} (h : m.next e = some m') : m.Step e m' := by
  unfold Mon.next at h
  split at h
  · cases h; exact .idle _
  · cases h; exact .select
  · cases h; exact .send _ _
  · cases h; exact .raise
  · cases h; exact .giveUp
  · cases h; exact .latch
  · split_ifs at h with hd
    cases h
    exact .hold hd
  · cases h; exact .release
  · cases h

/-- A monitored trace takes its first event by a transition. -/
theorem step_of_monitor_cons {m k : Mon} {e : Event} {es : List Event} (h : monitor m (e :: es) = some k) :
    ∃ m', m.Step e m' ∧ monitor m' es = some k := by
  obtain ⟨m', hnext, hes⟩ := Option.bind_eq_some_iff.mp h
  exact ⟨m', Mon.step_of_next hnext, hes⟩

/-- A monitored trace passes through a place where it is cut. -/
theorem exists_mon_of_monitor_append {m k : Mon} {es fs : List Event} (h : monitor m (es ++ fs) = some k) :
    ∃ m', monitor m es = some m' ∧ monitor m' fs = some k := by
  rw [monitor_append] at h
  exact Option.bind_eq_some_iff.mp h

/-- Only a rise of chip-select leads to the place before a latch pulse. -/
theorem ends_with_rise_of_raised {es : List Event} (h : monitor .quiet es = some .raised) :
    ∃ es', es = es' ++ [.pin .csN .high] := by
  obtain rfl | ⟨es', e, rfl⟩ := List.eq_nil_or_concat es
  · cases h
  · obtain ⟨m, -, hlast⟩ := exists_mon_of_monitor_append (by simpa using h)
    obtain ⟨m', hstep, hend⟩ := step_of_monitor_cons hlast
    cases hend
    cases hstep
    exact ⟨es', by simp⟩

/-- After the fall of the latch come the hold and the rise of the latch, as far as the trace goes. -/
theorem hold_and_release_of_latched {k : Mon} {es : List Event} (h : monitor .latched es = some k) :
    es = [] ∨ ∃ d, Config.tLdpwMin ≤ d ∧ (es = [.delay d] ∨ ∃ rest, es = .delay d :: .pin .ldacN .high :: rest) := by
  obtain _ | ⟨e, es⟩ := es
  · exact .inl rfl
  · obtain ⟨m, hstep, h⟩ := step_of_monitor_cons h
    cases hstep with
    | @hold d hd =>
      refine .inr ⟨d, hd, ?_⟩
      obtain _ | ⟨e, es⟩ := es
      · exact .inl rfl
      · obtain ⟨m, hstep, -⟩ := step_of_monitor_cons h
        cases hstep
        exact .inr ⟨es, rfl⟩

/-- After the fall of chip-select come one transfer and the rise of chip-select, as far as the trace goes. -/
theorem transfer_and_rise_of_selected {k : Mon} {es : List Event} (h : monitor .selected es = some k) :
    es = [] ∨ ∃ bytes a, es = [.xfer bytes a] ∨ ∃ rest, es = .xfer bytes a :: .pin .csN .high :: rest := by
  obtain _ | ⟨e, es⟩ := es
  · exact .inl rfl
  · obtain ⟨m, hstep, h⟩ := step_of_monitor_cons h
    cases hstep with
    | send bytes a =>
      refine .inr ⟨bytes, a, ?_⟩
      obtain _ | ⟨e, es⟩ := es
      · exact .inl rfl
      · obtain ⟨m, hstep, -⟩ := step_of_monitor_cons h
        cases hstep <;> exact .inr ⟨es, rfl⟩

/-- Settles O50: the two falls are transitions of one place each, and the events around them are those of that place. -/
theorem orderedTracesPulseAfterChipSelect : Obligations.OrderedTracesPulseAfterChipSelect := by
  intro es pre post m h
  constructor <;> rintro rfl
  · obtain ⟨m1, hpre, hpost⟩ := exists_mon_of_monitor_append h
    obtain ⟨m2, hstep, hpost⟩ := step_of_monitor_cons hpost
    cases hstep
    exact ⟨ends_with_rise_of_raised hpre, hold_and_release_of_latched hpost⟩
  · obtain ⟨m1, -, hpost⟩ := exists_mon_of_monitor_append h
    obtain ⟨m2, hstep, hpost⟩ := step_of_monitor_cons hpost
    cases hstep
    exact transfer_and_rise_of_selected hpost

end Sys2Proof.Machine

namespace Sys2Proof

/-! SUPPORT. The patterns of the positive finite numbers (41_transport.md R101, 30_encoding.md R52). -/

/-- A number of fields has the sign of its first bit. -/
theorem sign_mul_pos_iff (neg : Bool) {y : ℚ} (hy : 0 < y) : 0 < Fp.sign neg * y ↔ neg = false := by
  refine ⟨neg_eq_false_of_pos hy.le, ?_⟩
  rintro rfl
  rwa [Fp.sign, if_neg Bool.false_ne_true, one_mul]

/-- The fields of the positive finite numbers: no sign, an exponent field that is not all ones, and not both fields zero. -/
theorem exists_ofFields_pos_iff {f : Fmt} {neg : Bool} {expo frac : ℕ} (hexpo : (expo : ℤ) ≤ 2 * f.emax + 1) :
    (∃ r : ℚ, Fp.ofFields f neg expo frac = .fin r ∧ 0 < r)
      ↔ neg = false ∧ (expo : ℤ) < 2 * f.emax + 1 ∧ ¬ (expo = 0 ∧ frac = 0) := by
  rw [← fieldSig_eq_zero_iff (f := f), ofFields_eq]
  split_ifs with hones hinf hzero
  · simp [hones]
  · simp [hones]
  · simp [hzero]
  · have hpos : (0 : ℚ) < f.fieldSig expo frac * pow2 (f.fieldExp expo - f.precision + 1) :=
      mul_pos (Nat.cast_pos.mpr (Nat.pos_of_ne_zero hzero)) (pow2_pos _)
    simp only [Fp.fin.injEq, exists_eq_left', sign_mul_pos_iff neg hpos, lt_of_le_of_ne hexpo hones, hzero, not_false_eq_true,
      and_true]

/-- As numbers the patterns of the positive finite numbers are those above zero and below infinity's. -/
theorem positive_fields_iff_pattern {p q : ℕ} (b : BitVec (p + q + 1)) :
    (b.getLsbD (p + q) = false ∧ (b.extractLsb' q p).toNat < 2 ^ p - 1
        ∧ ¬ ((b.extractLsb' q p).toNat = 0 ∧ (b.extractLsb' 0 q).toNat = 0))
      ↔ 0 < b.toNat ∧ b.toNat < (2 ^ p - 1) * 2 ^ q := by
  have hfrac := (b.extractLsb' 0 q).isLt
  cases hsign : b.getLsbD (p + q) with
  | true =>
    have hbig : 2 ^ (p + q) ≤ b.toNat := Nat.ge_two_pow_of_testBit hsign
    have hinf : (2 ^ p - 1) * 2 ^ q ≤ 2 ^ (p + q) := pow_add 2 p q ▸ Nat.mul_le_mul_right _ (Nat.sub_le _ _)
    simp [(hinf.trans hbig).not_gt]
  | false =>
    rw [toNat_of_fields b hsign]
    generalize (b.extractLsb' q p).toNat = expo at *
    generalize (b.extractLsb' 0 q).toNat = frac at *
    have hpos : 0 < expo * 2 ^ q + frac ↔ ¬ (expo = 0 ∧ frac = 0) := by
      rw [not_and_or]
      simp [Nat.pos_iff_ne_zero]
    have hbelow : expo * 2 ^ q + frac < (2 ^ p - 1) * 2 ^ q ↔ expo < 2 ^ p - 1 := by
      rw [← Nat.div_lt_iff_lt_mul (Nat.two_pow_pos q), mul_comm, Nat.mul_add_div (Nat.two_pow_pos q), Nat.div_eq_of_lt hfrac,
        add_zero]
    rw [hpos, hbelow]
    exact ⟨fun ⟨_, hfin, h0⟩ => ⟨h0, hfin⟩, fun ⟨h0, hfin⟩ => ⟨rfl, hfin, h0⟩⟩

end Sys2Proof

namespace Sys2Proof.Machine

/-- `ConfigValid` of a pattern whose exponent field has `p` bits and whose fraction has `q`. -/
theorem configValid_iff_of_fields {f : Fmt} {p q : ℕ} {v : FpBits} (b : BitVec (p + q + 1))
    (hmax : ((2 ^ p - 1 : ℕ) : ℤ) = 2 * f.emax + 1)
    (hv : v.value = .ofFields f (b.getLsbD (p + q)) (b.extractLsb' q p).toNat (b.extractLsb' 0 q).toNat) :
    configValid v = true ↔ 0 < b.toNat ∧ b.toNat < (2 ^ p - 1) * 2 ^ q := by
  have hexpo := (b.extractLsb' q p).isLt
  rw [configValid_iff, hv, exists_ofFields_pos_iff (by omega), ← hmax, Nat.cast_lt, positive_fields_iff_pattern]

/-- Settles O26: the pattern of infinity is the exponent field of ones before a fraction of zeros. -/
theorem configValidIsPositiveAndFinite : Obligations.ConfigValidIsPositiveAndFinite :=
  ⟨fun b => configValid_iff_of_fields (f := .binary32) (p := 8) (q := 23) b rfl rfl,
    fun b => configValid_iff_of_fields (f := .binary64) (p := 11) (q := 52) b rfl rfl⟩

end Sys2Proof.Machine

namespace Sys2Proof.Machine

/-! SUPPORT. INIT (41_transport.md R100). -/

/-- INIT of an invalid configuration clears READY and answers. -/
theorem exec_initOf_invalid {s : State} {w : Width} {v : FpBits} (hf : v.fmt = s.fmt) (hv : configValid v = false) :
    exec (.initOf w v) s = .next ({ s with ready := false }.answered .invalidConfiguration 0) := by
  rw [exec_initOf hf, initBody, if_neg (by simp [hv])]
  rfl

/-- Settles O25: a valid INIT drives both lines high, which a device at rest does not notice; an invalid one drives nothing. -/
theorem initLoadsTheConfiguration : Obligations.InitLoadsTheConfiguration := by
  intro s w v hf
  refine ⟨fun hv => ⟨_, by rw [exec_initOf hf, initBody, if_pos hv], ?_, fun hd => ?_⟩, exec_initOf_invalid hf⟩
  · simp [State.setCfg, State.setLevel, State.drive, State.emit, State.setReady, State.respond, State.accept]
  · exact both_high_dev (s := s.accept.setCfg v w) hd

/-! SUPPORT. A command that is one handshake (41_transport.md R108, R112). -/

/-- What an instruction leaves that is one handshake whose transfer succeeds. -/
theorem exec_handshake_ok {i : Instr} {s : State} {bytes : List Byte} {code : Code}
    (h : exec i s = .next ((afterFrame .ok (hsStep3 (hsStep2 bytes .ok (hsStep1 s.accept)))).respond (Answer.result .ok) code)) :
    ∃ t d, exec i s = .next t ∧ Config.tLdpwMin ≤ d
      ∧ t = { s with
          busy := false, seq := 0, csN := .high, ldacN := .high, dev := t.dev, answers := s.answers.tail, holds := s.holds.tail
          trace := s.trace ++ goodHandshake bytes d
          responses := s.responses ++ [{ res := .success, code := code }]
          draws := s.draws + 6 } := by
  obtain ⟨t, d, rfl, hd, ht⟩ := handshake_ok s.accept bytes code
  exact ⟨_, d, h, hd, ht⟩

/-- What an instruction leaves that is one handshake whose transfer fails. -/
theorem exec_handshake_fail {i : Instr} {s : State} {bytes : List Byte} {code : Code}
    (h : exec i s =
      .next ((afterFrame .fail (hsStep3 (hsStep2 bytes .fail (hsStep1 s.accept)))).respond (Answer.result .fail) code)) :
    ∃ t, exec i s = .next t
      ∧ t = { s with
          busy := false, seq := 0, csN := .high, ldacN := .high, dev := t.dev, answers := s.answers.tail
          trace := s.trace ++ failedHandshake bytes
          responses := s.responses ++ [{ res := .transferFailure, code := code }]
          draws := s.draws + 4 } := by
  obtain ⟨t, rfl, ht⟩ := handshake_fail s.accept bytes code
  exact ⟨_, h, ht⟩

/-- SENDCODE in a block that is not ready only answers. -/
theorem exec_sendcodeOf_notReady {s : State} {x : BitVec 1} {hi : BitVec 32} {c : Code} (hr : s.ready = false) :
    exec (.sendcodeOf s.fmt x hi c) s = .next (s.answered .notReady 0) := by
  rw [exec_sendcodeOf rfl, sendcodeBody_notReady c (s := s.accept) hr, respond_accept]

/-- SETVOLTAGE whose conversion has an error only answers. -/
theorem exec_setvoltageOf_error {s : State} {x : BitVec 1} {v : FpBits} {r : Res} (hf : v.fmt = s.fmt)
    (h : s.conversion v = .error r) : exec (.setvoltageOf x v) s = .next (s.answered r 0) := by
  rw [exec_setvoltageOf hf, setvoltageBody_error (s := s.accept) h, respond_accept]

/-- Settles O27: an answered SENDCODE is one handshake of the packed code. -/
theorem sendcodeRunsTheHandshake : Obligations.SendcodeRunsTheHandshake :=
  fun _ _ _ _ => ⟨exec_sendcodeOf_notReady, fun hr hp => exec_handshake_ok (exec_sendcodeOf_answers hr hp),
    fun hr hp => exec_handshake_fail (exec_sendcodeOf_answers hr hp)⟩

/-- Settles O29: an answered SETVOLTAGE is one handshake of the packed code of the voltage. -/
theorem setvoltageSendsTheCode : Obligations.SetvoltageSendsTheCode :=
  fun _ _ _ hf hr hv => ⟨fun hp => exec_handshake_ok (exec_setvoltageOf_answers hf hr hv hp),
    fun hp => exec_handshake_fail (exec_setvoltageOf_answers hf hr hv hp)⟩

/-- Settles O31: the conversion of both voltage commands has the error `NotReady`. -/
theorem notReadyBlocksOnlyAnswer : Obligations.NotReadyBlocksOnlyAnswer := by
  intro s x hi c v hr hf
  have hconv := conversion_notReady v hr
  exact ⟨exec_vtocOf_error hf hconv, exec_sendcodeOf_notReady hr, exec_setvoltageOf_error hf hconv⟩

/-! SUPPORT. The traces of one SENDCODE (41_transport.md R114). -/

/-- A SENDCODE of a ready block that answers a next state is a handshake with the provider's answer. -/
theorem exec_sendcodeOf_next {s t : State} {x : BitVec 1} {hi : BitVec 32} {c : Code} (hr : s.ready = true)
    (h : exec (.sendcodeOf s.fmt x hi c) s = .next t) : ∃ a, s.provider (pack s.cfgWidth c) = .answers a
      ∧ t = (afterFrame a (hsStep3 (hsStep2 (pack s.cfgWidth c) a (hsStep1 s.accept)))).respond (Answer.result a) 0 := by
  rw [exec_sendcodeOf rfl, sendcodeBody_ready c (s := s.accept) hr] at h
  exact sendFrame_next h

/-- A SETVOLTAGE of a ready block that answers a next state is a handshake with the provider's answer. -/
theorem exec_setvoltageOf_next {s t : State} {x : BitVec 1} {v : FpBits} (hf : v.fmt = s.fmt) (hr : s.ready = true)
    (hv : v.value.isNan = false) (h : exec (.setvoltageOf x v) s = .next t) :
    ∃ a, s.provider (pack s.cfgWidth (s.codeFor v)) = .answers a
      ∧ t = (afterFrame a (hsStep3 (hsStep2 (pack s.cfgWidth (s.codeFor v)) a (hsStep1 s.accept)))).respond (Answer.result a)
          (s.codeFor v) := by
  rw [exec_setvoltageOf hf, setvoltageBody_code (s := s.accept) hr hv] at h
  exact sendFrame_next h

/-- The state with these coming answers and holds. -/
abbrev State.scripted (s : State) (answers : List ProviderMove) (holds : List ℕ) : State :=
  { s with answers := answers, holds := holds }

/-- A scripted hold lasts as long as its script says (20_memory.md R33; log 10). -/
theorem handshake_ok_trace_scripted (s : State) (bytes : List Byte) (code : Code) (answers : List ProviderMove) (k : ℕ) :
    ((afterFrame .ok (hsStep3 (hsStep2 bytes .ok (hsStep1 (s.scripted answers [k]).accept)))).respond
      (Answer.result .ok) code).trace = s.trace ++ goodHandshake bytes (Config.tLdpwMin + k) := by
  simp [afterFrame_ok, hsStep1, hsStep2, hsStep3, hsStep4, hsStep5, hsStep6, State.holdTime, goodHandshake]

/-- A handshake appends the events of one of the two shapes. -/
theorem handshake_trace (s : State) (a : Answer) (bytes : List Byte) (code : Code) :
    ∃ es, ((afterFrame a (hsStep3 (hsStep2 bytes a (hsStep1 s)))).respond (Answer.result a) code).trace = s.trace ++ es
      ∧ (es = failedHandshake bytes ∨ ∃ d, Config.tLdpwMin ≤ d ∧ es = goodHandshake bytes d) := by
  cases a with
  | ok =>
    obtain ⟨t, d, rfl, hd, ht⟩ := handshake_ok s bytes code
    exact ⟨_, congrArg State.trace ht, .inr ⟨d, hd, rfl⟩⟩
  | fail =>
    obtain ⟨t, rfl, ht⟩ := handshake_fail s bytes code
    exact ⟨_, congrArg State.trace ht, .inl rfl⟩

/-- Settles O28: every handshake has one of the two shapes, and a script of one answer and one hold gives each of them. -/
theorem tracesOfSendcodeAreExactlyTwoShapes : Obligations.TracesOfSendcodeAreExactlyTwoShapes := by
  intro s x hi c es hr
  constructor
  · rintro ⟨answers, holds, t, ht, hes⟩
    obtain ⟨a, -, rfl⟩ := exec_sendcodeOf_next (s := s.scripted answers holds) hr ht
    obtain ⟨fs, htrace, hshape⟩ := handshake_trace (s.scripted answers holds).accept a (pack s.cfgWidth c) 0
    obtain rfl : es = fs := List.append_cancel_left (hes.symm.trans htrace)
    exact hshape
  · rintro (rfl | ⟨d, hd, rfl⟩)
    · obtain ⟨t, ht, heq⟩ := exec_handshake_fail
        (exec_sendcodeOf_answers (s := s.scripted [.answers .fail] []) (x := x) (hi := hi) (c := c) hr rfl)
      exact ⟨_, _, t, ht, congrArg State.trace heq⟩
    · refine ⟨_, _, _,
        exec_sendcodeOf_answers (s := s.scripted [.answers .ok] [d - Config.tLdpwMin]) (x := x) (hi := hi) (c := c) hr rfl, ?_⟩
      rw [handshake_ok_trace_scripted, Nat.add_sub_cancel' hd]

/-! SUPPORT. SETVOLTAGE as VTOC and SENDCODE (41_transport.md R117, 30_encoding.md R64). -/

/-- The code of a voltage fits the width. -/
theorem codeFor_le_maxCode {s : State} {v : FpBits} (hc : configValid s.cfgVref = true) (hv : v.value.isNan = false) :
    (s.codeFor v).toNat ≤ s.cfgWidth.maxCode := by
  rw [State.codeFor, zextCode, BitVec.toNat_ofNat]
  exact (Nat.mod_le _ _).trans (quantize_le_maxCode s.cfgWidth hc hv)

/-- Settles O30: after VTOC, which only answers, SENDCODE of the code is the handshake of SETVOLTAGE, but for the responses. -/
theorem setvoltageIsVtocThenSendcode : Obligations.SetvoltageIsVtocThenSendcode := by
  intro s x hi v hf hr hc hv
  refine ⟨_, exec_vtocOf_code hf hr hv, rfl, codeFor_le_maxCode hc hv, fun u hu => ?_, fun u' hu' => ?_⟩
  · obtain ⟨a, hp, rfl⟩ := exec_setvoltageOf_next hf hr hv hu
    refine ⟨_, exec_sendcodeOf_answers (s := s.answered .success (s.codeFor v)) hr hp, ?_⟩
    rw [handshake_answered]
    rfl
  · obtain ⟨a, hp, -⟩ := exec_sendcodeOf_next (s := s.answered .success (s.codeFor v)) hr hu'
    exact ⟨_, exec_setvoltageOf_answers hf hr hv hp⟩

end Sys2Proof.Machine

namespace Sys2Proof.Machine

/-! SUPPORT. The order of the errors, and what follows a failed command (60_exceptions.md R135, R138, R141). -/

/-- An INIT that completes reports success or an invalid configuration (60_exceptions.md R130). -/
theorem exec_initOf_responses {s t : State} {w : Width} {v : FpBits} (h : exec (.initOf w v) s = .next t) :
    t.responses = s.responses ++ [{ res := .success, code := 0 }]
      ∨ t.responses = s.responses ++ [{ res := .invalidConfiguration, code := 0 }] := by
  have hcmd : (Instr.initOf w v).isCommand = true := by cases v <;> rfl
  obtain ⟨⟨res, code⟩, hresp, -, hinit, -⟩ := everyCommandAnswersOnce _ s t hcmd h
  obtain ⟨rfl | rfl, rfl⟩ := hinit w v rfl
  · exact .inl hresp
  · exact .inr hresp

/-- Settles O32: the conversion stops at its first error, and the transfer comes only after it. -/
theorem firstErrorIsReported : Obligations.FirstErrorIsReported := by
  intro s x hi c w v hf
  refine ⟨fun hr => ?_, fun hr hv => ?_, fun hr hv hp => ?_, fun hr hp => ?_, fun t ht => exec_initOf_responses ht⟩
  · obtain ⟨hvtoc, hsendcode, hsetvoltage⟩ := notReadyBlocksOnlyAnswer s x hi c v hr hf
    exact ⟨hvtoc, hsetvoltage, hsendcode⟩
  · have hconv := conversion_nan hr hv
    exact ⟨exec_vtocOf_error hf hconv, exec_setvoltageOf_error hf hconv⟩
  · obtain ⟨t, ht, heq⟩ := exec_handshake_fail (exec_setvoltageOf_answers (x := x) hf hr hv hp)
    exact ⟨t, ht, congrArg State.responses heq⟩
  · obtain ⟨t, ht, heq⟩ := exec_handshake_fail (exec_sendcodeOf_answers (x := x) (hi := hi) hr hp)
    exact ⟨t, ht, congrArg State.responses heq⟩

/-- Settles O34: a failed INIT clears READY and keeps the rest; what the next command does is then said by READY alone. -/
theorem failedInitLocksUntilAValidOne : Obligations.FailedInitLocksUntilAValidOne := by
  intro s w v hf hv
  refine ⟨_, exec_initOf_invalid hf hv, rfl, rfl, rfl, rfl, rfl, rfl, rfl, fun x hi c v' hf' => ?_, fun w' v' hf' hv' => ?_⟩
  · exact notReadyBlocksOnlyAnswer _ x hi c v' rfl hf'
  · obtain ⟨u, hu, hvref, hwidth, hready⟩ := exec_initOf_valid
      (s := { s with ready := false }.answered .invalidConfiguration 0) (w := w') hf' hv'
    exact ⟨u, hu, hready, hvref, hwidth⟩

/-- A failed handshake has no latch pulse (41_transport.md R112). -/
theorem count_latchFall_failedHandshake (bytes : List Byte) : (failedHandshake bytes).count (.pin .ldacN .low) = 0 := by
  simp [failedHandshake]

/-- A good handshake has one latch pulse (41_transport.md R111). -/
theorem count_latchFall_goodHandshake (bytes : List Byte) (d : ℕ) : (goodHandshake bytes d).count (.pin .ldacN .low) = 1 := by
  simp [goodHandshake]

/-- Settles O36: the events of both are those of a failed handshake and then of a good one, which alone pulses the latch. -/
theorem retryPulsesTheLatchOnce : Obligations.RetryPulsesTheLatchOnce := by
  intro s x hi c hr hp
  obtain ⟨t, ht, heq⟩ := exec_handshake_fail (exec_sendcodeOf_answers (x := x) (hi := hi) hr hp)
  refine ⟨t, ht, fun hok => ?_⟩
  have hready : t.ready = true := by rw [heq]; exact hr
  have hwidth : t.cfgWidth = s.cfgWidth := by rw [heq]
  have hfmt : t.fmt = s.fmt := by rw [heq]; rfl
  have htrace : t.trace = s.trace ++ failedHandshake (pack s.cfgWidth c) := by rw [heq]
  rw [← hwidth] at hok
  obtain ⟨u, d, hu, hutrace⟩ := exec_sendcodeOf_ok_trace (x := x) (hi := hi) hready hok
  refine ⟨u, failedHandshake (pack s.cfgWidth c) ++ goodHandshake (pack t.cfgWidth c) d, hfmt ▸ hu, ?_, ?_⟩
  · rw [hutrace, htrace, List.append_assoc]
  · rw [List.count_append, count_latchFall_failedHandshake, count_latchFall_goodHandshake]

/-- Settles O52: a command at a busy port is a word that waits, so the step takes no input. -/
theorem busyPortHoldsTheCommand : Obligations.BusyPortHoldsTheCommand := by
  intro s p rest i hi hd hcmd hbusy
  have hwaits : s.keepsWaiting p = true := by rw [keepsWaiting_of_decode s hd, hbusy, hcmd, Bool.and_self]
  rw [step_of_word hi, if_pos hwaits]

end Sys2Proof.Machine

namespace Sys2Proof.Machine
open Host (Outcome)

/-! SUPPORT. A provider that never answers (70_reset_and_hazards.md R157, 93_implementation_defined.md U11; log 9). -/

/-- SENDCODE in a ready block whose provider never answers stops. -/
theorem exec_sendcodeOf_silent {s : State} {x : BitVec 1} {hi : BitVec 32} {c : Code} (hr : s.ready = true)
    (hp : s.provider (pack s.cfgWidth c) = .silent) : exec (.sendcodeOf s.fmt x hi c) s = .fault .transferNeverAnswers :=
  calc exec (.sendcodeOf s.fmt x hi c) s = sendcodeBody c s.accept := exec_sendcodeOf rfl
    _ = sendFrame (pack s.cfgWidth c) 0 s.accept := sendcodeBody_ready c hr
    _ = _ := sendFrame_silent 0 hp

/-- SETVOLTAGE of a voltage that is not NaN in a ready block whose provider never answers stops. -/
theorem exec_setvoltageOf_silent {s : State} {x : BitVec 1} {v : FpBits} (hf : v.fmt = s.fmt) (hr : s.ready = true)
    (hv : v.value.isNan = false) (hp : s.provider (pack s.cfgWidth (s.codeFor v)) = .silent) :
    exec (.setvoltageOf x v) s = .fault .transferNeverAnswers :=
  calc exec (.setvoltageOf x v) s = setvoltageBody v s.accept := exec_setvoltageOf hf
    _ = sendFrame (pack s.cfgWidth (s.codeFor v)) (s.codeFor v) s.accept := setvoltageBody_code hr hv
    _ = _ := sendFrame_silent _ hp

/-- Settles O37: both commands reach the sending of the frame, which the silent provider stops. -/
theorem silentProviderStopsTheBlock : Obligations.SilentProviderStopsTheBlock :=
  fun _ _ _ _ _ hr => ⟨exec_sendcodeOf_silent hr, fun hf hv => exec_setvoltageOf_silent hf hr hv⟩

/-! SUPPORT. A reset by itself (70_reset_and_hazards.md R150; log 7, log 8). -/

/-- The step at a reset request in front of the inputs. -/
theorem step_of_reset {s : State} {rest : List Input} (hi : s.inputs = .reset :: rest) :
    step s = .next { s with inputs := rest }.applyReset := by
  rw [step, takeInput, hi]

/-- What a reset leaves speaks of the format and the responses before it only. -/
theorem State.ResetTo.of_same {s m t : State} (h : m.ResetTo t) (hf : m.fmt = s.fmt) (hr : m.responses = s.responses) :
    s.ResetTo t where
  notReady := h.notReady
  notBusy := h.notBusy
  seqZero := h.seqZero
  sameFmt := h.sameFmt.trans hf
  noResponse := h.noResponse.trans hr
  shiftUndefined := h.shiftUndefined
  outUndefined := h.outUndefined

/-- Settles O53: the step is the reset of the state without the request. -/
theorem resetRequestResets : Obligations.ResetRequestResets :=
  fun _ _ hi => ⟨_, step_of_reset hi, (applyReset_resetTo _).of_same rfl rfl, rfl⟩

/-! SUPPORT. A reset in the middle of a command (70_reset_and_hazards.md R151, 93_implementation_defined.md U18; log 8): each body
of a command beside its moment after `k` events. -/

/-- The state `t` after a reset that cut off what began in `s`, after the events `es`. -/
structure CutTo (s t : State) (es : List Event) : Prop where
  resetTo : s.ResetTo t
  inputs : t.inputs = s.inputs
  trace : t.trace = s.trace ++ es

/-- The reset of a moment of a running command cuts it off there. -/
theorem Running.cutTo {s m : State} {es : List Event} (h : Running s m es) : CutTo s m.applyReset es where
  resetTo := (applyReset_resetTo m).of_same h.fmt h.responses
  inputs := h.inputs
  trace := h.trace

/-- The outcome of what runs from `s` beside its outcome with a reset after `k` events: the reset comes after the first `k` events
of what completes, and after the first event at most of what hangs (93_implementation_defined.md U11). -/
inductive CutsOff (s : State) (k : ℕ) : Outcome State Fault Refusal → Outcome State Fault Refusal → Prop where
  | completes {u t : State} {es : List Event} (hu : u.trace = s.trace ++ es) (h : CutTo s t (es.take k)) :
      CutsOff s k (.next u) (.next t)
  | hangs {r : Fault} {t : State} (h : CutTo s t ([Event.pin .csN .low].take k)) : CutsOff s k (.fault r) (.next t)
  | refused (r : Refusal) : CutsOff s k (.refused r) (.refused r)

/-- What completes without an event is cut off without one. -/
theorem CutsOff.of_noEvent {s u m : State} {k : ℕ} (hu : u.trace = s.trace) (hm : Running s m []) :
    CutsOff s k (.next u) (.next m.applyReset) :=
  .completes (es := []) (by rw [hu, List.append_nil]) (by rw [List.take_nil]; exact hm.cutTo)

/-- Accepting a command is no part of what is cut off. -/
theorem CutsOff.of_accept {s : State} {k : ℕ} {o o' : Outcome State Fault Refusal} (h : CutsOff s.accept k o o') :
    CutsOff s k o o' := by
  cases h with
  | completes hu h => exact .completes hu ⟨h.resetTo.of_same rfl rfl, h.inputs, h.trace⟩
  | hangs h => exact .hangs ⟨h.resetTo.of_same rfl rfl, h.inputs, h.trace⟩
  | refused r => exact .refused r

/-- A command that is cut off at its port, from its body and its moment. -/
theorem onPort_cutsOff {s : State} {k : ℕ} (f : Fmt) {body : State → Outcome State Fault Refusal} {moment : State → State}
    (h : f = s.fmt → CutsOff s.accept k (body s.accept) (.next (moment s.accept).applyReset)) :
    CutsOff s k (s.onPort f body) (s.cutOnPort f moment) := by
  rw [State.cutOnPort]
  by_cases hf : f = s.fmt
  · rw [onPort_own s f body hf, onPort_own s f _ hf]
    exact (h hf).of_accept
  · rw [onPort_foreign s f body hf, onPort_foreign s f _ hf]
    exact .refused _

/-- INIT beside its moment: the two lines are driven high, or nothing is driven. -/
theorem initBody_cutsOff {s : State} {w : Width} {v : FpBits} (hf : v.fmt = s.fmt) (k : ℕ) :
    CutsOff s k (initBody w v s) (.next (initMoment w v k s).applyReset) := by
  have hm := initMoment_running (w := w) hf k
  unfold initBody
  split at hm
  case isTrue hv =>
    rw [if_pos hv]
    exact .completes (es := [.pin .csN .high, .pin .ldacN .high]) (by simp) hm.cutTo
  case isFalse hv =>
    rw [if_neg hv]
    exact .of_noEvent rfl hm

/-- VTOC beside its moment: it only answers. -/
theorem vtocBody_cutsOff (v : FpBits) (s : State) (k : ℕ) :
    CutsOff s k (vtocBody v s) (.next (vtocMoment v s).applyReset) := by
  have hm := vtocMoment_running s v
  obtain ⟨-, hc⟩ | ⟨-, -, hc⟩ | ⟨hr, hv, -⟩ := conversion_cases s v
  · rw [vtocBody_error hc]; exact .of_noEvent rfl hm
  · rw [vtocBody_error hc]; exact .of_noEvent rfl hm
  · rw [vtocBody_code hr hv]; exact .of_noEvent rfl hm

/-- The events of a handshake up to its response, when the transfer succeeds. -/
theorem handshake_ok_running (s : State) (bytes : List Byte) :
    Running s (afterFrame .ok (hsStep3 (hsStep2 bytes .ok (hsStep1 s))))
      (goodHandshake bytes (hsStep4 (hsStep3 (hsStep2 bytes .ok (hsStep1 s)))).holdTime) :=
  (hsStep1_running s).trans <| (hsStep2_running _ bytes .ok).trans <| (hsStep3_running _).trans <| (hsStep4_running _).trans <|
    (hsStep5_running _).trans (hsStep6_running _)

/-- The events of a handshake up to its response, when the transfer fails. -/
theorem handshake_fail_running (s : State) (bytes : List Byte) :
    Running s (afterFrame .fail (hsStep3 (hsStep2 bytes .fail (hsStep1 s)))) (failedHandshake bytes) :=
  (hsStep1_running s).trans <| (hsStep2_running _ bytes .fail).trans <| (hsStep3_running _).trans (hsRestore_running _)

/-- Sending a frame beside its moment, whatever the provider does. -/
theorem sendFrame_cutsOff (bytes : List Byte) (code : Code) (s : State) (k : ℕ) :
    CutsOff s k (sendFrame bytes code s) (.next (momentAt s (sendMoments bytes s) k).applyReset) := by
  cases hp : s.provider bytes with
  | silent =>
    rw [sendFrame_silent code hp]
    exact .hangs (momentAt_running (sendMoments_silent hp) k).cutTo
  | answers a =>
    rw [sendFrame_answers code hp]
    cases a with
    | ok => exact .completes (handshake_ok_running s bytes).trace (momentAt_running (sendMoments_ok hp) k).cutTo
    | fail => exact .completes (handshake_fail_running s bytes).trace (momentAt_running (sendMoments_fail hp) k).cutTo

/-- SENDCODE beside its moment. -/
theorem sendcodeBody_cutsOff (c : Code) (s : State) (k : ℕ) :
    CutsOff s k (sendcodeBody c s) (.next (sendcodeMoment c k s).applyReset) := by
  unfold sendcodeBody sendcodeMoment
  split
  · exact sendFrame_cutsOff (pack s.cfgWidth c) 0 s k
  · exact .of_noEvent rfl (.refl s)

/-- SETVOLTAGE whose conversion has an error has no event. -/
theorem setvoltageMoment_error {s : State} {v : FpBits} {r : Res} (k : ℕ) (h : s.conversion v = .error r) :
    setvoltageMoment v k s = s := by simp only [setvoltageMoment, h]

/-- SETVOLTAGE of a voltage that is not NaN in a ready block passes through the states of a handshake. -/
theorem setvoltageMoment_code {s : State} {v : FpBits} (k : ℕ) (h : s.ready = true) (hv : v.value.isNan = false) :
    setvoltageMoment v k s = momentAt s (sendMoments (pack s.cfgWidth (s.codeFor v)) s) k := by
  simp only [setvoltageMoment, conversion_code h hv, converted_of_not_nan hv]

/-- SETVOLTAGE beside its moment. -/
theorem setvoltageBody_cutsOff (v : FpBits) (s : State) (k : ℕ) :
    CutsOff s k (setvoltageBody v s) (.next (setvoltageMoment v k s).applyReset) := by
  obtain ⟨-, hc⟩ | ⟨-, -, hc⟩ | ⟨hr, hv, -⟩ := conversion_cases s v
  · rw [setvoltageBody_error hc, setvoltageMoment_error k hc]; exact .of_noEvent rfl (.refl s)
  · rw [setvoltageBody_error hc, setvoltageMoment_error k hc]; exact .of_noEvent rfl (.refl s)
  · rw [setvoltageBody_code hr hv, setvoltageMoment_code k hr hv]; exact sendFrame_cutsOff _ _ s k

/-- A frame reaches the device with no event of the block (log 4). -/
theorem deviceReceives_running (s : State) (bytes : List Byte) : Running s (s.deviceReceives bytes) [] :=
  ⟨(List.append_nil _).symm, rfl, rfl, rfl, rfl⟩

/-- Every instruction beside itself cut off. -/
theorem exec_cutsOff (k : ℕ) (i : Instr) (s : State) : CutsOff s k (exec i s) (execCut k i s) := by
  cases i with
  | init32 w v => exact onPort_cutsOff _ fun hf => initBody_cutsOff (v := .b32 v) (s := s.accept) hf k
  | init64 w v => exact onPort_cutsOff _ fun hf => initBody_cutsOff (v := .b64 v) (s := s.accept) hf k
  | vtoc32 x v => exact onPort_cutsOff _ fun _ => vtocBody_cutsOff (.b32 v) s.accept k
  | vtoc64 x v => exact onPort_cutsOff _ fun _ => vtocBody_cutsOff (.b64 v) s.accept k
  | sendcode32 x c => exact onPort_cutsOff _ fun _ => sendcodeBody_cutsOff c s.accept k
  | sendcode64 x hi c => exact onPort_cutsOff _ fun _ => sendcodeBody_cutsOff c s.accept k
  | setvoltage32 x v => exact onPort_cutsOff _ fun _ => setvoltageBody_cutsOff (.b32 v) s.accept k
  | setvoltage64 x v => exact onPort_cutsOff _ fun _ => setvoltageBody_cutsOff (.b64 v) s.accept k
  | frame24 data pad => exact .of_noEvent rfl (deviceReceives_running s _)
  | frame16 data => exact .of_noEvent rfl (deviceReceives_running s _)

/-- What completes, cut off. -/
theorem CutsOff.of_next {s u : State} {k : ℕ} {o : Outcome State Fault Refusal} (h : CutsOff s k (.next u) o) :
    ∃ t es, o = .next t ∧ u.trace = s.trace ++ es ∧ CutTo s t (es.take k) := by
  cases h with
  | completes hu h => exact ⟨_, _, rfl, hu, h⟩

/-- What hangs, cut off. -/
theorem CutsOff.of_fault {s : State} {k : ℕ} {r : Fault} {o : Outcome State Fault Refusal} (h : CutsOff s k (.fault r) o) :
    ∃ t, o = .next t ∧ CutTo s t ([Event.pin .csN .low].take k) := by
  cases h with
  | hangs h => exact ⟨_, rfl, h⟩

/-- What is refused, cut off. -/
theorem CutsOff.of_refused {s : State} {k : ℕ} {r : Refusal} {o : Outcome State Fault Refusal} (h : CutsOff s k (.refused r) o) :
    o = .refused r := by
  cases h; rfl

/-- The step at a word in front of the inputs that a reset is to cut off: the word waits on, or it is taken and decoded (log 8). -/
theorem step_of_cut {s : State} {p : PortWord} {k : ℕ} {rest : List Input} (hi : s.inputs = .cut p k :: rest) :
    step s = if s.keepsWaiting p then .next { s with inputs := .word p :: rest }.applyReset
      else onWord p (execCut k) { s with inputs := rest } := by
  rw [step, takeInput, hi]

/-- A word that is taken and decodes is cut off. -/
theorem step_of_cut_taken {s : State} {p : PortWord} {k : ℕ} {rest : List Input} {i : Instr} (hi : s.inputs = .cut p k :: rest)
    (hd : decode p = .ok i) (hfree : s.busy = false ∨ i.isCommand = false) :
    step s = execCut k i { s with inputs := rest } := by
  have htaken : s.keepsWaiting p = false := by
    rw [keepsWaiting_of_decode s hd, Bool.and_eq_false_iff]
    exact hfree
  rw [step_of_cut hi, htaken, if_neg Bool.false_ne_true, onWord_of_decode _ _ hd]

/-- A command at a busy port waits on, and the reset comes first (60_exceptions.md R142). -/
theorem step_of_cut_waiting {s : State} {p : PortWord} {k : ℕ} {rest : List Input} {i : Instr} (hi : s.inputs = .cut p k :: rest)
    (hd : decode p = .ok i) (hbusy : s.busy = true) (hcmd : i.isCommand = true) :
    step s = .next { s with inputs := .word p :: rest }.applyReset := by
  have hwaits : s.keepsWaiting p = true := by rw [keepsWaiting_of_decode s hd, hbusy, hcmd, Bool.and_self]
  rw [step_of_cut hi, if_pos hwaits]

/-- Settles O56: a word that is taken is its instruction cut off, which is compared with the instruction; one that waits is a reset. -/
theorem resetDuringACommandCutsItOff : Obligations.ResetDuringACommandCutsItOff := by
  intro s p k rest i hi hd
  refine ⟨fun hfree => ?_, fun hbusy hcmd =>
    ⟨_, step_of_cut_waiting hi hd hbusy hcmd, (applyReset_resetTo _).of_same rfl rfl, rfl, rfl⟩⟩
  rw [step_of_cut_taken hi hd hfree]
  have hcut := exec_cutsOff k i { s with inputs := rest }
  refine ⟨fun u hu => ?_, fun r hr => ?_, fun r hr => (hr ▸ hcut).of_refused⟩
  · obtain ⟨t, es, ht, hes, hc⟩ := (hu ▸ hcut).of_next
    exact ⟨t, es, ht, hc.resetTo.of_same rfl rfl, hc.inputs, hes, hc.trace⟩
  · obtain ⟨t, ht, hc⟩ := (hr ▸ hcut).of_fault
    exact ⟨t, ht, hc.resetTo.of_same rfl rfl, hc.inputs, hc.trace⟩

end Sys2Proof.Machine
